-- ==== Sys2Proof/Word.lean ====
section
/-!
DEFINITION. The plain value types of TCF: a byte, a 32-bit register value and a byte string
(spec/00_scope.md R7, R9, R10). The operations over byte strings stand in Machine/Bytes.lean.
-/

namespace Sys2Proof

/-- A byte: an unsigned 8-bit value (00_scope.md R9). -/
abbrev Byte := BitVec 8

/-- A register value: 32 bits, unsigned (00_scope.md R7, R10). -/
abbrev Word := BitVec 32

/-- A byte string, lowest index first (00_scope.md R9). -/
abbrev Bytes := List Byte

end Sys2Proof
end

