-- ==== Sys2Proof/Machine/Bytes.lean ====
section
/-!
DEFINITION. Byte strings: the slices, literals and big-endian conversions of spec/00_scope.md R9 to R11,
and the byte order of 20_memory.md R75 (every multi-byte field is big-endian).
-/

namespace Sys2Proof.Machine

/-- `zeros(n)`: `n` bytes of 00 (R9). -/
def zeros (n : Nat) : Bytes := List.replicate n 0

/-- `rep(v, n)`: `n` copies of the byte `v` (R9). -/
def rep (v : Byte) (n : Nat) : Bytes := List.replicate n v

/-- The slice `b[i..j)` (R9). -/
def slice (b : Bytes) (i j : Nat) : Bytes := (b.drop i).take (j - i)

/-- `a XOR b`, bytewise, for two strings of equal length (R9). -/
def xorBytes (a b : Bytes) : Bytes := List.zipWith (· ^^^ ·) a b

/-- `be16(v)`, most significant byte first (R11). -/
def be16 (v : BitVec 16) : Bytes := [v.extractLsb' 8 8, v.extractLsb' 0 8]

/-- `be32(v)`, most significant byte first (R11). -/
def be32 (v : Word) : Bytes :=
  [v.extractLsb' 24 8, v.extractLsb' 16 8, v.extractLsb' 8 8, v.extractLsb' 0 8]

/-- `be32` of a length counted in unbounded naturals; the callers' lengths are below 2^32. -/
def be32Nat (n : Nat) : Bytes := be32 (BitVec.ofNat 32 n)

/-- `be64(v)`, most significant byte first (R11). -/
def be64 (v : BitVec 64) : Bytes := be32 (v.extractLsb' 32 32) ++ be32 (v.extractLsb' 0 32)

/-- The value of a byte string read big-endian; `BE32` and `BE128` of R11 are its 4- and 16-byte cases. -/
def beNat (b : Bytes) : Nat := b.foldl (fun acc v => acc * 256 + v.toNat) 0

/-- `BE32(b)` of a 4-byte string (R11). -/
def beWord (b : Bytes) : Word := BitVec.ofNat 32 (beNat b)

/-- `BE128(b)` of a 16-byte string (R11). -/
def be128Value (b : Bytes) : BitVec 128 := BitVec.ofNat 128 (beNat b)

/-- The 16-byte string of a 128-bit value, most significant byte first: the inverse of `BE128`. -/
def be128 (v : BitVec 128) : Bytes := be64 (v.extractLsb' 64 64) ++ be64 (v.extractLsb' 0 64)

/-- The first `n` pieces of `size` bytes each; a last short piece keeps what is left. -/
def pieces (size : Nat) : Nat → Bytes → List Bytes
  | 0, _ => []
  | n + 1, b => b.take size :: pieces size n (b.drop size)

/-- The bytes of `b` in pieces of `size` bytes, the last one possibly short; none for the empty string. -/
def chunks (size : Nat) (b : Bytes) : List Bytes := pieces size ((b.length + size - 1) / size) b

end Sys2Proof.Machine
end

