-- ==== Sys2Proof/Machine/Aes.lean ====
section
/-!
DEFINITION. The AES-128 block cipher of spec/41_aes_ecb.md R170 to R177.
A state is the 16-byte block itself: `s[r][c]` is the byte at index `r + 4c` (R171), so loading and
storing a block change nothing.
-/

namespace Sys2Proof.Machine

/-- `xtime`: multiplication by x modulo 0x11B (R172). -/
def xtime (a : Byte) : Byte := (a <<< 1) ^^^ (if a.msb then 0x1B#8 else 0#8)

/-- The XOR over the low `n` bits set in `b` of `xtime` applied that many times to `a` (R172). -/
def gmulBits : Nat → Byte → Byte → Byte
  | 0, _, _ => 0
  | n + 1, a, b => (if b.getLsbD 0 then a else 0) ^^^ gmulBits n (xtime a) (b >>> 1)

/-- `gmul(a, b)`: the product in GF(2^8) (R172). -/
def gmul (a b : Byte) : Byte := gmulBits 8 a b

/-- The table S of R173, one row for each high digit of the argument; in a row the entry of low digit 0
is written first. -/
def sboxRows : List Nat :=
  [0x637C777BF26B6FC53001672BFED7AB76, 0xCA82C97DFA5947F0ADD4A2AF9CA472C0,
   0xB7FD9326363FF7CC34A5E5F171D83115, 0x04C723C31896059A071280E2EB27B275,
   0x09832C1A1B6E5AA0523BD6B329E32F84, 0x53D100ED20FCB15B6ACBBE394A4C58CF,
   0xD0EFAAFB434D338545F9027F503C9FA8, 0x51A3408F929D38F5BCB6DA2110FFF3D2,
   0xCD0C13EC5F974417C4A77E3D645D1973, 0x60814FDC222A908846EEB814DE5E0BDB,
   0xE0323A0A4906245CC2D3AC629195E479, 0xE7C8376D8DD54EA96C56F4EA657AAE08,
   0xBA78252E1CA6B4C6E8DD741F4BBD8B8A, 0x703EB5664803F60E613557B986C11D9E,
   0xE1F8981169D98E949B1E87E9CE5528DF, 0x8CA1890DBFE6426841992D0FB054BB16]

/-- The table InvS of R173, laid out as `sboxRows`. -/
def invSboxRows : List Nat :=
  [0x52096AD53036A538BF40A39E81F3D7FB, 0x7CE339829B2FFF87348E4344C4DEE9CB,
   0x547B9432A6C2233DEE4C950B42FAC34E, 0x082EA16628D924B2765BA2496D8BD125,
   0x72F8F66486689816D4A45CCC5D65B692, 0x6C704850FDEDB9DA5E154657A78D9D84,
   0x90D8AB008CBCD30AF7E45805B8B34506, 0xD02C1E8FCA3F0F02C1AFBD0301138A6B,
   0x3A9111414F67DCEA97F2CFCEF0B4E673, 0x96AC7422E7AD3585E2F937E81C75DF6E,
   0x47F11A711D29C5896FB7620EAA18BE1B, 0xFC563E4BC6D279209ADBC0FE78CD5AF4,
   0x1FDDA8338807C731B11210592780EC5F, 0x60517FA919B54A0D2DE57A9F93C99CEF,
   0xA0E03B4DAE2AF5B0C8EBBB3C83539961, 0x172B047EBA77D626E169146355210C7D]

/-- The entry of a table of `sboxRows`' layout for the byte `a`. -/
def tableByte (rows : List Nat) (a : Byte) : Byte :=
  BitVec.ofNat 8 (rows.getD (a.toNat / 16) 0 >>> (8 * (15 - a.toNat % 16)))

/-- `S(a)` (R173). -/
def sbox (a : Byte) : Byte := tableByte sboxRows a

/-- `InvS(a)` (R173). -/
def invSbox (a : Byte) : Byte := tableByte invSboxRows a

/-- `SubBytes` (R175). -/
def subBytes (s : Bytes) : Bytes := s.map sbox

/-- `InvSubBytes` (R175). -/
def invSubBytes (s : Bytes) : Bytes := s.map invSbox

/-- `ShiftRows` (R175): `s'[r][c] = s[r][(c + r) mod 4]`, the sixteen bytes written out in index order. -/
def shiftRows : Bytes → Bytes
  | [b0, b1, b2, b3, b4, b5, b6, b7, b8, b9, b10, b11, b12, b13, b14, b15] =>
    [b0, b5, b10, b15, b4, b9, b14, b3, b8, b13, b2, b7, b12, b1, b6, b11]
  | s => s

/-- `InvShiftRows` (R175): `s'[r][(c + r) mod 4] = s[r][c]`. -/
def invShiftRows : Bytes → Bytes
  | [b0, b1, b2, b3, b4, b5, b6, b7, b8, b9, b10, b11, b12, b13, b14, b15] =>
    [b0, b13, b10, b7, b4, b1, b14, b11, b8, b5, b2, b15, b12, b9, b6, b3]
  | s => s

/-- One column times the circulant matrix whose first row is `m0 m1 m2 m3` (R175). -/
def mixColumn (m0 m1 m2 m3 a0 a1 a2 a3 : Byte) : Bytes :=
  [gmul a0 m0 ^^^ gmul a1 m1 ^^^ gmul a2 m2 ^^^ gmul a3 m3,
   gmul a1 m0 ^^^ gmul a2 m1 ^^^ gmul a3 m2 ^^^ gmul a0 m3,
   gmul a2 m0 ^^^ gmul a3 m1 ^^^ gmul a0 m2 ^^^ gmul a1 m3,
   gmul a3 m0 ^^^ gmul a0 m1 ^^^ gmul a1 m2 ^^^ gmul a2 m3]

/-- `mixColumn` on each column of a state, four bytes a column. -/
def mixWith (m0 m1 m2 m3 : Byte) : Bytes → Bytes
  | a0 :: a1 :: a2 :: a3 :: rest => mixColumn m0 m1 m2 m3 a0 a1 a2 a3 ++ mixWith m0 m1 m2 m3 rest
  | s => s

/-- `MixColumns`: coefficients 02 03 01 01 (R175). -/
def mixColumns (s : Bytes) : Bytes := mixWith 0x02 0x03 0x01 0x01 s

/-- `InvMixColumns`: coefficients 0E 0B 0D 09 (R175). -/
def invMixColumns (s : Bytes) : Bytes := mixWith 0x0E 0x0B 0x0D 0x09 s

/-- The round key after `k`, with round constant `rc`: the four words `w[4r] .. w[4r+3]` from
`w[4r-4] .. w[4r-1]` (R174). -/
def nextRoundKey (k : Bytes) (rc : Byte) : Bytes :=
  match k with
  | [a0, a1, a2, a3, b0, b1, b2, b3, c0, c1, c2, c3, d0, d1, d2, d3] =>
    let w0 := xorBytes [a0, a1, a2, a3] [sbox d1 ^^^ rc, sbox d2, sbox d3, sbox d0]
    let w1 := xorBytes [b0, b1, b2, b3] w0
    let w2 := xorBytes [c0, c1, c2, c3] w1
    let w3 := xorBytes [d0, d1, d2, d3] w2
    w0 ++ w1 ++ w2 ++ w3
  | k => k

/-- `Rcon[1..10]` (R174). -/
def rcons : List Byte := [0x01, 0x02, 0x04, 0x08, 0x10, 0x20, 0x40, 0x80, 0x1B, 0x36]

/-- The round keys that follow `k`, one for each round constant left. -/
def roundKeysFrom (k : Bytes) : List Byte → List Bytes
  | [] => []
  | rc :: rest => nextRoundKey k rc :: roundKeysFrom (nextRoundKey k rc) rest

/-- The round keys 1 to 10 of the key `k`; round key 0 is `k` itself (R174). -/
def roundKeys (k : Bytes) : List Bytes := roundKeysFrom k rcons

/-- The rounds of `AES_Enc` after the first AddRoundKey; the last one has no MixColumns (R176). -/
def encRounds (s : Bytes) : List Bytes → Bytes
  | [] => s
  | [rk] => xorBytes (shiftRows (subBytes s)) rk
  | rk :: rest => encRounds (xorBytes (mixColumns (shiftRows (subBytes s))) rk) rest

/-- `AES_Enc(k, b)` for a 16-byte key and a 16-byte block (R176). -/
def aesEnc (k b : Bytes) : Bytes := encRounds (xorBytes b k) (roundKeys k)

/-- One decryption round: InvShiftRows, InvSubBytes, AddRoundKey (R177). -/
def decRound (s rk : Bytes) : Bytes := xorBytes (invSubBytes (invShiftRows s)) rk

/-- The rounds of `AES_Dec` after the first AddRoundKey, for the round keys left in falling order; the
last one, with the key itself, has no InvMixColumns (R177). -/
def decRounds (s : Bytes) : List Bytes → Bytes
  | [] => s
  | [rk] => decRound s rk
  | rk :: rest => decRounds (invMixColumns (decRound s rk)) rest

/-- `AES_Dec(k, b)` (R177). -/
def aesDec (k b : Bytes) : Bytes :=
  match (k :: roundKeys k).reverse with
  | [] => b
  | rk10 :: rest => decRounds (xorBytes b rk10) rest

end Sys2Proof.Machine
end

