-- ==== Sys2Proof/Config.lean ====
section
/-!
DEFINITION. What an instance of TCF fixes (the four parameters of spec/00_scope.md R8) and the free
values: bytes and words the spec leaves unspecified (93_implementation_defined.md A-1 to A-3), which
nothing in Lean can evaluate.
-/

namespace Sys2Proof

/-- The parameters of an instance (R8). `LEN55_SUFFIX` and `LEN66_SUFFIX` are each 0 or 4, so each is
held as the Bool "the suffix is counted in the length field". -/
structure Params where
  /-- `MAX_LEN`: any u32. -/
  maxLen : Word
  /-- `BUF_CAP`: legal values are 1100 to 2^30 (`Params.legal`). -/
  bufCap : Word
  /-- `LEN55_SUFFIX = 4`. -/
  suffix55Counted : Bool
  /-- `LEN66_SUFFIX = 4`. -/
  suffix66Counted : Bool
deriving DecidableEq, Repr

/-- The default instance of R8, the one every test vector of the spec uses. -/
def Params.defaults : Params :=
  { maxLen := 1000, bufCap := 4096, suffix55Counted := false, suffix66Counted := false }

/-- The legal range of `BUF_CAP` (R8; 90_conflicts.md C12). The other parameters have no illegal value. -/
def Params.legal (p : Params) : Bool := 1100 ≤ p.bufCap.toNat && p.bufCap.toNat ≤ 2 ^ 30

/-- The `n`-th unspecified byte: what a command's read of an unwritten operand byte gives, and a host's read
of OBUF past OBUF_LEN (10_state.md R51, 20_memory.md R73; assumption 3). It has no body, so no proof can
know its values. -/
opaque Config.freeByte : Nat → Byte

/-- `Config.resetByte n a`: the unspecified byte that the `n`-th reset leaves at address `a` of IBUF or ABUF
(70_reset_and_hazards.md R441; assumption 10). It has no body. -/
opaque Config.resetByte : Nat → Nat → Byte

/-- The `n`-th unspecified register value (assumption 5). It has no body. -/
opaque Config.freeWord : Nat → Word

end Sys2Proof
end

