-- ==== Sys2Proof/Machine/State.lean ====
section
/-!
DEFINITION. The state of TCF: everything spec/10_state.md R30 gives it, its reset values
(70_reset_and_hazards.md R441), and the model's own fields at the end. INVENTORY.md lists each field
with its rule and reset value.
-/

namespace Sys2Proof.Machine

/-- The reasons a step stops with a fault: none. Every host access and every command word is defined in
every state (60_exceptions.md R407; 30_encoding.md R97), and the model faults of R52 are ghost records
that stop nothing (60_exceptions.md R411). -/
inductive Fault where
deriving DecidableEq, Repr

/-- The reasons a step refuses an instruction. -/
inductive Refusal where
  /-- The instruction has no meaning in the model. Raised by an arm of `exec` without a meaning: none is
  left. Safe: nothing is claimed of a run that ends in it. -/
  | notModelled (mnemonic : String)
deriving DecidableEq, Repr

/-- The error codes of STATUS.ERR (60_exceptions.md R400). Codes 0x0E to 0xFF are never produced. -/
inductive ErrCode where
  | ok
  | illegalCmd
  | bufRange
  | keyUnset
  | nonceUnset
  | config
  | operandLen
  | badPadding
  | tagMismatch
  | hmacMismatch
  | noPrefix
  | tooLong
  | short
  | badSuffix
deriving DecidableEq, Repr

/-- The result flags STATUS[13:8] (10_state.md R33). A command's rule names those it sets; the others are 0
(R34). -/
structure ResultFlags where
  trailerOk : Bool := false
  rcPresent : Bool := false
  vhPresent : Bool := false
  incomplete : Bool := false
  is6699 : Bool := false
  empty : Bool := false
deriving DecidableEq, Repr

/-- The ghost set FAULTS, a subset of two names (10_state.md R52). -/
structure FaultSet where
  nonceReuse : Bool
  unwrittenRead : Bool
deriving DecidableEq, Repr

/-- The three buffers of the buffer space (20_memory.md R70). -/
inductive Buffer where
  | ibuf
  | abuf
  | obuf
deriving DecidableEq, Repr

/-- One access from outside TCF: the four host primitives of 20_memory.md R71, and the platform's reset
(70_reset_and_hazards.md R440). -/
inductive Access where
  /-- `HostRegRead(n)`. -/
  | regRead (n : BitVec 8)
  /-- `HostRegWrite(n, v)`. With `n` = CMD it starts a command (10_state.md R32). -/
  | regWrite (n : BitVec 8) (v : Word)
  /-- `HostBufRead(a)`. -/
  | bufRead (a : Word)
  /-- `HostBufWrite(a, v)`. -/
  | bufWrite (a : Word) (v : Byte)
  /-- The platform asserts reset. -/
  | reset
deriving DecidableEq, Repr

/-- What a host read returns. -/
inductive Reply where
  | reg (v : Word)
  | byte (v : Byte)
deriving DecidableEq, Repr

/-- The buffer space: the bytes that hold a specified value, at strictly rising addresses. An address
that is not listed holds no specified value: an IBUF or ABUF byte that no host write has set, or an
OBUF byte at index ≥ OBUF_LEN (20_memory.md R73). -/
abbrev Memory := List Host.Cell

/-- The state of TCF (10_state.md R30). -/
structure State where
  /-- The instance's parameters, which ID's neighbours CFG, MAXLEN and BUFCAP show (R31). -/
  params : Params
  /-- Register 0x00, CMD: the last command word written (R32). -/
  cmd : Word
  /-- Register 0x01, STATUS (R33, R34). -/
  status : Word
  /-- Register 0x02, VERSION: only VER = VERSION[7:0] is stored (R36). -/
  version : BitVec 8
  /-- Register 0x03, SEQ_IN (R37). -/
  seqIn : Word
  /-- Register 0x04, CMD_IN (R37). -/
  cmdIn : Word
  /-- Register 0x05, RETCODE_IN (R37). -/
  retcodeIn : Word
  /-- Register 0x06, R_SEQ (R38). -/
  rSeq : Word
  /-- Register 0x07, R_CMD (R38). -/
  rCmd : Word
  /-- Register 0x08, R_RETCODE (R38). -/
  rRetcode : Word
  /-- Register 0x09, R_LEN (R38). -/
  rLen : Word
  /-- Register 0x0A, R_OFFSET (R38). -/
  rOffset : Word
  /-- Register 0x0B, R_FRAMELEN (R38). -/
  rFramelen : Word
  /-- Register 0x0C, R_CRC (R38). -/
  rCrc : Word
  /-- Register 0x0D, IBUF_LEN (R39). -/
  ibufLen : Word
  /-- Register 0x0E, ABUF_LEN (R39). -/
  abufLen : Word
  /-- Register 0x0F, OBUF_LEN (R39). -/
  obufLen : Word
  /-- IBUF, ABUF and OBUF (20_memory.md R70), and with them WMAP_I and WMAP_A (R51): an IBUF or ABUF
  byte is marked exactly if it is listed (`State.written`). -/
  mem : Memory
  /-- KEY_LOCAL, 16 bytes (R41). -/
  keyLocal : Bytes
  /-- KEY_SRCLEN (R41). -/
  keySrclen : Word
  /-- KEY_VALID (R41). -/
  keyValid : Bool
  /-- KEY_SESSION, 16 bytes (R42). -/
  keySession : Bytes
  /-- NEGOTIATED (R43). -/
  negotiated : Bool
  /-- NONCE, 12 bytes (R44). -/
  nonce : Bytes
  /-- NONCE_VALID (R44). -/
  nonceValid : Bool
  /-- NLOG, the ghost set of (key, nonce) pairs: a list with no repeats, newest first (R50). -/
  nlog : List (Bytes × Bytes)
  /-- FAULTS, the ghost set of model faults (R52). -/
  faults : FaultSet
  /-- The model's own: how many free values have been drawn (assumption 3). -/
  draws : Nat
  /-- The model's own: how many resets the platform has asserted, which names what the last of them left in
  the bytes of IBUF and ABUF (assumption 10). -/
  resets : Nat
  /-- The model's own: the accesses from outside that TCF has not yet served, in the host's program order
  (20_memory.md R79; assumption 1). -/
  inputs : List Access
  /-- The model's own: what the host's reads returned so far, oldest first (assumption 1). -/
  replies : List Reply
deriving DecidableEq, Repr

/-- The machine of the parameters `p` right after reset (R441). -/
def State.resetOf (p : Params) : State where
  params := p
  cmd := 0
  status := 0
  version := 0
  seqIn := 0
  cmdIn := 0
  retcodeIn := 0
  rSeq := 0
  rCmd := 0
  rRetcode := 0
  rLen := 0
  rOffset := 0
  rFramelen := 0
  rCrc := 0
  ibufLen := 0
  abufLen := 0
  obufLen := 0
  mem := []
  keyLocal := List.replicate 16 0
  keySrclen := 0
  keyValid := false
  keySession := List.replicate 16 0
  negotiated := false
  nonce := List.replicate 12 0
  nonceValid := false
  nlog := []
  faults := { nonceReuse := false, unwrittenRead := false }
  draws := 0
  resets := 0
  inputs := []
  replies := []

/-- The default instance (00_scope.md R8) right after reset (R441). -/
def State.reset : State := State.resetOf Params.defaults

end Sys2Proof.Machine
end

