-- ==== Sys2Proof/Machine/Flags.lean ====
section
/-!
DEFINITION. The STATUS register: the error codes of spec/60_exceptions.md R400 and the layout and update
of 10_state.md R33 and R34.
-/

namespace Sys2Proof.Machine

/-- The code of an error (60_exceptions.md R400). -/
def ErrCode.code : ErrCode → Byte
  | .ok => 0x00
  | .illegalCmd => 0x01
  | .bufRange => 0x02
  | .keyUnset => 0x03
  | .nonceUnset => 0x04
  | .config => 0x05
  | .operandLen => 0x06
  | .badPadding => 0x07
  | .tagMismatch => 0x08
  | .hmacMismatch => 0x09
  | .noPrefix => 0x0A
  | .tooLong => 0x0B
  | .short => 0x0C
  | .badSuffix => 0x0D

/-- STATUS from its fields, bit 31 first; bits [31:19] and [15:14] are reserved and 0 (10_state.md R33). -/
def statusWord (e : ErrCode) (f : ResultFlags) (keyValid nonceValid negotiated : Bool) : Word :=
  0#13 ++ BitVec.ofBool negotiated ++ BitVec.ofBool nonceValid ++ BitVec.ofBool keyValid ++ 0#2
    ++ BitVec.ofBool f.empty ++ BitVec.ofBool f.is6699 ++ BitVec.ofBool f.incomplete
    ++ BitVec.ofBool f.vhPresent ++ BitVec.ofBool f.rcPresent ++ BitVec.ofBool f.trailerOk ++ e.code

/-- The STATUS update that ends every command: ERR, the result flags, and the live bits from the key and
nonce state after the command (10_state.md R34). -/
def State.setStatus (s : State) (e : ErrCode) (f : ResultFlags) : State :=
  { s with status := statusWord e f s.keyValid s.nonceValid s.negotiated }

end Sys2Proof.Machine
end

