-- ==== Sys2Proof/Machine/Ops.lean ====
section
/-!
DEFINITION. The named operations over the buffer space and the registers (spec/20_memory.md R70 to R77,
00_scope.md R12), the nonce log (10_state.md R50), and what ends a command: the commit of a success and
the shared operation of an error (60_exceptions.md R402). TCF takes no trap, so an error is its only
exception and there is no return from one (R407, R408).
-/

namespace Sys2Proof.Machine

/-! ### Memory -/

/-- The canonical form: addresses strictly rising. No byte value stands for "unlisted", so there is no
further condition. -/
abbrev Memory.wf (m : Memory) : Prop := (m.map Prod.fst).Pairwise (· < ·)

/-- The byte listed at an address, if one is. -/
def Memory.read (m : Memory) (a : Nat) : Option Byte := (m.find? (fun c => c.1 == a)).map Prod.snd

/-- One byte written, in address order. -/
def Memory.write : Memory → Nat → Byte → Memory
  | [], a, v => [(a, v)]
  | (b, w) :: rest, a, v =>
    if a < b then (a, v) :: (b, w) :: rest
    else if a = b then (a, v) :: rest
    else (b, w) :: Memory.write rest a v

/-- `MemWrite` of a byte string at rising addresses from `a` (00_scope.md R12). -/
def Memory.writeBytes (m : Memory) (a : Nat) : Bytes → Memory
  | [] => m
  | v :: rest => Memory.writeBytes (m.write a v) (a + 1) rest

/-- The bytes at the addresses `[lo, lo + n)` no longer listed: they hold no specified value. -/
def Memory.clear (m : Memory) (lo n : Nat) : Memory := m.filter (fun c => decide (c.1 < lo ∨ lo + n ≤ c.1))

/-! ### The buffer space -/

/-- The base address of a buffer (20_memory.md R70). -/
def Buffer.base : Buffer → Nat
  | .ibuf => 0x00000000
  | .abuf => 0x40000000
  | .obuf => 0x80000000

/-- `BUF_CAP` as a number. -/
def State.cap (s : State) : Nat := s.params.bufCap.toNat

/-- The address lies in the buffer, for a capacity of `cap` bytes (R70). -/
def Buffer.holds (b : Buffer) (cap a : Nat) : Bool := decide (b.base ≤ a ∧ a < b.base + cap)

/-- The buffer an address belongs to; `none` for the addresses that hold nothing (R70). -/
def bufferOf (cap a : Nat) : Option Buffer :=
  if Buffer.ibuf.holds cap a then some .ibuf
  else if Buffer.abuf.holds cap a then some .abuf
  else if Buffer.obuf.holds cap a then some .obuf
  else none

/-- WMAP_I and WMAP_A: a host write has set the byte since reset (10_state.md R51). -/
def State.written (s : State) (b : Buffer) (i : Nat) : Bool := (s.mem.read (b.base + i)).isSome

/-- `MemRead(base, n)` (00_scope.md R12): byte `i` is the listed byte, and for a byte with no specified
value the free value drawn for it (10_state.md R51; assumption 3). -/
def State.readString (s : State) (b : Buffer) (n : Nat) : Bytes :=
  (List.range n).map fun i => (s.mem.read (b.base + i)).getD (Config.freeByte (s.draws + i))

/-- Every one of the first `n` bytes of the buffer is marked. -/
def State.allWritten (s : State) (b : Buffer) (n : Nat) : Bool := (List.range n).all (s.written b)

/-- The ghost effect of a command's read of the first `n` bytes of a buffer: where one of them is
unmarked, FAULTS gains UNWRITTEN_READ (10_state.md R51) and the draws are used up. -/
def State.noteRead (s : State) (b : Buffer) (n : Nat) : State :=
  { s with
    faults := { s.faults with unwrittenRead := s.faults.unwrittenRead || !s.allWritten b n }
    draws := if s.allWritten b n then s.draws else s.draws + n }

/-- `x[OBUF_LEN] <- 0`: no byte of OBUF holds a specified value any more (20_memory.md R73). -/
def State.clearOutput (s : State) : State :=
  { s with mem := s.mem.clear Buffer.obuf.base s.cap, obufLen := 0 }

/-- `emit(v)` (00_scope.md R12): the bytes of OBUF from index `len(v)` on hold no specified value (R73). -/
def State.emit (s : State) (v : Bytes) : State :=
  { s with
    mem := (s.mem.clear Buffer.obuf.base s.cap).writeBytes Buffer.obuf.base v
    obufLen := BitVec.ofNat 32 v.length }

/-! ### Registers written from unbounded numbers -/

/-- The register value of a number: the number itself below 2^32, and a free value where it does not
fit a 32-bit register (assumption 5). -/
def State.regValue (s : State) (v : Nat) : Word :=
  if v < 2 ^ 32 then BitVec.ofNat 32 v else Config.freeWord s.draws

/-- The draws after `State.regValue`. -/
def State.regDraws (s : State) (v : Nat) : Nat := if v < 2 ^ 32 then s.draws else s.draws + 1

/-! ### Parameters -/

/-- `MAX_LEN` as a number. -/
def maxLen (p : Params) : Nat := p.maxLen.toNat

/-- `LEN55_SUFFIX`: 0 or 4 (00_scope.md R8). -/
def suffix55 (p : Params) : Nat := if p.suffix55Counted then 4 else 0

/-- `LEN66_SUFFIX`: 0 or 4 (00_scope.md R8). -/
def suffix66 (p : Params) : Nat := if p.suffix66Counted then 4 else 0

/-! ### The nonce log -/

/-- The NLOG update of R50 with the key `k` and the nonce `n`: a pair already there is a reuse. -/
def State.logNonce (s : State) (k n : Bytes) : State :=
  { s with
    faults := { s.faults with nonceReuse := s.faults.nonceReuse || s.nlog.contains (k, n) }
    nlog := s.nlog.insert (k, n) }

/-- What every successful GCM encryption with NONCE does to the nonce state (10_state.md R44, R50). -/
def State.useNonce (s : State) (k : Bytes) : State := { s.logNonce k s.nonce with nonceValid := false }

/-! ### The end of a command -/

/-- What a command that raised no error has staged (00_scope.md R13): the state but for STATUS, and the
result flags its rule names. -/
structure Done where
  state : State
  flags : ResultFlags := {}
deriving DecidableEq, Repr

/-- The error `e` ends the command (60_exceptions.md R402): nothing but STATUS and OBUF_LEN changes, and
the bytes of OBUF are unspecified. `s` is the state before the command's own writes. -/
def State.fail (s : State) (e : ErrCode) : State := s.clearOutput.setStatus e {}

/-- The end of a command (10_state.md R34): the staged writes committed together with ERR = OK, or the
error's commit on the state `s` before them (60_exceptions.md R402). -/
def State.finish (s : State) : Except ErrCode Done → State
  | .ok d => d.state.setStatus .ok d.flags
  | .error e => s.fail e

/-- `if not c then raise e` (00_scope.md R13). -/
def require (c : Prop) [Decidable c] (e : ErrCode) : Except ErrCode Unit :=
  if c then .ok () else .error e

end Sys2Proof.Machine
end

