-- ==== Sys2Proof/Machine/Ecb.lean ====
section
/-!
DEFINITION. PKCS#7 padding and ECB: spec/41_aes_ecb.md R178 to R181.
-/

namespace Sys2Proof.Machine

/-- `Pad(m)` (R178). -/
def pad (m : Bytes) : Bytes := m ++ rep (BitVec.ofNat 8 (16 - m.length % 16)) (16 - m.length % 16)

/-- `Unpad(d, vfy)` (R179). -/
def unpad (d : Bytes) (vfy : Bool) : Except ErrCode Bytes :=
  match d.getLast? with
  | none => .error .badPadding
  | some p =>
    if p.toNat = 0 ∨ 16 < p.toNat then .error .badPadding
    else if d.length < p.toNat then .error .badPadding
    else if vfy && (d.drop (d.length - p.toNat)).any (· != p) then .error .badPadding
    else .ok (d.take (d.length - p.toNat))

/-- `ECB_Enc(k, m)` (R180). -/
def ecbEnc (k m : Bytes) : Bytes := (chunks 16 (pad m)).flatMap (aesEnc k)

/-- `ECB_Dec(k, c, vfy)` (R181). -/
def ecbDec (k c : Bytes) (vfy : Bool) : Except ErrCode Bytes :=
  if c.length = 0 then .error .badPadding
  else if c.length % 16 ≠ 0 then .error .operandLen
  else unpad ((chunks 16 c).flatMap (aesDec k)) vfy

end Sys2Proof.Machine
end

