-- ==== Sys2Proof/Machine/Gcm.lean ====
section
/-!
DEFINITION. AES-128-GCM with a 96-bit IV and a 128-bit tag: spec/42_gcm.md R220 to R226.
-/

namespace Sys2Proof.Machine

/-- `R` of R221: 0xE1 followed by fifteen zero bytes. -/
def gcmR : BitVec 128 := 0xE1000000000000000000000000000000#128

/-- The loop of R221 with `n` bits of `y` left, the next one the most significant of `y`. -/
def gcmMulLoop : Nat → (z v y : BitVec 128) → BitVec 128
  | 0, z, _, _ => z
  | n + 1, z, v, y =>
    gcmMulLoop n (if y.msb then z ^^^ v else z)
      (if v.getLsbD 0 then (v >>> 1) ^^^ gcmR else v >>> 1) (y <<< 1)

/-- The product `X • Y` in GF(2^128) (R221). -/
def gcmMul (x y : BitVec 128) : BitVec 128 := gcmMulLoop 128 0 x y

/-- `GHASH(H, X)` for a byte string whose length is a multiple of 16 (R222). -/
def ghash (h : Bytes) (x : Bytes) : Bytes :=
  be128 ((chunks 16 x).foldl (fun y b => gcmMul (y ^^^ be128Value b) (be128Value h)) 0)

/-- `inc32(B)`: adds 1 modulo 2^32 to the last four bytes, read big-endian (R223). -/
def inc32 (b : Bytes) : Bytes := b.take 12 ++ be32 (beWord (b.drop 12) + 1)

/-- `GCTR` over the blocks of the input, the last one possibly short (R223). -/
def gctrBlocks (k : Bytes) : Bytes → List Bytes → Bytes
  | _, [] => []
  | cb, x :: rest => xorBytes x (aesEnc k cb) ++ gctrBlocks k (inc32 cb) rest

/-- `GCTR(k, ICB, X)` (R223). -/
def gctr (k icb x : Bytes) : Bytes := gctrBlocks k icb (chunks 16 x)

/-- `J0`: the IV followed by 00 00 00 01 (R224). -/
def gcmJ0 (iv : Bytes) : Bytes := iv ++ [0, 0, 0, 1]

/-- The zero bytes that fill `x` up to a multiple of 16 (R224: `u` and `v`). -/
def gcmFill (x : Bytes) : Bytes := zeros ((16 - x.length % 16) % 16)

/-- The tag of the ciphertext `c` and the additional data `a` (R224: `S` and `t`). -/
def gcmTag (k iv c a : Bytes) : Bytes :=
  let s := ghash (aesEnc k (zeros 16))
    (a ++ gcmFill a ++ c ++ gcmFill c ++ be64 (BitVec.ofNat 64 (8 * a.length))
      ++ be64 (BitVec.ofNat 64 (8 * c.length)))
  gctr k (gcmJ0 iv) s

/-- `GCM_AE(k, iv, p, a)` (R224): the ciphertext and the tag. -/
def gcmAE (k iv p a : Bytes) : Bytes × Bytes :=
  let c := gctr k (inc32 (gcmJ0 iv)) p
  (c, gcmTag k iv c a)

/-- `GCM_AD(k, iv, c, t, a)` (R225): the plaintext, or `none` for FAIL. The comparison is of all sixteen
bytes at once (R226). -/
def gcmAD (k iv c t a : Bytes) : Option Bytes :=
  if gcmTag k iv c a = t then some (gctr k (inc32 (gcmJ0 iv)) c) else none

end Sys2Proof.Machine
end

