-- ==== Sys2Proof/Syntax.lean ====
section
/-!
DEFINITION. The commands of TCF: one constructor for each row of spec/opcode_table.json, with the
fields its row of 30_encoding.md R91 takes.
-/

namespace Sys2Proof

/-- The KSEL field (30_encoding.md R92). -/
inductive Ksel where
  /-- 00 LOCAL. -/
  | localKey
  /-- 01 SESSION. -/
  | sessionKey
  /-- 10 UDP. -/
  | udpKey
  /-- 11, reserved: no legal command holds it. -/
  | reserved
deriving DecidableEq, Repr

/-- The HM field: the trailer kind of a 55AA frame (30_encoding.md R94). -/
inductive TrailerKind where
  /-- 0, the CRC-32 trailer. -/
  | crc
  /-- 1, the HMAC-SHA-256 trailer. -/
  | hmac
deriving DecidableEq, Repr

/-- The RC field: the retcode mode (30_encoding.md R95). -/
inductive RcMode where
  /-- 00. -/
  | auto
  /-- 01. -/
  | absent
  /-- 10. -/
  | present
  /-- 11, reserved: no legal command holds it. -/
  | reserved
deriving DecidableEq, Repr

/-- A command of the opcode map (30_encoding.md R91). The Bools are the VFY field (R93) and the NX field
(R96). -/
inductive Instr where
  | nop
  | keyLoad
  | nonceLoad
  | sessionReset
  | kdf34
  | kdf35
  | aesEncBlock (ksel : Ksel)
  | aesDecBlock (ksel : Ksel)
  | pkcs7Pad
  | pkcs7Unpad (vfy : Bool)
  | ecbEnc (ksel : Ksel)
  | ecbDec (ksel : Ksel) (vfy : Bool)
  | gcmEnc (ksel : Ksel) (nx : Bool)
  | gcmDec (ksel : Ksel) (nx : Bool)
  | crc32
  | hmacSha256 (ksel : Ksel)
  | hmacVerify (ksel : Ksel)
  | frameScan
  | pack55 (ksel : Ksel) (hm : TrailerKind) (rc : RcMode)
  | unpack55 (ksel : Ksel) (hm : TrailerKind) (rc : RcMode)
  | pack66 (ksel : Ksel) (rc : RcMode)
  | unpack66 (ksel : Ksel) (rc : RcMode)
  | msgEncode
  | msgDecode (vfy : Bool) (rc : RcMode)
deriving DecidableEq, Repr

end Sys2Proof
end

