-- ==== Sys2Proof/WellFormed.lean ====
section
/-!
DEFINITION. Which terms of Syntax.lean are legal commands: KSEL = 11 and RC = 11 are reserved in every
command that takes the field (spec/30_encoding.md R92, R95, R97, R98).
-/

namespace Sys2Proof

/-- KSEL is not 11 (R92: also where the command does not use the key). -/
def Ksel.legal : Ksel → Bool
  | .reserved => false
  | .localKey | .sessionKey | .udpKey => true

/-- RC is not 11 (R95). -/
def RcMode.legal : RcMode → Bool
  | .reserved => false
  | .auto | .absent | .present => true

/-- The command is legal (R97, the two checks on field values). -/
def Instr.wellFormed : Instr → Bool
  | .nop => true
  | .keyLoad => true
  | .nonceLoad => true
  | .sessionReset => true
  | .kdf34 => true
  | .kdf35 => true
  | .aesEncBlock ksel => ksel.legal
  | .aesDecBlock ksel => ksel.legal
  | .pkcs7Pad => true
  | .pkcs7Unpad _ => true
  | .ecbEnc ksel => ksel.legal
  | .ecbDec ksel _ => ksel.legal
  | .gcmEnc ksel _ => ksel.legal
  | .gcmDec ksel _ => ksel.legal
  | .crc32 => true
  | .hmacSha256 ksel => ksel.legal
  | .hmacVerify ksel => ksel.legal
  | .frameScan => true
  | .pack55 ksel _ rc => ksel.legal && rc.legal
  | .unpack55 ksel _ rc => ksel.legal && rc.legal
  | .pack66 ksel rc => ksel.legal && rc.legal
  | .unpack66 ksel rc => ksel.legal && rc.legal
  | .msgEncode => true
  | .msgDecode _ rc => rc.legal

end Sys2Proof
end

