-- ==== Sys2Proof/Decode.lean ====
section
/-!
DEFINITION. The command word CW: the decoder of spec/30_encoding.md R90 to R97, the encoder of the same
format, and the match and mask table of R98 and spec/opcode_table.json.
-/

namespace Sys2Proof

/-- Why a command word is illegal (R97). Each reason ends the command with ERR_ILLEGAL_CMD. -/
inductive DecodeRefusal where
  /-- OP is not in the opcode map. -/
  | unassignedOp
  /-- A bit of [31:15] is set. -/
  | reservedBits
  /-- KSEL is nonzero in a command that does not take it. -/
  | untakenKsel
  /-- VFY is nonzero in a command that does not take it. -/
  | untakenVfy
  /-- HM is nonzero in a command that does not take it. -/
  | untakenHm
  /-- RC is nonzero in a command that does not take it. -/
  | untakenRc
  /-- NX is nonzero in a command that does not take it. -/
  | untakenNx
  /-- KSEL = 11. -/
  | reservedKsel
  /-- RC = 11. -/
  | reservedRc
deriving DecidableEq, Repr

/-- Which fields a command takes (R91). -/
structure Takes where
  ksel : Bool := false
  vfy : Bool := false
  hm : Bool := false
  rc : Bool := false
  nx : Bool := false
deriving DecidableEq, Repr

/-- OP, bits [7:0] (R90). -/
def opField (w : Word) : BitVec 8 := w.extractLsb' 0 8

/-- KSEL, bits [9:8] (R90). -/
def kselBits (w : Word) : BitVec 2 := w.extractLsb' 8 2

/-- VFY, bit [10] (R90). -/
def vfyField (w : Word) : Bool := w.getLsbD 10

/-- HM, bit [11] (R90). -/
def hmBit (w : Word) : Bool := w.getLsbD 11

/-- RC, bits [13:12] (R90). -/
def rcBits (w : Word) : BitVec 2 := w.extractLsb' 12 2

/-- NX, bit [14] (R90). -/
def nxField (w : Word) : Bool := w.getLsbD 14

/-- The reserved bits [31:15] (R90). -/
def reservedBits (w : Word) : BitVec 17 := w.extractLsb' 15 17

/-- The meaning of the two KSEL bits (R92). -/
def kselOf (b : BitVec 2) : Ksel :=
  if b = 0 then .localKey else if b = 1 then .sessionKey else if b = 2 then .udpKey else .reserved

/-- The meaning of the HM bit (R94). -/
def hmOf (b : Bool) : TrailerKind := if b then .hmac else .crc

/-- The meaning of the two RC bits (R95). -/
def rcOf (b : BitVec 2) : RcMode :=
  if b = 0 then .auto else if b = 1 then .absent else if b = 2 then .present else .reserved

/-- The opcode map (R91): for an assigned OP, the fields the command takes and the command with the
fields of the word `w`. -/
def opcodeRow (w : Word) : Option (Takes × Instr) :=
  let ksel := kselOf (kselBits w)
  let vfy := vfyField w
  let hm := hmOf (hmBit w)
  let rc := rcOf (rcBits w)
  let nx := nxField w
  match (opField w).toNat with
  | 0x00 => some ({}, .nop)
  | 0x01 => some ({}, .keyLoad)
  | 0x02 => some ({}, .nonceLoad)
  | 0x03 => some ({}, .sessionReset)
  | 0x04 => some ({}, .kdf34)
  | 0x05 => some ({}, .kdf35)
  | 0x10 => some ({ ksel := true }, .aesEncBlock ksel)
  | 0x11 => some ({ ksel := true }, .aesDecBlock ksel)
  | 0x12 => some ({}, .pkcs7Pad)
  | 0x13 => some ({ vfy := true }, .pkcs7Unpad vfy)
  | 0x14 => some ({ ksel := true }, .ecbEnc ksel)
  | 0x15 => some ({ ksel := true, vfy := true }, .ecbDec ksel vfy)
  | 0x18 => some ({ ksel := true, nx := true }, .gcmEnc ksel nx)
  | 0x19 => some ({ ksel := true, nx := true }, .gcmDec ksel nx)
  | 0x20 => some ({}, .crc32)
  | 0x21 => some ({ ksel := true }, .hmacSha256 ksel)
  | 0x22 => some ({ ksel := true }, .hmacVerify ksel)
  | 0x30 => some ({}, .frameScan)
  | 0x31 => some ({ ksel := true, hm := true, rc := true }, .pack55 ksel hm rc)
  | 0x32 => some ({ ksel := true, hm := true, rc := true }, .unpack55 ksel hm rc)
  | 0x33 => some ({ ksel := true, rc := true }, .pack66 ksel rc)
  | 0x34 => some ({ ksel := true, rc := true }, .unpack66 ksel rc)
  | 0x40 => some ({}, .msgEncode)
  | 0x41 => some ({ vfy := true, rc := true }, .msgDecode vfy rc)
  | _ => none

/-- `Decode(w)` (R97): total, and every illegal word is refused by name. -/
def decode (w : Word) : Except DecodeRefusal Instr :=
  match opcodeRow w with
  | none => .error .unassignedOp
  | some (takes, i) =>
    if reservedBits w ≠ 0 then .error .reservedBits
    else if takes.ksel = false ∧ kselBits w ≠ 0 then .error .untakenKsel
    else if takes.vfy = false ∧ vfyField w = true then .error .untakenVfy
    else if takes.hm = false ∧ hmBit w = true then .error .untakenHm
    else if takes.rc = false ∧ rcBits w ≠ 0 then .error .untakenRc
    else if takes.nx = false ∧ nxField w = true then .error .untakenNx
    else if takes.ksel = true ∧ kselBits w = 3 then .error .reservedKsel
    else if takes.rc = true ∧ rcBits w = 3 then .error .reservedRc
    else .ok i

/-- The decoder's answer for a row of spec/opcode_table.json given as a number of `nbits` bits, the bits
above them zero: a command is one 32-bit word (R101). -/
def decodeTableWord (nbits w : Nat) : Option Instr :=
  if w % 2 ^ nbits < 2 ^ 32 then (decode (BitVec.ofNat 32 (w % 2 ^ nbits))).toOption else none

/-- The KSEL bits (R92). -/
def Ksel.bits : Ksel → BitVec 2
  | .localKey => 0
  | .sessionKey => 1
  | .udpKey => 2
  | .reserved => 3

/-- The HM bit (R94). -/
def TrailerKind.bit : TrailerKind → Bool
  | .crc => false
  | .hmac => true

/-- The RC bits (R95). -/
def RcMode.bits : RcMode → BitVec 2
  | .auto => 0
  | .absent => 1
  | .present => 2
  | .reserved => 3

/-- A command word from its fields, bit 31 first, the reserved bits zero (R90). -/
def commandWord (op : BitVec 8) (ksel : BitVec 2 := 0) (vfy : Bool := false) (hm : Bool := false)
    (rc : BitVec 2 := 0) (nx : Bool := false) : Word :=
  0#17 ++ BitVec.ofBool nx ++ rc ++ BitVec.ofBool hm ++ BitVec.ofBool vfy ++ ksel ++ op

/-- The command word of a command, every field it does not take zero (R90, R91). -/
def encode : Instr → Word
  | .nop => commandWord 0x00
  | .keyLoad => commandWord 0x01
  | .nonceLoad => commandWord 0x02
  | .sessionReset => commandWord 0x03
  | .kdf34 => commandWord 0x04
  | .kdf35 => commandWord 0x05
  | .aesEncBlock ksel => commandWord 0x10 (ksel := ksel.bits)
  | .aesDecBlock ksel => commandWord 0x11 (ksel := ksel.bits)
  | .pkcs7Pad => commandWord 0x12
  | .pkcs7Unpad vfy => commandWord 0x13 (vfy := vfy)
  | .ecbEnc ksel => commandWord 0x14 (ksel := ksel.bits)
  | .ecbDec ksel vfy => commandWord 0x15 (ksel := ksel.bits) (vfy := vfy)
  | .gcmEnc ksel nx => commandWord 0x18 (ksel := ksel.bits) (nx := nx)
  | .gcmDec ksel nx => commandWord 0x19 (ksel := ksel.bits) (nx := nx)
  | .crc32 => commandWord 0x20
  | .hmacSha256 ksel => commandWord 0x21 (ksel := ksel.bits)
  | .hmacVerify ksel => commandWord 0x22 (ksel := ksel.bits)
  | .frameScan => commandWord 0x30
  | .pack55 ksel hm rc => commandWord 0x31 (ksel := ksel.bits) (hm := hm.bit) (rc := rc.bits)
  | .unpack55 ksel hm rc => commandWord 0x32 (ksel := ksel.bits) (hm := hm.bit) (rc := rc.bits)
  | .pack66 ksel rc => commandWord 0x33 (ksel := ksel.bits) (rc := rc.bits)
  | .unpack66 ksel rc => commandWord 0x34 (ksel := ksel.bits) (rc := rc.bits)
  | .msgEncode => commandWord 0x40
  | .msgDecode vfy rc => commandWord 0x41 (vfy := vfy) (rc := rc.bits)

/-- A row of spec/opcode_table.json: the bits under the mask hold the match value (R98). -/
structure OpcodeEntry where
  mnemonic : String
  matchBits : Word
  mask : Word
deriving DecidableEq, Repr

/-- spec/opcode_table.json, row by row. -/
def opcodeTable : List OpcodeEntry :=
  [⟨"NOP", 0x00, 0xFFFFFFFF⟩, ⟨"KEY_LOAD", 0x01, 0xFFFFFFFF⟩, ⟨"NONCE_LOAD", 0x02, 0xFFFFFFFF⟩,
   ⟨"SESSION_RESET", 0x03, 0xFFFFFFFF⟩, ⟨"KDF34", 0x04, 0xFFFFFFFF⟩, ⟨"KDF35", 0x05, 0xFFFFFFFF⟩,
   ⟨"AES_ENC_BLOCK", 0x10, 0xFFFFFCFF⟩, ⟨"AES_DEC_BLOCK", 0x11, 0xFFFFFCFF⟩,
   ⟨"PKCS7_PAD", 0x12, 0xFFFFFFFF⟩, ⟨"PKCS7_UNPAD", 0x13, 0xFFFFFBFF⟩, ⟨"ECB_ENC", 0x14, 0xFFFFFCFF⟩,
   ⟨"ECB_DEC", 0x15, 0xFFFFF8FF⟩, ⟨"GCM_ENC", 0x18, 0xFFFFBCFF⟩, ⟨"GCM_DEC", 0x19, 0xFFFFBCFF⟩,
   ⟨"CRC32", 0x20, 0xFFFFFFFF⟩, ⟨"HMAC_SHA256", 0x21, 0xFFFFFCFF⟩, ⟨"HMAC_VERIFY", 0x22, 0xFFFFFCFF⟩,
   ⟨"FRAME_SCAN", 0x30, 0xFFFFFFFF⟩, ⟨"PACK55", 0x31, 0xFFFFC4FF⟩, ⟨"UNPACK55", 0x32, 0xFFFFC4FF⟩,
   ⟨"PACK66", 0x33, 0xFFFFCCFF⟩, ⟨"UNPACK66", 0x34, 0xFFFFCCFF⟩, ⟨"MSG_ENCODE", 0x40, 0xFFFFFFFF⟩,
   ⟨"MSG_DECODE", 0x41, 0xFFFFCBFF⟩]

/-- R98: the word matches the row, and neither KSEL = 11 nor RC = 11 stands in bits the row leaves free. -/
def OpcodeEntry.admits (e : OpcodeEntry) (w : Word) : Bool :=
  w &&& e.mask == e.matchBits
    && !(kselBits e.mask == 0 && kselBits w == 3)
    && !(rcBits e.mask == 0 && rcBits w == 3)

end Sys2Proof
end

