-- ==== Sys2Proof/Machine/Operands.lean ====
section
/-!
DEFINITION. The operands of commands: IN and AD (spec/00_scope.md R12, 10_state.md R39), the working key
(R46), the retcode a packer emits (30_encoding.md R95), and the order in which every command runs:
legality, operand range, operand reads, the command's own rule, commit (60_exceptions.md R403).
-/

namespace Sys2Proof.Machine

/-- KEY_UDP, the hardwired broadcast key (10_state.md R45). -/
def keyUdp : Bytes :=
  [0x6C, 0x1E, 0xC8, 0xE2, 0xBB, 0x9B, 0xB5, 0x9A, 0xB5, 0x0B, 0x0D, 0xAF, 0x64, 0x9B, 0x41, 0x0A]

/-- `IN`: the first IBUF_LEN bytes of IBUF (R12). -/
def State.inBytes (s : State) : Bytes := s.readString .ibuf s.ibufLen.toNat

/-- The state after a command has read IN. -/
def State.afterIn (s : State) : State := s.noteRead .ibuf s.ibufLen.toNat

/-- `AD`: the first ABUF_LEN bytes of ABUF (R12). -/
def State.adBytes (s : State) : Bytes := s.readString .abuf s.abufLen.toNat

/-- The state after a command has read AD. -/
def State.afterAd (s : State) : State := s.noteRead .abuf s.abufLen.toNat

/-- `WK(ksel)` (10_state.md R46). KSEL = 11 is refused at decode (30_encoding.md R97). -/
def workingKey (s : State) : Ksel → Except ErrCode Bytes
  | .localKey => if s.keyValid then .ok s.keyLocal else .error .keyUnset
  | .sessionKey =>
    if s.negotiated then .ok s.keySession else if s.keyValid then .ok s.keyLocal else .error .keyUnset
  | .udpKey => .ok keyUdp
  | .reserved => .error .illegalCmd

/-- The retcode string a packer emits: `be32(RETCODE_IN)` in mode present, else nothing (30_encoding.md
R95). -/
def retcodeOperand (s : State) (rc : RcMode) : Bytes := if rc = .present then be32 s.retcodeIn else []

/-- The outcomes of TCF's steps. -/
abbrev Result := Host.Outcome State Fault Refusal

/-- A command that reads neither IN nor AD. An ill-formed command ends with ERR_ILLEGAL_CMD, as its word
does at decode (R97). -/
def command (i : Instr) (s : State) (body : State → Except ErrCode Done) : Result :=
  if i.wellFormed = false then .next (s.fail .illegalCmd) else .next (s.finish (body s))

/-- A command that reads IN: ERR_BUF_RANGE before any byte is read (10_state.md R39), then the read, then
the command's own rule on the bytes and the state after the read. -/
def commandIn (i : Instr) (s : State) (body : Bytes → State → Except ErrCode Done) : Result :=
  if i.wellFormed = false then .next (s.fail .illegalCmd)
  else if s.cap < s.ibufLen.toNat then .next (s.fail .bufRange)
  else .next (s.afterIn.finish (body s.inBytes s.afterIn))

/-- A command that reads IN and then AD. -/
def commandInAd (i : Instr) (s : State) (body : Bytes → Bytes → State → Except ErrCode Done) : Result :=
  if i.wellFormed = false then .next (s.fail .illegalCmd)
  else if s.cap < s.ibufLen.toNat ∨ s.cap < s.abufLen.toNat then .next (s.fail .bufRange)
  else .next (s.afterIn.afterAd.finish (body s.inBytes s.afterIn.adBytes s.afterIn.afterAd))

end Sys2Proof.Machine
end

