-- ==== Sys2Proof/Machine/Cipher.lean ====
section
/-!
DEFINITION. The cipher commands: AES blocks, PKCS#7 and ECB (spec/41_aes_ecb.md R190 to R195) and
AES-128-GCM (42_gcm.md R230, R231).
-/

namespace Sys2Proof.Machine

/-- `emit(v)` as the end of a rule. -/
def emitted (s : State) (v : Bytes) : Except ErrCode Done := .ok { state := s.emit v }

/-- `emit(v)` behind the output check (60_exceptions.md R403, step 8). -/
def emittedChecked (s : State) (v : Bytes) : Except ErrCode Done := do
  require (v.length ≤ s.cap) .bufRange
  emitted s v

/-- What AES_ENC_BLOCK and AES_DEC_BLOCK share (R190, R191). -/
def blockCommand (ksel : Ksel) (f : Bytes → Bytes → Bytes) (inp : Bytes) (s : State) : Except ErrCode Done := do
  let k ← workingKey s ksel
  require (inp.length = 16) .operandLen
  emitted s (f k inp)

/-- AES_ENC_BLOCK (R190). -/
def execAesEncBlock (ksel : Ksel) (s : State) : Result :=
  commandIn (.aesEncBlock ksel) s (blockCommand ksel aesEnc)

/-- AES_DEC_BLOCK (R191). -/
def execAesDecBlock (ksel : Ksel) (s : State) : Result :=
  commandIn (.aesDecBlock ksel) s (blockCommand ksel aesDec)

/-- PKCS7_PAD (R192). -/
def execPkcs7Pad (s : State) : Result := commandIn .pkcs7Pad s fun inp s => emittedChecked s (pad inp)

/-- PKCS7_UNPAD (R193). -/
def execPkcs7Unpad (vfy : Bool) (s : State) : Result :=
  commandIn (.pkcs7Unpad vfy) s fun inp s => do
    let m ← unpad inp vfy
    emitted s m

/-- ECB_ENC (R194). -/
def execEcbEnc (ksel : Ksel) (s : State) : Result :=
  commandIn (.ecbEnc ksel) s fun inp s => do
    let k ← workingKey s ksel
    emittedChecked s (ecbEnc k inp)

/-- ECB_DEC (R195). -/
def execEcbDec (ksel : Ksel) (vfy : Bool) (s : State) : Result :=
  commandIn (.ecbDec ksel vfy) s fun inp s => do
    let k ← workingKey s ksel
    let m ← ecbDec k inp vfy
    emitted s m

/-- The output of GCM_ENC (R230, 30_encoding.md R96). -/
def gcmOutput (nx : Bool) (iv : Bytes) (ct : Bytes × Bytes) : Bytes :=
  if nx then iv ++ ct.1 ++ ct.2 else ct.1 ++ ct.2

/-- GCM_ENC (R230): NONCE is consumed and logged. -/
def execGcmEnc (ksel : Ksel) (nx : Bool) (s : State) : Result :=
  commandInAd (.gcmEnc ksel nx) s fun p a s => do
    let k ← workingKey s ksel
    require (s.nonceValid = true) .nonceUnset
    let out := gcmOutput nx s.nonce (gcmAE k s.nonce p a)
    require (out.length ≤ s.cap) .bufRange
    .ok { state := (s.emit out).useNonce k }

/-- The nonce, ciphertext and tag GCM_DEC takes from IN and NONCE (R231, 30_encoding.md R96). -/
def gcmParts (s : State) (nx : Bool) (inp : Bytes) : Except ErrCode (Bytes × Bytes × Bytes) :=
  let n := inp.length
  if nx then
    if n < 28 then .error .operandLen
    else .ok (slice inp 0 12, slice inp 12 (n - 16), slice inp (n - 16) n)
  else if s.nonceValid = false then .error .nonceUnset
  else if n < 16 then .error .operandLen
  else .ok (s.nonce, slice inp 0 (n - 16), slice inp (n - 16) n)

/-- `GCM_AD` with FAIL raised as ERR_TAG_MISMATCH (R231). -/
def gcmOpen (k iv c t a : Bytes) : Except ErrCode Bytes :=
  match gcmAD k iv c t a with
  | none => .error .tagMismatch
  | some p => .ok p

/-- GCM_DEC (R231): NONCE_VALID and NLOG are not changed. -/
def execGcmDec (ksel : Ksel) (nx : Bool) (s : State) : Result :=
  commandInAd (.gcmDec ksel nx) s fun inp a s => do
    let k ← workingKey s ksel
    let parts ← gcmParts s nx inp
    let p ← gcmOpen k parts.1 parts.2.1 parts.2.2 a
    emitted s p

end Sys2Proof.Machine
end

