-- ==== Sys2Proof/Machine/Hash.lean ====
section
/-!
DEFINITION. SHA-256, HMAC-SHA-256 and CRC-32: spec/43_hmac_crc.md R250 to R255.
-/

namespace Sys2Proof.Machine

/-- The round constants `K[0..63]` (R250). -/
def shaK : List Word :=
  [0x428A2F98, 0x71374491, 0xB5C0FBCF, 0xE9B5DBA5, 0x3956C25B, 0x59F111F1, 0x923F82A4, 0xAB1C5ED5,
   0xD807AA98, 0x12835B01, 0x243185BE, 0x550C7DC3, 0x72BE5D74, 0x80DEB1FE, 0x9BDC06A7, 0xC19BF174,
   0xE49B69C1, 0xEFBE4786, 0x0FC19DC6, 0x240CA1CC, 0x2DE92C6F, 0x4A7484AA, 0x5CB0A9DC, 0x76F988DA,
   0x983E5152, 0xA831C66D, 0xB00327C8, 0xBF597FC7, 0xC6E00BF3, 0xD5A79147, 0x06CA6351, 0x14292967] ++
  [0x27B70A85, 0x2E1B2138, 0x4D2C6DFC, 0x53380D13, 0x650A7354, 0x766A0ABB, 0x81C2C92E, 0x92722C85,
   0xA2BFE8A1, 0xA81A664B, 0xC24B8B70, 0xC76C51A3, 0xD192E819, 0xD6990624, 0xF40E3585, 0x106AA070,
   0x19A4C116, 0x1E376C08, 0x2748774C, 0x34B0BCB5, 0x391C0CB3, 0x4ED8AA4A, 0x5B9CCA4F, 0x682E6FF3,
   0x748F82EE, 0x78A5636F, 0x84C87814, 0x8CC70208, 0x90BEFFFA, 0xA4506CEB, 0xBEF9A3F7, 0xC67178F2]

/-- The eight working words of SHA-256, `a .. h` of R251 (`hh` there is `h` here). -/
structure ShaWords where
  a : Word
  b : Word
  c : Word
  d : Word
  e : Word
  f : Word
  g : Word
  h : Word
deriving DecidableEq, Repr

/-- The initial hash value `H0[0..7]` (R250). -/
def shaH0 : ShaWords :=
  ⟨0x6A09E667, 0xBB67AE85, 0x3C6EF372, 0xA54FF53A, 0x510E527F, 0x9B05688C, 0x1F83D9AB, 0x5BE0CD19⟩

/-- `σ0` (R251). -/
def smallSigma0 (x : Word) : Word := x.rotateRight 7 ^^^ x.rotateRight 18 ^^^ (x >>> 3)

/-- `σ1` (R251). -/
def smallSigma1 (x : Word) : Word := x.rotateRight 17 ^^^ x.rotateRight 19 ^^^ (x >>> 10)

/-- `Σ0` (R251). -/
def bigSigma0 (x : Word) : Word := x.rotateRight 2 ^^^ x.rotateRight 13 ^^^ x.rotateRight 22

/-- `Σ1` (R251). -/
def bigSigma1 (x : Word) : Word := x.rotateRight 6 ^^^ x.rotateRight 11 ^^^ x.rotateRight 25

/-- `Ch` (R251). -/
def shaCh (x y z : Word) : Word := (x &&& y) ^^^ (~~~x &&& z)

/-- `Maj` (R251). -/
def shaMaj (x y z : Word) : Word := (x &&& y) ^^^ (x &&& z) ^^^ (y &&& z)

/-- `n` more words of the message schedule, on the words so far with the newest first:
`W[t] = σ1(W[t-2]) + W[t-7] + σ0(W[t-15]) + W[t-16]` (R251). -/
def shaExtend : Nat → List Word → List Word
  | 0, ws => ws
  | n + 1, ws =>
    shaExtend n ((smallSigma1 (ws.getD 1 0) + ws.getD 6 0 + smallSigma0 (ws.getD 14 0) + ws.getD 15 0) :: ws)

/-- The message schedule `W[0..63]` of a 64-byte block (R251). -/
def shaSchedule (block : Bytes) : List Word := (shaExtend 48 ((chunks 4 block).map beWord).reverse).reverse

/-- One round, with `K[t]` and `W[t]` (R251). -/
def shaRound (s : ShaWords) (k w : Word) : ShaWords :=
  let t1 := s.h + bigSigma1 s.e + shaCh s.e s.f s.g + k + w
  let t2 := bigSigma0 s.a + shaMaj s.a s.b s.c
  { a := t1 + t2, b := s.a, c := s.b, d := s.c, e := s.d + t1, f := s.e, g := s.f, h := s.g }

/-- All the rounds, over the pairs of `K` and `W` left. -/
def shaRounds : ShaWords → List Word → List Word → ShaWords
  | s, k :: ks, w :: ws => shaRounds (shaRound s k w) ks ws
  | s, _, _ => s

/-- The wordwise sum that ends a block (R251). -/
def shaAdd (x y : ShaWords) : ShaWords :=
  ⟨x.a + y.a, x.b + y.b, x.c + y.c, x.d + y.d, x.e + y.e, x.f + y.f, x.g + y.g, x.h + y.h⟩

/-- One 64-byte block folded into the hash value (R251). -/
def shaBlock (h : ShaWords) (block : Bytes) : ShaWords := shaAdd h (shaRounds h shaK (shaSchedule block))

/-- The padded message `m'`, whose length is a multiple of 64; `(55 - len(m)) mod 64` is written
without a negative number (R251). -/
def shaPad (m : Bytes) : Bytes :=
  m ++ 0x80 :: zeros ((119 - m.length % 64) % 64) ++ be64 (BitVec.ofNat 64 (8 * m.length))

/-- The 32 bytes of a hash value (R251). -/
def shaBytes (h : ShaWords) : Bytes :=
  be32 h.a ++ be32 h.b ++ be32 h.c ++ be32 h.d ++ be32 h.e ++ be32 h.f ++ be32 h.g ++ be32 h.h

/-- `SHA256(m)` (R251). -/
def sha256 (m : Bytes) : Bytes := shaBytes ((chunks 64 (shaPad m)).foldl shaBlock shaH0)

/-- `HMAC(k, m)` for a key of at most 64 bytes (R252). -/
def hmac (k m : Bytes) : Bytes :=
  let k0 := k ++ zeros (64 - k.length)
  sha256 (xorBytes k0 (rep 0x5C 64) ++ sha256 (xorBytes k0 (rep 0x36 64) ++ m))

/-- One shift of the CRC register (R253). -/
def crcShift (c : Word) : Word := if c.getLsbD 0 then (c >>> 1) ^^^ 0xEDB88320#32 else c >>> 1

/-- `n` shifts. -/
def crcShifts : Nat → Word → Word
  | 0, c => c
  | n + 1, c => crcShifts n (crcShift c)

/-- One message byte into the CRC register (R253). -/
def crcByte (c : Word) (v : Byte) : Word := crcShifts 8 (c ^^^ v.setWidth 32)

/-- `CRC32(m)` (R253). -/
def crc32 (m : Bytes) : Word := m.foldl crcByte 0xFFFFFFFF#32 ^^^ 0xFFFFFFFF#32

end Sys2Proof.Machine
end

