-- ==== Sys2Proof/Machine/Check.lean ====
section
/-!
DEFINITION. The check commands: CRC32, HMAC_SHA256 and HMAC_VERIFY (spec/43_hmac_crc.md R270 to R272).
-/

namespace Sys2Proof.Machine

/-- CRC32 (R270). -/
def execCrc32 (s : State) : Result :=
  commandIn .crc32 s fun inp s => emitted { s with rCrc := crc32 inp } (be32 (crc32 inp))

/-- HMAC_SHA256 (R271). -/
def execHmacSha256 (ksel : Ksel) (s : State) : Result :=
  commandIn (.hmacSha256 ksel) s fun inp s => do
    let k ← workingKey s ksel
    emitted s (hmac k inp)

/-- HMAC_VERIFY (R272): the computed MAC is not emitted. -/
def execHmacVerify (ksel : Ksel) (s : State) : Result :=
  commandInAd (.hmacVerify ksel) s fun inp e s => do
    let k ← workingKey s ksel
    require (e.length = 32) .operandLen
    require (hmac k inp = e) .hmacMismatch
    .ok { state := s.clearOutput }

end Sys2Proof.Machine
end

