-- ==== Sys2Proof/Machine/Control.lean ====
section
/-!
DEFINITION. The control, key and nonce commands: spec/40_control.md R140 to R145.
-/

namespace Sys2Proof.Machine

/-- NOP (R140). -/
def execNop (s : State) : Result := command .nop s fun s => .ok { state := s.clearOutput }

/-- KEY_LOAD (R141): padded on the right with 00 or truncated to 16 bytes; any session ends. -/
def execKeyLoad (s : State) : Result :=
  commandIn .keyLoad s fun inp s =>
    .ok { state :=
      { s.clearOutput with
        keyLocal := (inp ++ zeros 16).take 16
        keySrclen := BitVec.ofNat 32 inp.length
        keyValid := true
        negotiated := false
        keySession := zeros 16 } }

/-- NONCE_LOAD (R142): exactly 12 bytes. -/
def execNonceLoad (s : State) : Result :=
  commandIn .nonceLoad s fun inp s => do
    require (inp.length = 12) .operandLen
    .ok { state := { s.clearOutput with nonce := inp, nonceValid := true } }

/-- SESSION_RESET (R143). -/
def execSessionReset (s : State) : Result :=
  command .sessionReset s fun s =>
    .ok { state := { s.clearOutput with negotiated := false, keySession := zeros 16 } }

/-- The new session key in force (R144, R145). -/
def State.negotiate (s : State) (key : Bytes) : State :=
  { s.clearOutput with keySession := key, negotiated := true }

/-- What KDF34 and KDF35 share: the checks, and the derivation from the two nonces of IN (R144, R145). -/
def deriveSession (inp : Bytes) (s : State) (derive : Bytes → Bytes → Bytes) : Except ErrCode Done := do
  require (s.keyValid = true) .keyUnset
  require (inp.length = 32) .operandLen
  .ok { state := s.negotiate (derive (slice inp 0 16) (slice inp 16 32)) }

/-- KDF34 (R144): the session key is `AES_Enc(KEY_LOCAL, cn XOR dn)`. -/
def execKdf34 (s : State) : Result :=
  commandIn .kdf34 s fun inp s => deriveSession inp s fun cn dn => aesEnc s.keyLocal (xorBytes cn dn)

/-- KDF35 (R145): the session key is the GCM ciphertext of `cn XOR dn` under `cn[0..12)`; the tag is
discarded, and NONCE and NLOG are not touched. -/
def execKdf35 (s : State) : Result :=
  commandIn .kdf35 s fun inp s =>
    deriveSession inp s fun cn dn => (gcmAE s.keyLocal (cn.take 12) (xorBytes cn dn) []).1

end Sys2Proof.Machine
end

