-- ==== Sys2Proof/Machine/Frame.lean ====
section
/-!
DEFINITION. The 55AA and 6699 frames: tags and layouts of spec/30_encoding.md R110 to R114, and the
builders, parsers, retcode detection and stream scan of 44_frame_codec.md R291 to R305 and R320.
-/

namespace Sys2Proof.Machine

/-- P55, the 55AA prefix (30_encoding.md R110). -/
def tagP55 : Bytes := [0x00, 0x00, 0x55, 0xAA]

/-- S55, the 55AA suffix (R110). -/
def tagS55 : Bytes := [0x00, 0x00, 0xAA, 0x55]

/-- P66, the 6699 prefix (R110). -/
def tagP66 : Bytes := [0x00, 0x00, 0x66, 0x99]

/-- S66, the 6699 suffix (R110). -/
def tagS66 : Bytes := [0x00, 0x00, 0x99, 0x66]

/-- The trailer of a 55AA frame: HM = 0, or HM = 1 with the key it takes (44_frame_codec.md R292). -/
inductive Trailer where
  | crcTrailer
  | hmacTrailer (key : Bytes)
deriving DecidableEq, Repr

/-- `T(hm)` (R292). -/
def Trailer.size : Trailer → Nat
  | .crcTrailer => 4
  | .hmacTrailer _ => 32

/-- `Trailer55(hm, k, F)` (R292; the CRC goes big-endian, 43_hmac_crc.md R254). -/
def Trailer.bytes : Trailer → Bytes → Bytes
  | .crcTrailer, f => be32 (crc32 f)
  | .hmacTrailer k, f => hmac k f

/-- `PrefixOK(b, P)` (R291): no byte of `b` contradicts the tag. -/
def prefixOK (b tag : Bytes) : Bool := b.take 4 == tag.take (min b.length 4)

/-- The length field of `Build55` (30_encoding.md R112). -/
def length55 (p : Params) (rc pl : Bytes) (tr : Trailer) : Nat := rc.length + pl.length + tr.size + suffix55 p

/-- `Build55` (R293): the frame and the length field. -/
def build55 (p : Params) (seq cmd : Word) (rc pl : Bytes) (tr : Trailer) : Bytes × Nat :=
  let l := length55 p rc pl tr
  let f := tagP55 ++ be32 seq ++ be32 cmd ++ be32Nat l ++ rc ++ pl
  (f ++ tr.bytes f ++ tagS55, l)

/-- What a parser returns (R294, R296). -/
structure Parsed where
  seq : Word
  cmd : Word
  len : Word
  retcode : Word
  present : Bool
  trailerOk : Bool
  payload : Bytes
  total : Nat
deriving DecidableEq, Repr

/-- `Detect55(r, rcm)` (R300). RC = 11 is refused at decode (30_encoding.md R97). -/
def detect55 (r : Bytes) : RcMode → Except ErrCode Bool
  | .absent => .ok false
  | .present => if r.length < 4 then .error .short else .ok true
  | .auto =>
    if r.length = 0 then .ok false
    else if r.getD 0 0 = 0x7B#8 then .ok false
    else if r.length < 4 then .ok false
    else .ok true
  | .reserved => .error .illegalCmd

/-- `Detect66(p, rcm)` (R301). RC = 11 is refused at decode (30_encoding.md R97). -/
def detect66 (p : Bytes) : RcMode → Except ErrCode Bool
  | .absent => .ok false
  | .present => if p.length < 4 then .error .short else .ok true
  | .auto =>
    if 7 ≤ p.length ∧ slice p 4 7 = [0x33, 0x2E, 0x35] then .ok true
    else if 5 ≤ p.length ∧ p.getD 0 0 ≠ 0x7B#8 ∧ p.getD 4 0 = 0x7B#8 then .ok true
    else .ok false
  | .reserved => .error .illegalCmd

/-- The retcode of a region that has one, else 0 (R294, R296). -/
def regionRetcode (present : Bool) (r : Bytes) : Word := if present then beWord (slice r 0 4) else 0

/-- The payload of a region, after its retcode if it has one (R294, R296). -/
def regionPayload (present : Bool) (r : Bytes) : Bytes := if present then r.drop 4 else r

/-- `Parse55` on a frame whose suffix has been found (R294): `total` is its length. -/
def parse55Body (inp : Bytes) (tr : Trailer) (rcm : RcMode) (total : Nat) : Except ErrCode Parsed :=
  let e := total - 4 - tr.size
  let r := slice inp 16 e
  match detect55 r rcm with
  | .error x => .error x
  | .ok present =>
    .ok { seq := beWord (slice inp 4 8)
          cmd := beWord (slice inp 8 12)
          len := beWord (slice inp 12 16)
          retcode := regionRetcode present r
          present := present
          trailerOk := decide (tr.bytes (inp.take e) = slice inp e (total - 4))
          payload := regionPayload present r
          total := total }

/-- `Parse55` (R294). -/
def parse55 (p : Params) (inp : Bytes) (tr : Trailer) (rcm : RcMode) : Except ErrCode Parsed :=
  if prefixOK inp tagP55 = false then .error .noPrefix
  else if inp.length < 16 then .error .short
  else
    let l := (beWord (slice inp 12 16)).toNat
    if maxLen p < l then .error .tooLong
    else if l < tr.size + suffix55 p then .error .short
    else
      let total := 16 + (l - suffix55 p) + 4
      if inp.length < total then .error .short
      else if slice inp (total - 4) total ≠ tagS55 then .error .badSuffix
      else parse55Body inp tr rcm total

/-- The length field of `Build66` (30_encoding.md R114). -/
def length66 (p : Params) (rc pl : Bytes) : Nat := pl.length + 12 + 16 + rc.length + suffix66 p

/-- `Build66` (R295): the frame and the length field. The additional data is the header's bytes 4 to 17. -/
def build66 (p : Params) (seq cmd : Word) (rc pl k iv : Bytes) : Bytes × Nat :=
  let l := length66 p rc pl
  let h := tagP66 ++ [0, 0] ++ be32 seq ++ be32 cmd ++ be32Nat l
  let ct := gcmAE k iv (rc ++ pl) (slice h 4 18)
  (h ++ iv ++ ct.1 ++ ct.2 ++ tagS66, l)

/-- `Parse66` on a frame whose suffix has been found (R296): `total` is its length. -/
def parse66Body (inp k : Bytes) (rcm : RcMode) (total : Nat) : Except ErrCode Parsed :=
  match gcmAD k (slice inp 18 30) (slice inp 30 (total - 20)) (slice inp (total - 20) (total - 4))
      (slice inp 4 18) with
  | none => .error .tagMismatch
  | some p =>
    match detect66 p rcm with
    | .error x => .error x
    | .ok present =>
      .ok { seq := beWord (slice inp 6 10)
            cmd := beWord (slice inp 10 14)
            len := beWord (slice inp 14 18)
            retcode := regionRetcode present p
            present := present
            trailerOk := true
            payload := regionPayload present p
            total := total }

/-- `Parse66` (R296). -/
def parse66 (p : Params) (inp k : Bytes) (rcm : RcMode) : Except ErrCode Parsed :=
  if prefixOK inp tagP66 = false then .error .noPrefix
  else if inp.length < 18 then .error .short
  else
    let l := (beWord (slice inp 14 18)).toNat
    if maxLen p < l then .error .tooLong
    else if l < 28 + suffix66 p then .error .short
    else
      let total := 18 + (l - suffix66 p) + 4
      if inp.length < total then .error .short
      else if slice inp (total - 4) total ≠ tagS66 then .error .badSuffix
      else parse66Body inp k rcm total

/-! ### The stream scan (R320) -/

/-- The least index of a prefix tag in the string, and whether the tag is P66; `i` counts the bytes
before `b`. -/
def findTag (i : Nat) : Bytes → Option (Nat × Bool)
  | [] => none
  | v :: rest =>
    if (v :: rest).take 4 = tagP55 then some (i, false)
    else if (v :: rest).take 4 = tagP66 then some (i, true)
    else findTag (i + 1) rest

/-- The string is a proper prefix, of 0 to 3 bytes, of a prefix tag. -/
def partialTag (b : Bytes) : Bool := b.length < 4 && (b.isPrefixOf tagP55 || b.isPrefixOf tagP66)

/-- The least index from which the rest of the string is a proper prefix of a tag; `i` counts the bytes
before `b`. -/
def findPartialTag (i : Nat) : Bytes → Nat
  | [] => i
  | v :: rest => if partialTag (v :: rest) then i else findPartialTag (i + 1) rest

/-- What FRAME_SCAN reports. -/
structure Scan where
  offset : Nat
  frameLen : Nat
  incomplete : Bool
  is66 : Bool
deriving DecidableEq, Repr

/-- The header length of a layout: 18 for 6699, 16 for 55AA (00_scope.md R17). -/
def headerSize (is66 : Bool) : Nat := if is66 then 18 else 16

/-- The suffix bytes counted in a layout's length field (00_scope.md R8). -/
def suffixOf (p : Params) (is66 : Bool) : Nat := if is66 then suffix66 p else suffix55 p

/-- The computation of FRAME_SCAN (R320). -/
def scanFrame (p : Params) (b : Bytes) : Except ErrCode Scan :=
  match findTag 0 b with
  | none => .ok { offset := findPartialTag 0 b, frameLen := 0, incomplete := true, is66 := false }
  | some (i, is66) =>
    let h := headerSize is66
    if b.length - i < h then .ok { offset := i, frameLen := 0, incomplete := true, is66 := is66 }
    else
      let l := (beWord (slice b (i + h - 4) (i + h))).toNat
      if maxLen p < l then .error .tooLong
      else if l < (if is66 then 28 else 4) + suffixOf p is66 then .error .short
      else
        let fl := h + (l - suffixOf p is66) + 4
        .ok { offset := i, frameLen := fl, incomplete := decide (b.length - i < fl), is66 := is66 }

end Sys2Proof.Machine
end

