-- ==== Sys2Proof/Machine/FrameCommands.lean ====
section
/-!
DEFINITION. The frame commands: FRAME_SCAN, PACK55, UNPACK55, PACK66 and UNPACK66 (spec/44_frame_codec.md
R320 to R324).
-/

namespace Sys2Proof.Machine

/-- FRAME_SCAN (R320). R_FRAMELEN is a free value where the declared length does not fit 32 bits
(assumption 5). -/
def execFrameScan (s : State) : Result :=
  commandIn .frameScan s fun b s => do
    let r ← scanFrame s.params b
    .ok { state :=
            { s.clearOutput with
              rOffset := BitVec.ofNat 32 r.offset
              rFramelen := s.regValue r.frameLen
              draws := s.regDraws r.frameLen }
          flags := { incomplete := r.incomplete, is6699 := r.is66 } }

/-- The trailer of HM, under `WK(KSEL)` when HM = 1; KSEL is unused when HM = 0 (R321, R322). -/
def trailerOperand (s : State) (ksel : Ksel) : TrailerKind → Except ErrCode Trailer
  | .crc => .ok .crcTrailer
  | .hmac => do
    let k ← workingKey s ksel
    .ok (.hmacTrailer k)

/-- The results of a packer: the frame, R_LEN and R_FRAMELEN (R321, R323, 45_message_pipeline.md R370). -/
def State.packed (s : State) (f : Bytes × Nat) : State :=
  { s.emit f.1 with rLen := BitVec.ofNat 32 f.2, rFramelen := BitVec.ofNat 32 f.1.length }

/-- The results of an unpacker: `out` in OBUF, and the frame's fields (R322, R324, 45_message_pipeline.md
R371). -/
def State.unpacked (s : State) (f : Parsed) (out : Bytes) : State :=
  { s.emit out with
    rSeq := f.seq
    rCmd := f.cmd
    rLen := f.len
    rRetcode := f.retcode
    rFramelen := BitVec.ofNat 32 f.total }

/-- PACK55 (R321). -/
def execPack55 (ksel : Ksel) (hm : TrailerKind) (rc : RcMode) (s : State) : Result :=
  commandIn (.pack55 ksel hm rc) s fun pl s => do
    let tr ← trailerOperand s ksel hm
    let f := build55 s.params s.seqIn s.cmdIn (retcodeOperand s rc) pl tr
    require (f.1.length ≤ s.cap) .bufRange
    .ok { state := s.packed f }

/-- UNPACK55 (R322). -/
def execUnpack55 (ksel : Ksel) (hm : TrailerKind) (rc : RcMode) (s : State) : Result :=
  commandIn (.unpack55 ksel hm rc) s fun inp s => do
    let tr ← trailerOperand s ksel hm
    let f ← parse55 s.params inp tr rc
    .ok { state := s.unpacked f f.payload
          flags := { trailerOk := f.trailerOk, rcPresent := f.present } }

/-- PACK66 (R323): NONCE is consumed and logged. -/
def execPack66 (ksel : Ksel) (rc : RcMode) (s : State) : Result :=
  commandIn (.pack66 ksel rc) s fun pl s => do
    let k ← workingKey s ksel
    require (s.nonceValid = true) .nonceUnset
    let f := build66 s.params s.seqIn s.cmdIn (retcodeOperand s rc) pl k s.nonce
    require (f.1.length ≤ s.cap) .bufRange
    .ok { state := (s.packed f).useNonce k, flags := { is6699 := true } }

/-- UNPACK66 (R324): the frame's nonce is neither loaded nor logged. -/
def execUnpack66 (ksel : Ksel) (rc : RcMode) (s : State) : Result :=
  commandIn (.unpack66 ksel rc) s fun inp s => do
    let k ← workingKey s ksel
    let f ← parse66 s.params inp k rc
    .ok { state := s.unpacked f f.payload
          flags := { trailerOk := f.trailerOk, rcPresent := f.present, is6699 := true } }

end Sys2Proof.Machine
end

