-- ==== Sys2Proof/Machine/Pipeline.lean ====
section
/-!
DEFINITION. The per-version message pipeline: spec/45_message_pipeline.md R350 to R357, with the version
strings of 10_state.md R36 and the header-exempt set of 30_encoding.md R115 and R117.
-/

namespace Sys2Proof.Machine

/-- `VS(VER)` for the legal protocol codes (10_state.md R36). -/
def versionString (ver : BitVec 8) : Option Bytes :=
  if ver = 0x31 then some [0x33, 0x2E, 0x31]
  else if ver = 0x33 then some [0x33, 0x2E, 0x33]
  else if ver = 0x34 then some [0x33, 0x2E, 0x34]
  else if ver = 0x35 then some [0x33, 0x2E, 0x35]
  else none

/-- The versions the pipeline accepts (R350). -/
inductive PipeVersion where
  | v33
  | v34
  | v35
deriving DecidableEq, Repr

/-- The pipeline of a VER value; `none` raises ERR_CONFIG (R350). -/
def pipeVersion (ver : BitVec 8) : Option PipeVersion :=
  if ver = 0x33 then some .v33
  else if ver = 0x34 then some .v34
  else if ver = 0x35 then some .v35
  else none

/-- The VER value of a pipeline. -/
def PipeVersion.code : PipeVersion → BitVec 8
  | .v33 => 0x33
  | .v34 => 0x34
  | .v35 => 0x35

/-- `VS` of a pipeline's version (10_state.md R36). -/
def PipeVersion.string (v : PipeVersion) : Bytes := (versionString v.code).getD []

/-- `VH(VER)`: 15 bytes (30_encoding.md R115). -/
def PipeVersion.header (v : PipeVersion) : Bytes := v.string ++ zeros 12

/-- `ex(cmd)`: the command code is header-exempt (R351, 30_encoding.md R117). -/
def exempt (cmd : Word) : Bool := [9, 10, 16, 18, 3, 4, 5, 64].contains cmd.toNat

/-- The payload with the version header before it, unless the command code is exempt (R351). -/
def withHeader (v : PipeVersion) (cmd : Word) (q : Bytes) : Bytes := if exempt cmd then q else v.header ++ q

/-- `IsEmpty(q)` (R354). -/
def isEmptyPayload (q : Bytes) : Bool := q.all (· == 0)

/-- `StripVH(d)` (R355): the rest, and whether a version header stood there. -/
def stripHeader (v : PipeVersion) (d : Bytes) : Bytes × Bool :=
  if 15 ≤ d.length ∧ slice d 0 3 = v.string then (d.drop 15, true) else (d, false)

/-- `Encode(pt, k)` (R356): the frame and its length field. -/
def encodeMessage (p : Params) (v : PipeVersion) (seq cmd : Word) (pt k nonce : Bytes) : Bytes × Nat :=
  match v with
  | .v33 => build55 p seq cmd [] (withHeader v cmd (ecbEnc k pt)) .crcTrailer
  | .v34 => build55 p seq cmd [] (ecbEnc k (withHeader v cmd pt)) (.hmacTrailer k)
  | .v35 => build66 p seq cmd [] (withHeader v cmd pt) k nonce

/-- What `Decode` returns (R357). -/
structure Decoded where
  frame : Parsed
  data : Bytes
  vh : Bool
  empty : Bool
deriving DecidableEq, Repr

/-- The rest of `Decode` at 3.3, on the parsed frame: strip from the ciphertext, then decrypt (R357). -/
def decode33 (k : Bytes) (vfy : Bool) (f : Parsed) : Except ErrCode Decoded :=
  if isEmptyPayload f.payload then .ok ⟨f, [], false, true⟩
  else
    let q := stripHeader .v33 f.payload
    if q.1.length = 0 then .ok ⟨f, [], q.2, true⟩
    else
      match ecbDec k q.1 vfy with
      | .error e => .error e
      | .ok d => .ok ⟨f, d, q.2, false⟩

/-- The rest of `Decode` at 3.4: decrypt, then strip (R357). -/
def decode34 (k : Bytes) (vfy : Bool) (f : Parsed) : Except ErrCode Decoded :=
  if isEmptyPayload f.payload then .ok ⟨f, [], false, true⟩
  else
    match ecbDec k f.payload vfy with
    | .error e => .error e
    | .ok d => .ok ⟨f, (stripHeader .v34 d).1, (stripHeader .v34 d).2, false⟩

/-- The rest of `Decode` at 3.5: strip (R357). -/
def decode35 (f : Parsed) : Except ErrCode Decoded :=
  if isEmptyPayload f.payload then .ok ⟨f, [], false, true⟩
  else .ok ⟨f, (stripHeader .v35 f.payload).1, (stripHeader .v35 f.payload).2, false⟩

/-- `Decode(in, k, rcm, vfy)` (R357). -/
def decodeMessage (p : Params) (v : PipeVersion) (inp k : Bytes) (rcm : RcMode) (vfy : Bool) :
    Except ErrCode Decoded :=
  match v with
  | .v33 => (parse55 p inp .crcTrailer rcm).bind (decode33 k vfy)
  | .v34 => (parse55 p inp (.hmacTrailer k) rcm).bind (decode34 k vfy)
  | .v35 => (parse66 p inp k rcm).bind decode35

end Sys2Proof.Machine
end

