-- ==== Sys2Proof/Machine/Message.lean ====
section
/-!
DEFINITION. The pipeline commands MSG_ENCODE and MSG_DECODE (spec/45_message_pipeline.md R370, R371).
-/

namespace Sys2Proof.Machine

/-- The pipeline VERSION selects; any other VER raises ERR_CONFIG (R350). -/
def pipeOperand (s : State) : Except ErrCode PipeVersion :=
  match pipeVersion s.version with
  | none => .error .config
  | some v => .ok v

/-- The key-length configuration check (R353). -/
def keyLengthCheck (s : State) : Except ErrCode Unit :=
  require (¬(s.keyValid = true ∧ s.keySrclen.toNat < 16)) .config

/-- MSG_ENCODE (R370): at 3.5 NONCE is consumed and logged. -/
def execMsgEncode (s : State) : Result :=
  commandIn .msgEncode s fun pt s => do
    let v ← pipeOperand s
    keyLengthCheck s
    let k ← workingKey s .sessionKey
    require (¬(v = .v35 ∧ s.nonceValid = false)) .nonceUnset
    let f := encodeMessage s.params v s.seqIn s.cmdIn pt k s.nonce
    require (f.1.length ≤ s.cap) .bufRange
    if v = .v35 then .ok { state := (s.packed f).useNonce k, flags := { is6699 := true } }
    else .ok { state := s.packed f }

/-- MSG_DECODE (R371). -/
def execMsgDecode (vfy : Bool) (rc : RcMode) (s : State) : Result :=
  commandIn (.msgDecode vfy rc) s fun inp s => do
    let v ← pipeOperand s
    keyLengthCheck s
    let k ← workingKey s .sessionKey
    let d ← decodeMessage s.params v inp k rc vfy
    .ok { state := s.unpacked d.frame d.data
          flags :=
            { trailerOk := d.frame.trailerOk
              rcPresent := d.frame.present
              vhPresent := d.vh
              is6699 := decide (v = .v35)
              empty := d.empty } }

end Sys2Proof.Machine
end

