-- ==== Sys2Proof/Machine/Dispatch.lean ====
section
/-!
DEFINITION. Which meaning each command has: one arm for each row of spec/opcode_table.json.
-/

namespace Sys2Proof.Machine

def exec (i : Instr) (s : State) : Host.Outcome State Fault Refusal :=
  match i with
  | .nop => Sys2Proof.Machine.execNop s
  | .keyLoad => Sys2Proof.Machine.execKeyLoad s
  | .nonceLoad => Sys2Proof.Machine.execNonceLoad s
  | .sessionReset => Sys2Proof.Machine.execSessionReset s
  | .kdf34 => Sys2Proof.Machine.execKdf34 s
  | .kdf35 => Sys2Proof.Machine.execKdf35 s
  | .aesEncBlock ksel => Sys2Proof.Machine.execAesEncBlock ksel s
  | .aesDecBlock ksel => Sys2Proof.Machine.execAesDecBlock ksel s
  | .pkcs7Pad => Sys2Proof.Machine.execPkcs7Pad s
  | .pkcs7Unpad vfy => Sys2Proof.Machine.execPkcs7Unpad vfy s
  | .ecbEnc ksel => Sys2Proof.Machine.execEcbEnc ksel s
  | .ecbDec ksel vfy => Sys2Proof.Machine.execEcbDec ksel vfy s
  | .gcmEnc ksel nx => Sys2Proof.Machine.execGcmEnc ksel nx s
  | .gcmDec ksel nx => Sys2Proof.Machine.execGcmDec ksel nx s
  | .crc32 => Sys2Proof.Machine.execCrc32 s
  | .hmacSha256 ksel => Sys2Proof.Machine.execHmacSha256 ksel s
  | .hmacVerify ksel => Sys2Proof.Machine.execHmacVerify ksel s
  | .frameScan => Sys2Proof.Machine.execFrameScan s
  | .pack55 ksel hm rc => Sys2Proof.Machine.execPack55 ksel hm rc s
  | .unpack55 ksel hm rc => Sys2Proof.Machine.execUnpack55 ksel hm rc s
  | .pack66 ksel rc => Sys2Proof.Machine.execPack66 ksel rc s
  | .unpack66 ksel rc => Sys2Proof.Machine.execUnpack66 ksel rc s
  | .msgEncode => Sys2Proof.Machine.execMsgEncode s
  | .msgDecode vfy rc => Sys2Proof.Machine.execMsgDecode vfy rc s

end Sys2Proof.Machine
end

