-- ==== Sys2Proof/Machine/HostAccess.lean ====
section
/-!
DEFINITION. What each access from outside does: the register map of spec/10_state.md R31 to R36, the host
primitives of 20_memory.md R70 and R71, the platform's reset (70_reset_and_hazards.md R440, R441), and
the fetch of a command from a write to CMD (10_state.md R32).
-/

namespace Sys2Proof.Machine

/-- The ID register (R31). -/
def idValue : Word := 0x54434601

/-- The CFG register: bit 0 tells LEN55_SUFFIX = 4, bit 1 LEN66_SUFFIX = 4 (R31). -/
def cfgWord (p : Params) : Word :=
  0#30 ++ BitVec.ofBool p.suffix66Counted ++ BitVec.ofBool p.suffix55Counted

/-- `HostRegRead(n)`: `x[n]` (R31); registers 0x14 to 0xFF read 0. -/
def regRead (s : State) (n : BitVec 8) : Word :=
  match n.toNat with
  | 0x00 => s.cmd
  | 0x01 => s.status
  | 0x02 => s.version.setWidth 32
  | 0x03 => s.seqIn
  | 0x04 => s.cmdIn
  | 0x05 => s.retcodeIn
  | 0x06 => s.rSeq
  | 0x07 => s.rCmd
  | 0x08 => s.rRetcode
  | 0x09 => s.rLen
  | 0x0A => s.rOffset
  | 0x0B => s.rFramelen
  | 0x0C => s.rCrc
  | 0x0D => s.ibufLen
  | 0x0E => s.abufLen
  | 0x0F => s.obufLen
  | 0x10 => idValue
  | 0x11 => cfgWord s.params
  | 0x12 => s.params.maxLen
  | 0x13 => s.params.bufCap
  | _ => 0

/-- `HostRegWrite(n, v)` but for its command (R31, R71): CMD and the RW registers store the value, VERSION
its low byte; RO and reserved registers ignore it. -/
def regWrite (s : State) (n : BitVec 8) (v : Word) : State :=
  match n.toNat with
  | 0x00 => { s with cmd := v }
  | 0x02 => { s with version := v.setWidth 8 }
  | 0x03 => { s with seqIn := v }
  | 0x04 => { s with cmdIn := v }
  | 0x05 => { s with retcodeIn := v }
  | 0x0D => { s with ibufLen := v }
  | 0x0E => { s with abufLen := v }
  | _ => s

/-- A host read of an IBUF or ABUF byte: the byte the host wrote last, else what the reset left there, the
same at every read (20_memory.md R77, R79; assumption 10). -/
def operandByte (s : State) (a : Nat) : Byte := (s.mem.read a).getD (Config.resetByte s.resets a)

/-- A host read of an OBUF byte: the output's byte below OBUF_LEN, an unconstrained draw from there on
(20_memory.md R73; assumption 3). -/
def outputByte (s : State) (a : Nat) : Byte := (s.mem.read a).getD (Config.freeByte s.draws)

/-- `HostBufRead(a)` (20_memory.md R70, R71): a byte of a buffer, and 0 outside the buffers. -/
def bufRead (s : State) (a : Word) : Byte :=
  match bufferOf s.cap a.toNat with
  | some .ibuf => operandByte s a.toNat
  | some .abuf => operandByte s a.toNat
  | some .obuf => outputByte s a.toNat
  | none => 0

/-- The draws after a host read: one more where it read OBUF past OBUF_LEN. FAULTS does not change: only a
command's read adds UNWRITTEN_READ (10_state.md R51). -/
def bufReadDraws (s : State) (a : Word) : Nat :=
  match bufferOf s.cap a.toNat with
  | some .obuf => if (s.mem.read a.toNat).isSome then s.draws else s.draws + 1
  | some .ibuf => s.draws
  | some .abuf => s.draws
  | none => s.draws

/-- `HostBufWrite(a, v)` (R70, R71): into IBUF or ABUF, marking the byte; ignored elsewhere. -/
def bufWrite (s : State) (a : Word) (v : Byte) : State :=
  match bufferOf s.cap a.toNat with
  | some .ibuf => { s with mem := s.mem.write a.toNat v }
  | some .abuf => { s with mem := s.mem.write a.toNat v }
  | some .obuf => s
  | none => s

/-- The platform's reset (70_reset_and_hazards.md R440): every piece of the spec's state takes its reset
value, the buffers unspecified contents anew (R441); the rest of the model's own fields stands. -/
def platformReset (s : State) : State :=
  { State.resetOf s.params with
    draws := s.draws
    resets := s.resets + 1
    inputs := s.inputs
    replies := s.replies }

/-- A host read's value delivered. -/
def State.reply (s : State) (r : Reply) : State := { s with replies := s.replies ++ [r] }

/-- An access other than a write to CMD, which only stores there. -/
def serve (s : State) : Access → State
  | .regRead n => s.reply (.reg (regRead s n))
  | .regWrite n v => regWrite s n v
  | .bufRead a => { s with draws := bufReadDraws s a }.reply (.byte (bufRead s a))
  | .bufWrite a v => bufWrite s a v
  | .reset => platformReset s

/-- What the next access from outside asks for, with the state in which TCF serves it. -/
inductive Action where
  /-- No access is pending: TCF waits (70_reset_and_hazards.md R442). -/
  | idle
  /-- An access that starts no command, served: the state after it. -/
  | served (t : State)
  /-- A write to CMD whose word decodes: the command, and the state with CMD written (10_state.md R32). -/
  | command (i : Instr) (t : State)
  /-- A write to CMD whose word is illegal (30_encoding.md R97). -/
  | illegal (t : State)
deriving DecidableEq, Repr

/-- The access starts a command with this word. -/
def Access.commandWord : Access → Option Word
  | .regWrite n v => if n = 0 then some v else none
  | .regRead _ | .bufRead _ | .bufWrite _ _ | .reset => none

/-- The next access taken from the pending ones, and a command fetched from it if it writes CMD. -/
def nextAction (s : State) : Action :=
  match s.inputs with
  | [] => .idle
  | a :: rest =>
    let t := serve { s with inputs := rest } a
    match a.commandWord with
    | none => .served t
    | some w =>
      match decode w with
      | .ok i => .command i t
      | .error _ => .illegal t

/-- The write to CMD of a command word of `nbits` bits, the bits above them zero (30_encoding.md R101). -/
def commandAccess (nbits w : Nat) : Access := .regWrite 0x00 (BitVec.ofNat 32 (w % 2 ^ nbits))

end Sys2Proof.Machine
end

