-- ==== Sys2Proof/Machine/Step.lean ====
section
/-!
DEFINITION. One step of TCF: the next access from outside, served as one atomic step (spec/20_memory.md
R76, R79).
-/

namespace Sys2Proof.Machine

/-- One step: an illegal command word ends with ERR_ILLEGAL_CMD (30_encoding.md R97), a legal one runs its
command, and with nothing pending TCF waits in the same state (70_reset_and_hazards.md R442). -/
def step (s : State) : Host.Outcome State Fault Refusal :=
  match nextAction s with
  | .idle => .next s
  | .served t => .next t
  | .command i t => exec i t
  | .illegal t => .next (t.fail .illegalCmd)

/-- The state in which the host's next access writes this command word to CMD: TCF fetches nothing by
itself (10_state.md R48), so that access is where a step finds its command (assumption 1). -/
def State.withFetchWord (s : State) (nbits w : Nat) : State :=
  { s with inputs := commandAccess nbits w :: s.inputs }

end Sys2Proof.Machine
end

