-- ==== Sys2Proof/Safety.lean ====
section
/-!
DEFINITION. The terms statements about TCF use: how a command ends, what a command reads and which key
it takes, the invariant of the machine, the duties of the host (spec/20_memory.md R83) and the relations
between runs that differ in ghost state or in secrets.
-/

namespace Sys2Proof.Machine

/-! ### How a command ends -/

/-- OBUF's specified bytes are exactly `out`, and OBUF_LEN counts them (00_scope.md R12, 20_memory.md R73). -/
def OutputIs (t : State) (out : Bytes) : Prop :=
  t.obufLen.toNat = out.length ∧ ∀ i, i < t.cap → t.mem.read (Buffer.obuf.base + i) = out[i]?

/-- Every byte outside OBUF reads in `t` as in `u`, marked or not. -/
def KeepsOutsideOutput (u t : State) : Prop :=
  ∀ a, Buffer.obuf.holds u.cap a = false → t.mem.read a = u.mem.read a

/-- `t` is `u` after the commit of a command: STATUS says `e` and `f` with the live bits of `u`
(10_state.md R34), the output is `out`, and nothing else differs from `u`, no byte outside OBUF either. -/
def EndsWith (u t : State) (e : ErrCode) (f : ResultFlags) (out : Bytes) : Prop :=
  t = { u with mem := t.mem, obufLen := t.obufLen, status := t.status }
    ∧ t.status = statusWord e f u.keyValid u.nonceValid u.negotiated
    ∧ OutputIs t out
    ∧ KeepsOutsideOutput u t

/-- `exec i s` answers a next state, and that state is `u` after the commit. -/
def Completes (i : Instr) (s u : State) (f : ResultFlags) (out : Bytes) : Prop :=
  ∃ t, exec i s = .next t ∧ EndsWith u t .ok f out

/-- `exec i s` ends with the error `e`, which leaves `u` but for STATUS and OBUF (60_exceptions.md R402). -/
def Raises (i : Instr) (s u : State) (e : ErrCode) : Prop :=
  ∃ t, exec i s = .next t ∧ EndsWith u t e {} []

/-! ### Operands -/

/-- The operand buffers a command reads: none, IN, or IN and AD. -/
inductive Reads where
  | nothing
  | inOnly
  | inAndAd
deriving DecidableEq, Repr

/-- What a command reads (the Operands line of its rule). -/
def readsOf : Instr → Reads
  | .nop | .sessionReset => .nothing
  | .gcmEnc _ _ | .gcmDec _ _ | .hmacVerify _ => .inAndAd
  | .keyLoad | .nonceLoad | .kdf34 | .kdf35 | .aesEncBlock _ | .aesDecBlock _ | .pkcs7Pad | .pkcs7Unpad _
  | .ecbEnc _ | .ecbDec _ _ | .crc32 | .hmacSha256 _ | .frameScan | .pack55 _ _ _ | .unpack55 _ _ _
  | .pack66 _ _ | .unpack66 _ _ | .msgEncode | .msgDecode _ _ => .inOnly

/-- The lengths of the operands a command reads are within BUF_CAP (10_state.md R39). -/
def inRange (i : Instr) (s : State) : Prop :=
  match readsOf i with
  | .nothing => True
  | .inOnly => s.ibufLen.toNat ≤ s.cap
  | .inAndAd => s.ibufLen.toNat ≤ s.cap ∧ s.abufLen.toNat ≤ s.cap

/-- The state after the command's operand reads. -/
def afterReads (i : Instr) (s : State) : State :=
  match readsOf i with
  | .nothing => s
  | .inOnly => s.afterIn
  | .inAndAd => s.afterIn.afterAd

/-- The key selection of a command that needs a working key on every path past its configuration checks
(10_state.md R46; KDF34 and KDF35 take the local key, MSG commands the session key). -/
def keyOf : Instr → Option Ksel
  | .kdf34 | .kdf35 => some .localKey
  | .aesEncBlock k | .aesDecBlock k | .ecbEnc k | .ecbDec k _ | .gcmEnc k _ | .gcmDec k _
  | .hmacSha256 k | .hmacVerify k | .pack55 k .hmac _ | .unpack55 k .hmac _ | .pack66 k _
  | .unpack66 k _ => some k
  | .msgEncode | .msgDecode _ _ => some .sessionKey
  | .nop | .keyLoad | .nonceLoad | .sessionReset | .pkcs7Pad | .pkcs7Unpad _ | .crc32 | .frameScan
  | .pack55 _ .crc _ | .unpack55 _ .crc _ => none

/-- The command is one of the pipeline, which makes the configuration checks (45_message_pipeline.md R350,
R353). -/
def isMessage : Instr → Bool
  | .msgEncode | .msgDecode _ _ => true
  | .nop | .keyLoad | .nonceLoad | .sessionReset | .kdf34 | .kdf35 | .aesEncBlock _ | .aesDecBlock _
  | .pkcs7Pad | .pkcs7Unpad _ | .ecbEnc _ | .ecbDec _ _ | .gcmEnc _ _ | .gcmDec _ _ | .crc32
  | .hmacSha256 _ | .hmacVerify _ | .frameScan | .pack55 _ _ _ | .unpack55 _ _ _ | .pack66 _ _
  | .unpack66 _ _ => false

/-- VERSION and the loaded key's length pass the configuration checks (R350, R353). -/
def configured (s : State) : Prop :=
  (pipeVersion s.version).isSome = true ∧ ¬(s.keyValid = true ∧ s.keySrclen.toNat < 16)

/-- The command needs a loaded nonce: the GCM encryptions, and GCM_DEC with NX = 0 (10_state.md R44;
60_exceptions.md R400, code 0x04). -/
def needsNonce (i : Instr) (s : State) : Bool :=
  match i with
  | .gcmEnc _ _ | .pack66 _ _ => true
  | .gcmDec _ nx => !nx
  | .msgEncode => s.version == 0x35
  | .nop | .keyLoad | .nonceLoad | .sessionReset | .kdf34 | .kdf35 | .aesEncBlock _ | .aesDecBlock _
  | .pkcs7Pad | .pkcs7Unpad _ | .ecbEnc _ | .ecbDec _ _ | .crc32 | .hmacSha256 _ | .hmacVerify _ | .frameScan
  | .pack55 _ _ _ | .unpack55 _ _ _ | .unpack66 _ _ | .msgDecode _ _ => false

/-- An operand has a length the command cannot take, checked before its computation (60_exceptions.md R400,
code 0x06, and R403, step 6). -/
def badLength (i : Instr) (s : State) : Bool :=
  match i with
  | .nonceLoad => s.ibufLen != 12
  | .kdf34 | .kdf35 => s.ibufLen != 32
  | .aesEncBlock _ | .aesDecBlock _ => s.ibufLen != 16
  | .gcmDec _ nx => decide (s.ibufLen.toNat < if nx then 28 else 16)
  | .hmacVerify _ => s.abufLen != 32
  | .nop | .keyLoad | .sessionReset | .pkcs7Pad | .pkcs7Unpad _ | .ecbEnc _ | .ecbDec _ _ | .gcmEnc _ _
  | .crc32 | .hmacSha256 _ | .frameScan | .pack55 _ _ _ | .unpack55 _ _ _ | .pack66 _ _ | .unpack66 _ _
  | .msgEncode | .msgDecode _ _ => false

/-- The steps 1 to 4 of the priority order pass: the command is legal, its operands are in range, the
configuration fits and the key is there (60_exceptions.md R403). -/
structure PassesKey (i : Instr) (s : State) : Prop where
  legal : i.wellFormed = true
  range : inRange i s
  config : isMessage i = true → configured s
  key : ∀ ksel, keyOf i = some ksel → (workingKey s ksel).toOption.isSome = true

/-- The steps 1 to 6 of the priority order pass (60_exceptions.md R403). -/
structure PassesChecks (i : Instr) (s : State) : Prop extends PassesKey i s where
  nonce : needsNonce i s = true → s.nonceValid = true
  lengths : badLength i s = false

/-- The length of a version header before the payload, for the code in CMD_IN (45_message_pipeline.md R351). -/
def headerLength (s : State) : Nat := if exempt s.cmdIn then 0 else 15

/-- The length of a packer's retcode (30_encoding.md R95). -/
def retcodeLength (rc : RcMode) : Nat := if rc = .present then 4 else 0

/-- The trailer length of HM (44_frame_codec.md R292). -/
def trailerLength : TrailerKind → Nat
  | .crc => 4
  | .hmac => 32

/-- The length of a padded string (41_aes_ecb.md R180). -/
def paddedLength (n : Nat) : Nat := 16 * (n / 16 + 1)

/-- The output length of a command that makes the output check (60_exceptions.md R403, step 8), from the
lengths alone (41_aes_ecb.md R180; 42_gcm.md R224; 44_frame_codec.md R293, R295; 45_message_pipeline.md R356). -/
def outputLength (i : Instr) (s : State) : Option Nat :=
  let n := s.ibufLen.toNat
  match i with
  | .pkcs7Pad | .ecbEnc _ => some (paddedLength n)
  | .gcmEnc _ nx => some (n + 16 + if nx then 12 else 0)
  | .pack55 _ hm rc => some (20 + retcodeLength rc + n + trailerLength hm)
  | .pack66 _ rc => some (50 + retcodeLength rc + n)
  | .msgEncode =>
    match pipeVersion s.version with
    | some .v33 => some (20 + headerLength s + paddedLength n + 4)
    | some .v34 => some (20 + paddedLength (headerLength s + n) + 32)
    | some .v35 => some (50 + headerLength s + n)
    | none => none
  | .nop | .keyLoad | .nonceLoad | .sessionReset | .kdf34 | .kdf35 | .aesEncBlock _ | .aesDecBlock _
  | .pkcs7Unpad _ | .ecbDec _ _ | .gcmDec _ _ | .crc32 | .hmacSha256 _ | .hmacVerify _ | .frameScan
  | .unpack55 _ _ _ | .unpack66 _ _ | .msgDecode _ _ => none

/-- The key a command encrypts with under NONCE, if it is one of the three that do (10_state.md R44). -/
def nonceKey (i : Instr) (s : State) : Option Bytes :=
  match i with
  | .gcmEnc k _ | .pack66 k _ => (workingKey s k).toOption
  | .msgEncode => if s.version = 0x35 then (workingKey s .sessionKey).toOption else none
  | .nop | .keyLoad | .nonceLoad | .sessionReset | .kdf34 | .kdf35 | .aesEncBlock _ | .aesDecBlock _
  | .pkcs7Pad | .pkcs7Unpad _ | .ecbEnc _ | .ecbDec _ _ | .gcmDec _ _ | .crc32 | .hmacSha256 _
  | .hmacVerify _ | .frameScan | .pack55 _ _ _ | .unpack55 _ _ _ | .unpack66 _ _ | .msgDecode _ _ => none

/-! ### What a command writes -/

/-- STATUS.ERR (10_state.md R33). -/
def errorField (s : State) : BitVec 8 := s.status.extractLsb' 0 8

/-- The result flags a command's rule names: a flag that is 0 here is 0 after every such command
(10_state.md R34). -/
def flagsNamed : Instr → ResultFlags
  | .frameScan => { incomplete := true, is6699 := true }
  | .unpack55 _ _ _ => { trailerOk := true, rcPresent := true }
  | .pack66 _ _ => { is6699 := true }
  | .unpack66 _ _ => { trailerOk := true, rcPresent := true, is6699 := true }
  | .msgEncode => { is6699 := true }
  | .msgDecode _ _ => { trailerOk := true, rcPresent := true, vhPresent := true, is6699 := true, empty := true }
  | .nop | .keyLoad | .nonceLoad | .sessionReset | .kdf34 | .kdf35 | .aesEncBlock _ | .aesDecBlock _
  | .pkcs7Pad | .pkcs7Unpad _ | .ecbEnc _ | .ecbDec _ _ | .gcmEnc _ _ | .gcmDec _ _ | .crc32
  | .hmacSha256 _ | .hmacVerify _ | .pack55 _ _ _ => {}

/-- Every flag of `f` is one of `g`. -/
def ResultFlags.le (f g : ResultFlags) : Prop :=
  (f.trailerOk = true → g.trailerOk = true) ∧ (f.rcPresent = true → g.rcPresent = true)
    ∧ (f.vhPresent = true → g.vhPresent = true) ∧ (f.incomplete = true → g.incomplete = true)
    ∧ (f.is6699 = true → g.is6699 = true) ∧ (f.empty = true → g.empty = true)

/-- The command unpacks a frame. -/
def unpacks : Instr → Bool
  | .unpack55 _ _ _ | .unpack66 _ _ | .msgDecode _ _ => true
  | .nop | .keyLoad | .nonceLoad | .sessionReset | .kdf34 | .kdf35 | .aesEncBlock _ | .aesDecBlock _
  | .pkcs7Pad | .pkcs7Unpad _ | .ecbEnc _ | .ecbDec _ _ | .gcmEnc _ _ | .gcmDec _ _ | .crc32
  | .hmacSha256 _ | .hmacVerify _ | .frameScan | .pack55 _ _ _ | .pack66 _ _ | .msgEncode => false

/-- The command packs a frame. -/
def packs : Instr → Bool
  | .pack55 _ _ _ | .pack66 _ _ | .msgEncode => true
  | .nop | .keyLoad | .nonceLoad | .sessionReset | .kdf34 | .kdf35 | .aesEncBlock _ | .aesDecBlock _
  | .pkcs7Pad | .pkcs7Unpad _ | .ecbEnc _ | .ecbDec _ _ | .gcmEnc _ _ | .gcmDec _ _ | .crc32
  | .hmacSha256 _ | .hmacVerify _ | .frameScan | .unpack55 _ _ _ | .unpack66 _ _ | .msgDecode _ _ => false

/-- The frame tag that stands whole at index `i`, if one does: `true` for P66 (44_frame_codec.md R320). -/
def tagAt (b : Bytes) (i : Nat) : Option Bool :=
  if slice b i (i + 4) = tagP55 then some false
  else if slice b i (i + 4) = tagP66 then some true
  else none

/-- The version-header strip (45_message_pipeline.md R355): `q` is what it leaves of `d`, and `vh` whether it
took a header, 15 bytes that begin with the version string `vs`. -/
def Strips (vs d q : Bytes) (vh : Bool) : Prop :=
  vh = true ∧ (∃ h, d = h ++ q ∧ h.length = 15 ∧ h.take 3 = vs) ∨
    vh = false ∧ q = d ∧ (d.length < 15 ∨ d.take 3 ≠ vs)

/-- The address is one of IBUF or ABUF (20_memory.md R70). -/
def inOperands (cap a : Nat) : Prop := a < cap ∨ 0x40000000 ≤ a ∧ a < 0x40000000 + cap

/-- The address is one of OBUF (20_memory.md R70). -/
def inOutput (cap a : Nat) : Prop := 0x80000000 ≤ a ∧ a < 0x80000000 + cap

/-- The host may write the register (10_state.md R31: access RW). -/
def hostWritable (n : BitVec 8) : Bool := [0x02, 0x03, 0x04, 0x05, 0x0D, 0x0E].contains n

/-! ### Safe runs -/

/-- No model fault has been recorded: the premise of a claim about a host program (10_state.md R52). -/
def Clean (s : State) : Prop := s.faults = { nonceReuse := false, unwrittenRead := false }

/-- The host's duty to write every operand byte a command reads (20_memory.md R83). -/
def operandsWritten (i : Instr) (s : State) : Prop :=
  match readsOf i with
  | .nothing => True
  | .inOnly => s.allWritten .ibuf s.ibufLen.toNat = true
  | .inAndAd => s.allWritten .ibuf s.ibufLen.toNat = true ∧ s.allWritten .abuf s.abufLen.toNat = true

/-- The host's duty to load a nonce never used before with the same key (20_memory.md R83,
70_reset_and_hazards.md R453). -/
def nonceFresh (i : Instr) (s : State) : Prop := ∀ k, nonceKey i s = some k → (k, s.nonce) ∉ s.nlog

/-- The host's duty at 3.4 and 3.5: no MSG_ENCODE of an application frame before the negotiation has
completed (70_reset_and_hazards.md R462). TCF does not enforce it. -/
def negotiatedFirst (i : Instr) (s : State) : Prop :=
  i = .msgEncode → s.version = 0x34 ∨ s.version = 0x35 → s.cmdIn ≠ 3 → s.cmdIn ≠ 5 → s.negotiated = true

/-! ### The invariant -/

/-- What holds of TCF in every state it reaches. -/
structure Inv (s : State) : Prop where
  /-- The parameters are legal (00_scope.md R8). -/
  legal : s.params.legal = true
  /-- Memory is in its canonical form. -/
  canonical : s.mem.wf
  /-- Only addresses of the three buffers hold bytes (20_memory.md R70). -/
  inBuffers : ∀ a, (s.mem.read a).isSome = true → (bufferOf s.cap a).isSome = true
  /-- OBUF_LEN is within the buffer (10_state.md R39). -/
  outputFits : s.obufLen.toNat ≤ s.cap
  /-- Exactly the OBUF bytes below OBUF_LEN hold a specified value (20_memory.md R73). -/
  outputBytes : ∀ i, i < s.cap → ((s.mem.read (Buffer.obuf.base + i)).isSome = true ↔ i < s.obufLen.toNat)
  /-- STATUS: a code of the table, no flag beside an error, live bits that mirror the key and nonce state,
  reserved bits 0 (10_state.md R33, R34; 60_exceptions.md R400, R402). -/
  statusForm : ∃ e f, s.status = statusWord e f s.keyValid s.nonceValid s.negotiated
    ∧ (e ≠ .ok → f = {})
  /-- ERR_ILLEGAL_CMD stands exactly while CMD holds an illegal word (30_encoding.md R97, 10_state.md R32). -/
  illegalWord : s.status.extractLsb' 0 8 = ErrCode.illegalCmd.code ↔ ∀ i, decode s.cmd ≠ .ok i
  /-- The widths of the keys and of the nonce (00_scope.md R7). -/
  keyLocalSize : s.keyLocal.length = 16
  keySessionSize : s.keySession.length = 16
  nonceSize : s.nonce.length = 12
  /-- A loaded key came from IBUF (10_state.md R41). -/
  sourceFits : s.keySrclen.toNat ≤ s.cap
  /-- No session without a key, and no session key without a session (10_state.md R42, R43). -/
  sessionNeedsKey : s.negotiated = true → s.keyValid = true
  noSessionKey : s.negotiated = false → s.keySession = zeros 16
  noLocalKey : s.keyValid = false → s.keyLocal = zeros 16 ∧ s.keySrclen = 0
  /-- NLOG is a set of pairs of 16 and 12 bytes (10_state.md R50). -/
  logSet : s.nlog.Nodup
  logSizes : ∀ p ∈ s.nlog, p.1.length = 16 ∧ p.2.length = 12

/-! ### Runs that differ in what no host can read -/

/-- The two states agree on everything but the ghost sets NLOG and FAULTS (10_state.md R50, R52). -/
def SameButGhost (s s' : State) : Prop := s' = { s with nlog := s'.nlog, faults := s'.faults }

/-- The two states agree on everything but key material: KEY_LOCAL, KEY_SESSION, NLOG, which records keys,
and NONCE_REUSE, which tells what NLOG holds (10_state.md R41, R42, R50). -/
def SameButKeys (s s' : State) : Prop :=
  s' = { s with
    keyLocal := s'.keyLocal
    keySession := s'.keySession
    nlog := s'.nlog
    faults := { s.faults with nonceReuse := s'.faults.nonceReuse } }

/-- The commands that send no value computed from a secret key to OBUF, to a register or to STATUS: those
that use no working key, those whose working key is the constant KEY_UDP, and the two key derivations. -/
def keepsKeysInside : Instr → Bool
  | .nop | .keyLoad | .nonceLoad | .sessionReset | .kdf34 | .kdf35 | .pkcs7Pad | .pkcs7Unpad _ | .crc32
  | .frameScan | .pack55 _ .crc _ | .unpack55 _ .crc _ => true
  | .aesEncBlock k | .aesDecBlock k | .ecbEnc k | .ecbDec k _ | .gcmEnc k _ | .gcmDec k _ | .hmacSha256 k
  | .hmacVerify k | .pack55 k .hmac _ | .unpack55 k .hmac _ | .pack66 k _ | .unpack66 k _ => k == .udpKey
  | .msgEncode | .msgDecode _ _ => false

end Sys2Proof.Machine
end

