-- ==== Sys2Proof/Certificates/Slice0/Obligations.lean ====
section
/-!
DEFINITION. The statements for the provers. `Completes`, `Raises` and the other terms stand in Safety.lean:
`Completes i s u f out` says that `exec i s` answers a next state which is `u` with STATUS saying OK, the
result flags `f` and the live bits, with `out` as the whole output, and with every byte outside OBUF as it
was; so the state `u` a statement writes out is the frame of the command.
-/

open Sys2Proof Sys2Proof.Machine

/-! ### Operands -/

/-- R12, R39, R51: the operands IN and AD are the first IBUF_LEN and ABUF_LEN bytes of their buffers; a byte
with a specified value is read as that value, and reading only such bytes changes nothing. -/
def Obligations.OperandBytes : Prop :=
  ∀ s : State,
    (s.inBytes.length = s.ibufLen.toNat ∧
      (∀ (i : Nat) (v : Byte), i < s.ibufLen.toNat → s.mem.read i = some v → s.inBytes[i]? = some v) ∧
      ((∀ i, i < s.ibufLen.toNat → s.mem.read i ≠ none) → s.afterIn = s)) ∧
    (s.adBytes.length = s.abufLen.toNat ∧
      (∀ (i : Nat) (v : Byte), i < s.abufLen.toNat → s.mem.read (0x40000000 + i) = some v →
        s.adBytes[i]? = some v) ∧
      ((∀ i, i < s.abufLen.toNat → s.mem.read (0x40000000 + i) ≠ none) → s.afterAd = s))

/-- R46, R45: which key each selection gives, and when there is none. -/
def Obligations.WorkingKeySelection : Prop :=
  ∀ s : State,
    workingKey s .localKey = (if s.keyValid = false then .error .keyUnset else .ok s.keyLocal) ∧
    workingKey s .sessionKey =
      (if s.negotiated = true then .ok s.keySession
        else if s.keyValid = false then .error .keyUnset else .ok s.keyLocal) ∧
    workingKey s .udpKey = .ok
      [0x6C, 0x1E, 0xC8, 0xE2, 0xBB, 0x9B, 0xB5, 0x9A, 0xB5, 0x0B, 0x0D, 0xAF, 0x64, 0x9B, 0x41, 0x0A]

/-! ### Control, key and nonce commands -/

/-- R140, R143: NOP changes nothing but STATUS and the output, and SESSION_RESET ends the session as well. -/
def Obligations.NopAndSessionResetComplete : Prop :=
  ∀ s : State,
    Completes .nop s s {} [] ∧
      Completes .sessionReset s { s with negotiated := false, keySession := List.replicate 16 0 } {} []

/-- R141: KEY_LOAD takes a key of any length, padded with 00 or truncated, and ends the session. -/
def Obligations.KeyLoadCompletes : Prop :=
  ∀ s : State, s.ibufLen.toNat ≤ s.cap →
    Completes .keyLoad s
      { s.afterIn with
        keyLocal := s.inBytes.take 16 ++ List.replicate (16 - s.ibufLen.toNat) 0
        keySrclen := s.ibufLen
        keyValid := true
        negotiated := false
        keySession := List.replicate 16 0 } {} []

/-- R142: NONCE_LOAD takes exactly 12 bytes. -/
def Obligations.NonceLoadCompletes : Prop :=
  ∀ s : State, s.ibufLen = 12 → s.ibufLen.toNat ≤ s.cap →
    Completes .nonceLoad s { s.afterIn with nonce := s.inBytes, nonceValid := true } {} []

/-- R144, R145: the session keys of 3.4 and 3.5. KDF35's key is the one-block keystream form that R145's
corner case gives; neither command touches NONCE or NLOG. -/
def Obligations.DerivationsComplete : Prop :=
  ∀ (s : State) (cn dn : Bytes), s.keyValid = true → s.ibufLen = 32 → s.ibufLen.toNat ≤ s.cap →
    s.inBytes = cn ++ dn → cn.length = 16 →
    Completes .kdf34 s
        { s.afterIn with keySession := aesEnc s.keyLocal (xorBytes cn dn), negotiated := true } {} [] ∧
      Completes .kdf35 s
        { s.afterIn with
          keySession := xorBytes (xorBytes cn dn) (aesEnc s.keyLocal (cn.take 12 ++ [0, 0, 0, 2]))
          negotiated := true } {} []

/-! ### AES, PKCS#7 and ECB commands -/

/-- R190, R191: one raw block under the working key. -/
def Obligations.AesBlocksComplete : Prop :=
  ∀ (ksel : Ksel) (s : State) (k : Bytes), workingKey s ksel = .ok k → s.ibufLen = 16 →
    s.ibufLen.toNat ≤ s.cap →
    Completes (.aesEncBlock ksel) s s.afterIn {} (aesEnc k s.inBytes) ∧
      Completes (.aesDecBlock ksel) s s.afterIn {} (aesDec k s.inBytes)

/-- R192: PKCS7_PAD appends 1 to 16 bytes, each the number of them. -/
def Obligations.PadCompletes : Prop :=
  ∀ (s : State) (p : Nat), s.ibufLen.toNat ≤ s.cap → paddedLength s.ibufLen.toNat ≤ s.cap →
    p = 16 - s.ibufLen.toNat % 16 →
    Completes .pkcs7Pad s s.afterIn {} (s.inBytes ++ List.replicate p (BitVec.ofNat 8 p))

/-- R193: PKCS7_UNPAD removes what the last byte counts, with VFY = 1 only if every removed byte is that
count. -/
def Obligations.UnpadCompletes : Prop :=
  ∀ (vfy : Bool) (s : State) (m tail : Bytes) (p : Byte), s.ibufLen.toNat ≤ s.cap →
    s.inBytes = m ++ tail → tail.length = p.toNat → 1 ≤ p.toNat → p.toNat ≤ 16 → tail.getLast? = some p →
    (vfy = true → ∀ b ∈ tail, b = p) →
    Completes (.pkcs7Unpad vfy) s s.afterIn {} m

/-- R194: ECB_ENC emits the padded message block by block under the working key. -/
def Obligations.EcbEncCompletes : Prop :=
  ∀ (ksel : Ksel) (s : State) (k : Bytes), workingKey s ksel = .ok k → s.ibufLen.toNat ≤ s.cap →
    paddedLength s.ibufLen.toNat ≤ s.cap →
    Completes (.ecbEnc ksel) s s.afterIn {} ((chunks 16 (pad s.inBytes)).flatMap (aesEnc k))

/-- R195: ECB_DEC decrypts block by block and unpads. -/
def Obligations.EcbDecCompletes : Prop :=
  ∀ (ksel : Ksel) (vfy : Bool) (s : State) (k m : Bytes), workingKey s ksel = .ok k →
    s.ibufLen.toNat ≤ s.cap → s.ibufLen ≠ 0 → s.ibufLen.toNat % 16 = 0 →
    unpad ((chunks 16 s.inBytes).flatMap (aesDec k)) vfy = .ok m →
    Completes (.ecbDec ksel vfy) s s.afterIn {} m

/-! ### GCM commands -/

/-- R230, R44, R50: GCM_ENC emits the nonce where NX = 1, the ciphertext and the tag, consumes NONCE, and
logs the pair; a pair already logged is a NONCE_REUSE. -/
def Obligations.GcmEncCompletes : Prop :=
  ∀ (ksel : Ksel) (nx : Bool) (s : State) (k : Bytes), workingKey s ksel = .ok k →
    s.ibufLen.toNat ≤ s.cap → s.abufLen.toNat ≤ s.cap → s.nonceValid = true → s.nonce.length = 12 →
    s.ibufLen.toNat + 16 + (if nx then 12 else 0) ≤ s.cap →
    Completes (.gcmEnc ksel nx) s
      { s.afterIn.afterAd with
        nonceValid := false
        nlog := s.nlog.insert (k, s.nonce)
        faults :=
          { s.afterIn.afterAd.faults with
            nonceReuse := s.faults.nonceReuse || decide ((k, s.nonce) ∈ s.nlog) } } {}
      ((if nx then s.nonce else []) ++ (gcmAE k s.nonce s.inBytes s.afterIn.adBytes).1
        ++ (gcmAE k s.nonce s.inBytes s.afterIn.adBytes).2)

/-- R231, R225: GCM_DEC takes the nonce from IN (NX = 1) or from NONCE (NX = 0), answers the plaintext where
the tag matches and releases nothing where it does not; NONCE_VALID and NLOG stand. -/
def Obligations.GcmDecDecides : Prop :=
  ∀ (ksel : Ksel) (nx : Bool) (s : State) (k iv c t : Bytes), workingKey s ksel = .ok k →
    s.ibufLen.toNat ≤ s.cap → s.abufLen.toNat ≤ s.cap → iv.length = 12 → t.length = 16 →
    (if nx then s.inBytes = iv ++ c ++ t else s.nonceValid = true ∧ iv = s.nonce ∧ s.inBytes = c ++ t) →
    (gcmTag k iv c s.afterIn.adBytes = t →
      Completes (.gcmDec ksel nx) s s.afterIn.afterAd {} (gctr k (iv ++ [0, 0, 0, 2]) c)) ∧
    (gcmTag k iv c s.afterIn.adBytes ≠ t →
      Raises (.gcmDec ksel nx) s s.afterIn.afterAd .tagMismatch)

/-! ### CRC and HMAC commands -/

/-- R270: CRC32 writes R_CRC and emits the same value big-endian. -/
def Obligations.Crc32Completes : Prop :=
  ∀ s : State, s.params.legal = true → s.ibufLen.toNat ≤ s.cap →
    Completes .crc32 s { s.afterIn with rCrc := crc32 s.inBytes } {} (be32 (crc32 s.inBytes))

/-- R271: HMAC_SHA256 emits the MAC of IN under the working key. -/
def Obligations.HmacCompletes : Prop :=
  ∀ (ksel : Ksel) (s : State) (k : Bytes), workingKey s ksel = .ok k → s.params.legal = true →
    s.ibufLen.toNat ≤ s.cap → Completes (.hmacSha256 ksel) s s.afterIn {} (hmac k s.inBytes)

/-- R272: HMAC_VERIFY emits nothing, whether AD is the MAC or not. -/
def Obligations.HmacVerifyDecides : Prop :=
  ∀ (ksel : Ksel) (s : State) (k : Bytes), workingKey s ksel = .ok k → s.ibufLen.toNat ≤ s.cap →
    s.abufLen.toNat ≤ s.cap → s.abufLen = 32 →
    (s.afterIn.adBytes = hmac k s.inBytes → Completes (.hmacVerify ksel) s s.afterIn.afterAd {} []) ∧
      (s.afterIn.adBytes ≠ hmac k s.inBytes → Raises (.hmacVerify ksel) s s.afterIn.afterAd .hmacMismatch)

/-! ### Frame commands -/

/-- R320: FRAME_SCAN reports what the scan finds, in R_OFFSET, R_FRAMELEN, INCOMPLETE and IS_6699. A frame
length that does not fit 32 bits leaves a free value in R_FRAMELEN: that clause is the model's choice
(assumption 5). -/
def Obligations.FrameScanCompletes : Prop :=
  ∀ (s : State) (r : Scan), s.ibufLen.toNat ≤ s.cap → scanFrame s.params s.inBytes = .ok r →
    ∃ (v : Word) (n : Nat),
      (r.frameLen < 2 ^ 32 → v = BitVec.ofNat 32 r.frameLen ∧ n = s.afterIn.draws) ∧
        Completes .frameScan s
          { s.afterIn with rOffset := BitVec.ofNat 32 r.offset, rFramelen := v, draws := n }
          { incomplete := r.incomplete, is6699 := r.is66 } []

/-- R320: the scan takes the least index of a frame tag; with a whole header there it checks the length
field and reports the frame's length; with no tag it reports the least index of a partial tag at the end. -/
def Obligations.ScanFindsFirstTag : Prop :=
  ∀ (p : Params) (b : Bytes),
    (∀ (i : Nat) (is66 : Bool), tagAt b i = some is66 → (∀ j, j < i → tagAt b j = none) →
      (b.length < i + headerSize is66 →
        scanFrame p b = .ok { offset := i, frameLen := 0, incomplete := true, is66 := is66 }) ∧
      (∀ l, i + headerSize is66 ≤ b.length →
        l = (beWord (slice b (i + headerSize is66 - 4) (i + headerSize is66))).toNat →
        (maxLen p < l → scanFrame p b = .error .tooLong) ∧
        (l ≤ maxLen p → l < (if is66 then 28 else 4) + suffixOf p is66 → scanFrame p b = .error .short) ∧
        (l ≤ maxLen p → (if is66 then 28 else 4) + suffixOf p is66 ≤ l →
          scanFrame p b = .ok
            { offset := i
              frameLen := headerSize is66 + l - suffixOf p is66 + 4
              incomplete := decide (b.length < i + (headerSize is66 + l - suffixOf p is66 + 4))
              is66 := is66 }))) ∧
    ((∀ i, tagAt b i = none) →
      ∃ j, scanFrame p b = .ok { offset := j, frameLen := 0, incomplete := true, is66 := false } ∧
        j ≤ b.length ∧ partialTag (b.drop j) = true ∧ ∀ j', j' < j → partialTag (b.drop j') = false)

/-- R321, R111, R112: PACK55 emits the 55AA frame byte by byte as laid out, and reports its length field and
its length. -/
def Obligations.Pack55Completes : Prop :=
  ∀ (ksel : Ksel) (hm : TrailerKind) (rc : RcMode) (s : State) (tr : Trailer) (q f : Bytes) (l : Nat),
    ksel ≠ .reserved → rc ≠ .reserved → s.ibufLen.toNat ≤ s.cap →
    (match hm with
      | .crc => tr = .crcTrailer
      | .hmac => ∃ k, workingKey s ksel = .ok k ∧ tr = .hmacTrailer k) →
    q = (if rc = .present then be32 s.retcodeIn else []) →
    20 + retcodeLength rc + s.ibufLen.toNat + trailerLength hm ≤ s.cap →
    l = retcodeLength rc + s.ibufLen.toNat + trailerLength hm + suffix55 s.params →
    f = [0x00, 0x00, 0x55, 0xAA] ++ be32 s.seqIn ++ be32 s.cmdIn ++ be32 (BitVec.ofNat 32 l) ++ q ++ s.inBytes →
    Completes (.pack55 ksel hm rc) s
      { s.afterIn with
        rLen := BitVec.ofNat 32 l
        rFramelen := BitVec.ofNat 32 (20 + retcodeLength rc + s.ibufLen.toNat + trailerLength hm) } {}
      (f ++ (match tr with | .crcTrailer => be32 (crc32 f) | .hmacTrailer k => hmac k f) ++ [0x00, 0x00, 0xAA, 0x55])

/-- R323, R113, R114, R44, R50: PACK66 emits the 6699 frame as laid out, with bytes 4 to 17 as additional
data, consumes NONCE and logs the pair. -/
def Obligations.Pack66Completes : Prop :=
  ∀ (ksel : Ksel) (rc : RcMode) (s : State) (k q h : Bytes) (l : Nat), workingKey s ksel = .ok k →
    rc ≠ .reserved → s.ibufLen.toNat ≤ s.cap → s.nonceValid = true → s.nonce.length = 12 → k.length = 16 →
    q = (if rc = .present then be32 s.retcodeIn else []) →
    50 + retcodeLength rc + s.ibufLen.toNat ≤ s.cap →
    l = s.ibufLen.toNat + 12 + 16 + retcodeLength rc + suffix66 s.params →
    h = [0x00, 0x00] ++ be32 s.seqIn ++ be32 s.cmdIn ++ be32 (BitVec.ofNat 32 l) →
    Completes (.pack66 ksel rc) s
      { s.afterIn with
        rLen := BitVec.ofNat 32 l
        rFramelen := BitVec.ofNat 32 (50 + retcodeLength rc + s.ibufLen.toNat)
        nonceValid := false
        nlog := s.nlog.insert (k, s.nonce)
        faults :=
          { s.afterIn.faults with nonceReuse := s.faults.nonceReuse || decide ((k, s.nonce) ∈ s.nlog) } }
      { is6699 := true }
      ([0x00, 0x00, 0x66, 0x99] ++ h ++ s.nonce ++ (gcmAE k s.nonce (q ++ s.inBytes) h).1
        ++ (gcmAE k s.nonce (q ++ s.inBytes) h).2 ++ [0x00, 0x00, 0x99, 0x66])

/-- R322, R324: what the unpackers report of a frame their parser accepts. A bad 55AA trailer is no error
(R302); the 6699 frame's nonce is neither loaded nor logged. -/
def Obligations.UnpackersComplete : Prop :=
  ∀ (ksel : Ksel) (rc : RcMode) (s : State) (f : Parsed), ksel ≠ .reserved → rc ≠ .reserved →
    s.ibufLen.toNat ≤ s.cap →
    (parse55 s.params s.inBytes .crcTrailer rc = .ok f →
      Completes (.unpack55 ksel .crc rc) s
        { s.afterIn with
          rSeq := f.seq, rCmd := f.cmd, rLen := f.len, rRetcode := f.retcode
          rFramelen := BitVec.ofNat 32 f.total }
        { trailerOk := f.trailerOk, rcPresent := f.present } f.payload) ∧
    (∀ k, workingKey s ksel = .ok k → parse55 s.params s.inBytes (.hmacTrailer k) rc = .ok f →
      Completes (.unpack55 ksel .hmac rc) s
        { s.afterIn with
          rSeq := f.seq, rCmd := f.cmd, rLen := f.len, rRetcode := f.retcode
          rFramelen := BitVec.ofNat 32 f.total }
        { trailerOk := f.trailerOk, rcPresent := f.present } f.payload) ∧
    (∀ k, workingKey s ksel = .ok k → parse66 s.params s.inBytes k rc = .ok f →
      Completes (.unpack66 ksel rc) s
        { s.afterIn with
          rSeq := f.seq, rCmd := f.cmd, rLen := f.len, rRetcode := f.retcode
          rFramelen := BitVec.ofNat 32 f.total }
        { trailerOk := true, rcPresent := f.present, is6699 := true } f.payload)

/-! ### Pipeline commands -/

/-- R370, R356, R351, R117: MSG_ENCODE at 3.3 and 3.4: a 55AA frame without a retcode, header before the
ciphertext at 3.3 and inside it at 3.4, and none for the eight exempt command codes. -/
def Obligations.MsgEncode55Completes : Prop :=
  ∀ (s : State) (k pl : Bytes) (tr : Trailer) (vh : Bytes), workingKey s .sessionKey = .ok k →
    ¬(s.keyValid = true ∧ s.keySrclen.toNat < 16) → s.ibufLen.toNat ≤ s.cap →
    vh = (if s.cmdIn ∈ [3, 4, 5, 9, 10, 16, 18, 64] then [] else [0x33, 0x2E, s.version] ++ List.replicate 12 0) →
    (s.version = 0x33 ∧ pl = vh ++ ecbEnc k s.inBytes ∧ tr = .crcTrailer ∨
      s.version = 0x34 ∧ pl = ecbEnc k (vh ++ s.inBytes) ∧ tr = .hmacTrailer k) →
    20 + pl.length + tr.size ≤ s.cap →
    Completes .msgEncode s
      { s.afterIn with
        rLen := BitVec.ofNat 32 (pl.length + tr.size + suffix55 s.params)
        rFramelen := BitVec.ofNat 32 (20 + pl.length + tr.size) } {}
      (build55 s.params s.seqIn s.cmdIn [] pl tr).1

/-- R370, R356, R351, R117, R44, R50: MSG_ENCODE at 3.5: a 6699 frame without a retcode, with a header but for
the eight exempt command codes; NONCE is consumed and logged. -/
def Obligations.MsgEncode66Completes : Prop :=
  ∀ (s : State) (k pl : Bytes), workingKey s .sessionKey = .ok k →
    ¬(s.keyValid = true ∧ s.keySrclen.toNat < 16) → s.ibufLen.toNat ≤ s.cap → s.version = 0x35 →
    s.nonceValid = true → s.nonce.length = 12 → k.length = 16 →
    pl = (if s.cmdIn ∈ [3, 4, 5, 9, 10, 16, 18, 64] then [] else [0x33, 0x2E, 0x35] ++ List.replicate 12 0)
      ++ s.inBytes →
    50 + pl.length ≤ s.cap →
    Completes .msgEncode s
      { s.afterIn with
        rLen := BitVec.ofNat 32 (pl.length + 28 + suffix66 s.params)
        rFramelen := BitVec.ofNat 32 (50 + pl.length)
        nonceValid := false
        nlog := s.nlog.insert (k, s.nonce)
        faults :=
          { s.afterIn.faults with nonceReuse := s.faults.nonceReuse || decide ((k, s.nonce) ∈ s.nlog) } }
      { is6699 := true } (build66 s.params s.seqIn s.cmdIn [] pl k s.nonce).1

/-- R371, R357, R358, R354, R355: MSG_DECODE reports the frame its version's pipeline decodes. The pipeline's
error is the parser's where the parser refuses. Of a parsed frame it reports an empty or all-zero payload as
EMPTY, with no output; of any other it strips before the decryption at 3.3 (an empty rest is EMPTY as well),
after it at 3.4, and without one at 3.5. -/
def Obligations.MsgDecodeCompletes : Prop :=
  (∀ (vfy : Bool) (rc : RcMode) (s : State) (v : PipeVersion) (k : Bytes) (d : Decoded), rc ≠ .reserved →
    s.version = v.code → ¬(s.keyValid = true ∧ s.keySrclen.toNat < 16) → workingKey s .sessionKey = .ok k →
    s.ibufLen.toNat ≤ s.cap → decodeMessage s.params v s.inBytes k rc vfy = .ok d →
    Completes (.msgDecode vfy rc) s
      { s.afterIn with
        rSeq := d.frame.seq, rCmd := d.frame.cmd, rLen := d.frame.len, rRetcode := d.frame.retcode
        rFramelen := BitVec.ofNat 32 d.frame.total }
      { trailerOk := d.frame.trailerOk
        rcPresent := d.frame.present
        vhPresent := d.vh
        is6699 := decide (s.version = 0x35)
        empty := d.empty } d.data) ∧
  ∀ (p : Params) (v : PipeVersion) (inp k : Bytes) (rc : RcMode) (vfy : Bool) (r : Except ErrCode Parsed),
    (match v with
      | .v33 => parse55 p inp .crcTrailer rc
      | .v34 => parse55 p inp (.hmacTrailer k) rc
      | .v35 => parse66 p inp k rc) = r →
    (∀ e, r = .error e → decodeMessage p v inp k rc vfy = .error e) ∧
    ∀ f, r = .ok f →
      ((∀ b ∈ f.payload, b = 0) →
        decodeMessage p v inp k rc vfy = .ok { frame := f, data := [], vh := false, empty := true }) ∧
      ((∃ b ∈ f.payload, b ≠ 0) → ∀ (q : Bytes) (vh : Bool),
        (v = .v33 → Strips [0x33, 0x2E, 0x33] f.payload q vh →
          (q = [] → decodeMessage p v inp k rc vfy = .ok { frame := f, data := [], vh := vh, empty := true }) ∧
          (q ≠ [] →
            (∀ m, ecbDec k q vfy = .ok m →
              decodeMessage p v inp k rc vfy = .ok { frame := f, data := m, vh := vh, empty := false }) ∧
            ∀ e, ecbDec k q vfy = .error e → decodeMessage p v inp k rc vfy = .error e)) ∧
        (v = .v34 →
          (∀ d, ecbDec k f.payload vfy = .ok d → Strips [0x33, 0x2E, 0x34] d q vh →
            decodeMessage p v inp k rc vfy = .ok { frame := f, data := q, vh := vh, empty := false }) ∧
          ∀ e, ecbDec k f.payload vfy = .error e → decodeMessage p v inp k rc vfy = .error e) ∧
        (v = .v35 → Strips [0x33, 0x2E, 0x35] f.payload q vh →
          decodeMessage p v inp k rc vfy = .ok { frame := f, data := q, vh := vh, empty := false }))

/-! ### Errors, in the order of R403 -/

/-- R39: a command that reads IN or AD while the length exceeds BUF_CAP ends with ERR_BUF_RANGE, and reads
nothing. -/
def Obligations.InputRangeError : Prop :=
  ∀ (i : Instr) (s : State), i.wellFormed = true →
    (readsOf i ≠ .nothing ∧ s.cap < s.ibufLen.toNat ∨ readsOf i = .inAndAd ∧ s.cap < s.abufLen.toNat) →
    Raises i s s .bufRange

/-- R350, R353: the two configuration checks of the pipeline commands, before any key is looked at. -/
def Obligations.ConfigError : Prop :=
  ∀ (i : Instr) (s : State), isMessage i = true → i.wellFormed = true → s.ibufLen.toNat ≤ s.cap →
    (s.version ≠ 0x33 ∧ s.version ≠ 0x34 ∧ s.version ≠ 0x35 ∨ s.keyValid = true ∧ s.keySrclen.toNat < 16) →
    Raises i s s.afterIn .config

/-- R46: a command that takes a key ends with ERR_KEY_UNSET while no local key is loaded, unless its key is
KEY_UDP or a negotiated session key. -/
def Obligations.KeyUnsetError : Prop :=
  ∀ (i : Instr) (s : State) (ksel : Ksel), i.wellFormed = true → inRange i s →
    (isMessage i = true → configured s) → keyOf i = some ksel → s.keyValid = false →
    (ksel = .localKey ∨ ksel = .sessionKey ∧ s.negotiated = false) →
    Raises i s (afterReads i s) .keyUnset

/-- R403, steps 5 and 6; R400, codes 0x04 and 0x06: a command that needs a nonce while none is loaded, and
then an operand of a length the command cannot take. -/
def Obligations.NonceAndLengthErrors : Prop :=
  ∀ (i : Instr) (s : State), PassesKey i s →
    (needsNonce i s = true → s.nonceValid = false → Raises i s (afterReads i s) .nonceUnset) ∧
    ((needsNonce i s = true → s.nonceValid = true) → badLength i s = true →
      Raises i s (afterReads i s) .operandLen)

/-- R179, R181, R193, R195: what the unpadding commands refuse: PKCS7_UNPAD of IN, ECB_DEC of the blockwise
decryption `d` of IN. The clauses exclude each other, but for the last, which says the same of ECB_DEC for
every string that does not unpad. -/
def Obligations.PaddingErrors : Prop :=
  ∀ (ksel : Ksel) (vfy : Bool) (s : State) (k : Bytes), workingKey s ksel = .ok k → s.ibufLen.toNat ≤ s.cap →
    (s.ibufLen = 0 →
      Raises (.pkcs7Unpad vfy) s s.afterIn .badPadding ∧ Raises (.ecbDec ksel vfy) s s.afterIn .badPadding) ∧
    (s.ibufLen.toNat % 16 ≠ 0 → Raises (.ecbDec ksel vfy) s s.afterIn .operandLen) ∧
    (∀ p, s.inBytes.getLast? = some p → (p = 0 ∨ 16 < p.toNat ∨ s.ibufLen.toNat < p.toNat) →
      Raises (.pkcs7Unpad vfy) s s.afterIn .badPadding) ∧
    (∀ (m tail : Bytes) (p b : Byte), s.inBytes = m ++ tail → tail.length = p.toNat → tail.getLast? = some p →
      b ∈ tail → b ≠ p → Raises (.pkcs7Unpad true) s s.afterIn .badPadding) ∧
    ∀ d, s.ibufLen ≠ 0 → s.ibufLen.toNat % 16 = 0 → d = (chunks 16 s.inBytes).flatMap (aesDec k) →
      (∀ p, d.getLast? = some p → (p = 0 ∨ 16 < p.toNat ∨ d.length < p.toNat) →
        Raises (.ecbDec ksel vfy) s s.afterIn .badPadding) ∧
      (∀ (m tail : Bytes) (p b : Byte), d = m ++ tail → tail.length = p.toNat → tail.getLast? = some p →
        b ∈ tail → b ≠ p → Raises (.ecbDec ksel true) s s.afterIn .badPadding) ∧
      ∀ e, unpad d vfy = .error e → Raises (.ecbDec ksel vfy) s s.afterIn .badPadding

/-- R291, R294, R296, R297, R300, R301, R302, R305: the checks of the 55AA parser and of the 6699 parser, in
their order, and what each answers after them. A wrong 55AA trailer is no error, a wrong 6699 tag is one. In
the first part `r` is the region between header and trailer; in the second `iv`, `c` and `t` are the frame's
nonce, ciphertext and tag, and `d` is the plaintext; the reserved u16 is checked by the tag alone. -/
def Obligations.ParserChecks : Prop :=
  (∀ (p : Params) (inp : Bytes) (tr : Trailer) (rcm : RcMode) (l total e : Nat) (r : Bytes) (present : Bool),
    l = (beWord (slice inp 12 16)).toNat → total = 16 + l - suffix55 p + 4 → e = total - 4 - tr.size →
    r = slice inp 16 e →
    (present = true ↔ rcm = .present ∨ rcm = .auto ∧ 4 ≤ r.length ∧ r.head? ≠ some 0x7B#8) →
    ((∃ j, j < 4 ∧ j < inp.length ∧ inp[j]? ≠ tagP55[j]?) → parse55 p inp tr rcm = .error .noPrefix) ∧
    ((∀ j, j < 4 → j < inp.length → inp[j]? = tagP55[j]?) →
      (inp.length < 16 → parse55 p inp tr rcm = .error .short) ∧
      (16 ≤ inp.length →
        (maxLen p < l → parse55 p inp tr rcm = .error .tooLong) ∧
        (l ≤ maxLen p → l < tr.size + suffix55 p → parse55 p inp tr rcm = .error .short) ∧
        (l ≤ maxLen p → tr.size + suffix55 p ≤ l →
          (inp.length < total → parse55 p inp tr rcm = .error .short) ∧
          (total ≤ inp.length → slice inp (total - 4) total ≠ tagS55 →
            parse55 p inp tr rcm = .error .badSuffix) ∧
          (total ≤ inp.length → slice inp (total - 4) total = tagS55 →
            (rcm = .present → r.length < 4 → parse55 p inp tr rcm = .error .short) ∧
            (rcm ≠ .reserved → ¬(rcm = .present ∧ r.length < 4) →
              parse55 p inp tr rcm =
                .ok
                  { seq := beWord (slice inp 4 8)
                    cmd := beWord (slice inp 8 12)
                    len := beWord (slice inp 12 16)
                    retcode := if present then beWord (r.take 4) else 0
                    present := present
                    trailerOk := decide
                      ((match tr with
                        | .crcTrailer => be32 (crc32 (inp.take e))
                        | .hmacTrailer k => hmac k (inp.take e)) = slice inp e (total - 4))
                    payload := if present then r.drop 4 else r
                    total := total })))))) ∧
  ∀ (p : Params) (inp k : Bytes) (rcm : RcMode) (l total : Nat) (iv c t d : Bytes) (present : Bool),
    l = (beWord (slice inp 14 18)).toNat → total = 18 + l - suffix66 p + 4 →
    iv = slice inp 18 30 → c = slice inp 30 (total - 20) → t = slice inp (total - 20) (total - 4) →
    d = gctr k (iv ++ [0, 0, 0, 2]) c →
    (present = true ↔ rcm = .present ∨ rcm = .auto ∧
      (7 ≤ d.length ∧ slice d 4 7 = [0x33, 0x2E, 0x35] ∨
        5 ≤ d.length ∧ d.head? ≠ some 0x7B#8 ∧ d[4]? = some 0x7B#8)) →
    ((∃ j, j < 4 ∧ j < inp.length ∧ inp[j]? ≠ tagP66[j]?) → parse66 p inp k rcm = .error .noPrefix) ∧
    ((∀ j, j < 4 → j < inp.length → inp[j]? = tagP66[j]?) →
      (inp.length < 18 → parse66 p inp k rcm = .error .short) ∧
      (18 ≤ inp.length →
        (maxLen p < l → parse66 p inp k rcm = .error .tooLong) ∧
        (l ≤ maxLen p → l < 28 + suffix66 p → parse66 p inp k rcm = .error .short) ∧
        (l ≤ maxLen p → 28 + suffix66 p ≤ l →
          (inp.length < total → parse66 p inp k rcm = .error .short) ∧
          (total ≤ inp.length → slice inp (total - 4) total ≠ tagS66 →
            parse66 p inp k rcm = .error .badSuffix) ∧
          (total ≤ inp.length → slice inp (total - 4) total = tagS66 →
            (gcmTag k iv c (slice inp 4 18) ≠ t → parse66 p inp k rcm = .error .tagMismatch) ∧
            (gcmTag k iv c (slice inp 4 18) = t →
              (rcm = .present → d.length < 4 → parse66 p inp k rcm = .error .short) ∧
              (rcm ≠ .reserved → ¬(rcm = .present ∧ d.length < 4) →
                parse66 p inp k rcm =
                  .ok
                    { seq := beWord (slice inp 6 10)
                      cmd := beWord (slice inp 10 14)
                      len := beWord (slice inp 14 18)
                      retcode := if present then beWord (d.take 4) else 0
                      present := present
                      trailerOk := true
                      payload := if present then d.drop 4 else d
                      total := total }))))))

/-- R322, R324, R320, R371: a frame that a parser refuses ends the command with the parser's error. UNPACK55
with HM = 0 and FRAME_SCAN take no key, so what they refuse does not depend on one. -/
def Obligations.ParserErrorsEndCommands : Prop :=
  ∀ (ksel : Ksel) (rc : RcMode) (vfy : Bool) (s : State) (e : ErrCode),
    ksel ≠ .reserved → rc ≠ .reserved → s.ibufLen.toNat ≤ s.cap →
    (parse55 s.params s.inBytes .crcTrailer rc = .error e → Raises (.unpack55 ksel .crc rc) s s.afterIn e) ∧
    (scanFrame s.params s.inBytes = .error e → Raises .frameScan s s.afterIn e) ∧
    (∀ k, workingKey s ksel = .ok k →
      (parse55 s.params s.inBytes (.hmacTrailer k) rc = .error e → Raises (.unpack55 ksel .hmac rc) s s.afterIn e) ∧
      (parse66 s.params s.inBytes k rc = .error e → Raises (.unpack66 ksel rc) s s.afterIn e)) ∧
    ∀ (k : Bytes) (v : PipeVersion), workingKey s .sessionKey = .ok k → s.version = v.code →
      ¬(s.keyValid = true ∧ s.keySrclen.toNat < 16) → decodeMessage s.params v s.inBytes k rc vfy = .error e →
      Raises (.msgDecode vfy rc) s s.afterIn e

/-- R403, step 8: an output longer than BUF_CAP, after every other check has passed. -/
def Obligations.OutputRangeError : Prop :=
  ∀ (i : Instr) (s : State) (n : Nat), Inv s → PassesChecks i s → outputLength i s = some n → s.cap < n →
    Raises i s (afterReads i s) .bufRange

/-! ### What holds of every command -/

/-- R402: an error leaves everything but STATUS, the output, and the record of an unwritten read. -/
def Obligations.ErrorCommitsNothing : Prop :=
  ∀ (i : Instr) (s t : State), exec i s = .next t → errorField t ≠ 0 →
    ∃ (e : ErrCode) (n : Nat) (w : Bool), e ≠ .ok ∧
      (w = s.faults.unwrittenRead ∨ w = true ∧ ¬operandsWritten i s) ∧
      EndsWith { s with faults := { s.faults with unwrittenRead := w }, draws := n } t e {} []

/-- R34, R33, R400: every command answers a next state and ends by writing STATUS: a code of the table, the
flags its rule names and only beside OK, the live bits from the state after it, and 0 in the rest. -/
def Obligations.StatusAfterEveryCommand : Prop :=
  ∀ (i : Instr) (s : State), ∃ (t : State) (e : ErrCode) (f : ResultFlags), exec i s = .next t ∧
    t.status = statusWord e f t.keyValid t.nonceValid t.negotiated ∧ errorField t = e.code ∧
    f.le (flagsNamed i) ∧ (e ≠ .ok → f = {}) ∧
    (t.status.getLsbD 8 = f.trailerOk ∧ t.status.getLsbD 9 = f.rcPresent ∧ t.status.getLsbD 10 = f.vhPresent ∧
      t.status.getLsbD 11 = f.incomplete ∧ t.status.getLsbD 12 = f.is6699 ∧ t.status.getLsbD 13 = f.empty) ∧
    (t.status.getLsbD 16 = t.keyValid ∧ t.status.getLsbD 17 = t.nonceValid ∧
      t.status.getLsbD 18 = t.negotiated) ∧
    t.status.extractLsb' 14 2 = 0 ∧ t.status.extractLsb' 19 13 = 0

/-- R38: which commands may change a result register, and only with ERR = OK. -/
def Obligations.ResultRegistersWrittenByName : Prop :=
  ∀ (i : Instr) (s t : State), exec i s = .next t →
    (unpacks i = false ∨ errorField t ≠ 0 → t.rSeq = s.rSeq ∧ t.rCmd = s.rCmd ∧ t.rRetcode = s.rRetcode) ∧
    (unpacks i = false ∧ packs i = false ∨ errorField t ≠ 0 → t.rLen = s.rLen) ∧
    (unpacks i = false ∧ packs i = false ∧ i ≠ .frameScan ∨ errorField t ≠ 0 → t.rFramelen = s.rFramelen) ∧
    (i ≠ .frameScan ∨ errorField t ≠ 0 → t.rOffset = s.rOffset) ∧
    (i ≠ .crc32 ∨ errorField t ≠ 0 → t.rCrc = s.rCrc)

/-- R37, R70, R451: no command writes a register the host writes, a parameter, IBUF or ABUF, nor what the
host has pending or has read. -/
def Obligations.CommandsKeepInputs : Prop :=
  ∀ (i : Instr) (s t : State), s.params.legal = true → exec i s = .next t →
    t.params = s.params ∧ t.cmd = s.cmd ∧ t.version = s.version ∧ t.seqIn = s.seqIn ∧ t.cmdIn = s.cmdIn ∧
      t.retcodeIn = s.retcodeIn ∧ t.ibufLen = s.ibufLen ∧ t.abufLen = s.abufLen ∧ t.inputs = s.inputs ∧
      t.replies = s.replies ∧ KeepsOutsideOutput s t

/-- R41, R42, R43, R44: which commands write the key and nonce state. -/
def Obligations.KeyStateWriters : Prop :=
  ∀ (i : Instr) (s t : State), exec i s = .next t →
    (i ≠ .keyLoad → t.keyLocal = s.keyLocal ∧ t.keySrclen = s.keySrclen ∧ t.keyValid = s.keyValid) ∧
    (i ≠ .keyLoad → i ≠ .sessionReset → i ≠ .kdf34 → i ≠ .kdf35 →
      t.keySession = s.keySession ∧ t.negotiated = s.negotiated) ∧
    (i = .kdf34 ∨ i = .kdf35 → errorField t = 0 → t.negotiated = true) ∧
    (i = .keyLoad ∨ i = .sessionReset → errorField t = 0 → t.negotiated = false) ∧
    (i ≠ .nonceLoad → t.nonce = s.nonce) ∧
    (i = .nonceLoad → errorField t = 0 → t.nonceValid = true) ∧
    (i ≠ .nonceLoad → nonceKey i s ≠ none ∧ errorField t = 0 → t.nonceValid = false) ∧
    (i ≠ .nonceLoad → nonceKey i s = none ∨ errorField t ≠ 0 → t.nonceValid = s.nonceValid)

/-- R51, R50, R52: FAULTS after a legal command with its operands in range: UNWRITTEN_READ is added exactly
by a read of an unmarked byte, NONCE_REUSE exactly by a success that encrypts under a logged pair, and
nothing is taken away. -/
def Obligations.FaultsRecord : Prop :=
  ∀ (i : Instr) (s t : State), i.wellFormed = true → inRange i s → exec i s = .next t →
    (t.faults.unwrittenRead = true ↔ s.faults.unwrittenRead = true ∨ ¬operandsWritten i s) ∧
    (t.faults.nonceReuse = true ↔
      s.faults.nonceReuse = true ∨ errorField t = 0 ∧ ∃ k, nonceKey i s = some k ∧ (k, s.nonce) ∈ s.nlog) ∧
    (∀ p, p ∈ t.nlog ↔
      p ∈ s.nlog ∨ errorField t = 0 ∧ ∃ k, nonceKey i s = some k ∧ p = (k, s.nonce))

/-- R83: a host that writes every operand byte and never loads a used nonce keeps FAULTS empty, in every
command, legal or not. -/
def Obligations.HostDutiesKeepFaultsEmpty : Prop :=
  ∀ (i : Instr) (s t : State), Clean s → operandsWritten i s → nonceFresh i s → exec i s = .next t → Clean t

/-! ### Steps and command words -/

/-- R32, R48: the next pending access, a write of a legal word to CMD, stores the word and runs exactly the
command it decodes to; `withFetchWord` places such a word. -/
def Obligations.StepRunsDecodedCommand : Prop :=
  ∀ (s : State) (w : Word) (i : Instr), decode w = .ok i →
    (∀ rest, s.inputs = .regWrite 0x00 w :: rest → step s = exec i { s with inputs := rest, cmd := w }) ∧
      step (s.withFetchWord 32 w.toNat) = exec i { s with cmd := w }

/-- R97, R99: an illegal word ends with ERR_ILLEGAL_CMD and no other effect: no operand is read. -/
def Obligations.IllegalWordEnds : Prop :=
  ∀ (s : State) (w : Word) (rest : List Access), s.inputs = .regWrite 0x00 w :: rest →
    (∀ i, decode w ≠ .ok i) →
    ∃ t, step s = .next t ∧ EndsWith { s with inputs := rest, cmd := w } t .illegalCmd {} []

/-- R90 to R97: words written out from the fields decode to the command they stand for, and words with one
wrong field to none. -/
def Obligations.WordsDecode : Prop :=
  decode 0x00000000#32 = .ok .nop ∧
    decode 0x00000415#32 = .ok (.ecbDec .localKey true) ∧
    decode 0x00004218#32 = .ok (.gcmEnc .udpKey true) ∧
    decode 0x00002931#32 = .ok (.pack55 .sessionKey .hmac .present) ∧
    decode 0x00001441#32 = .ok (.msgDecode true .absent) ∧
    decode 0x00000006#32 = .error .unassignedOp ∧
    decode 0x00008000#32 = .error .reservedBits ∧
    decode 0x00000310#32 = .error .reservedKsel ∧
    decode 0x00003032#32 = .error .reservedRc ∧
    decode 0x00000112#32 = .error .untakenKsel

/-- R90, R91, R97: decoding and encoding agree, in both directions, for every command and every word. -/
def Obligations.DecodeEncodeAgree : Prop :=
  (∀ i : Instr, i.wellFormed = true → decode (encode i) = .ok i) ∧
    ∀ (w : Word) (i : Instr), decode w = .ok i → i.wellFormed = true ∧ encode i = w

/-- R98: a word that matches a row of the opcode table is legal iff its free KSEL and RC bits are not 11,
no word matches two rows, and every legal word matches a row. -/
def Obligations.LegalityIsTheTable : Prop :=
  (∀ e ∈ opcodeTable, ∀ w : Word, w &&& e.mask = e.matchBits →
    ((∃ i, decode w = .ok i) ↔
      ¬(kselBits e.mask = 0 ∧ kselBits w = 3) ∧ ¬(rcBits e.mask = 0 ∧ rcBits w = 3))) ∧
  (∀ e ∈ opcodeTable, ∀ e' ∈ opcodeTable, ∀ w : Word, w &&& e.mask = e.matchBits →
    w &&& e'.mask = e'.matchBits → e = e') ∧
  ∀ (w : Word) (i : Instr), decode w = .ok i → ∃ e ∈ opcodeTable, w &&& e.mask = e.matchBits

/-! ### The invariant -/

/-- The invariant holds right after reset, for every legal choice of the parameters (R441, R8). -/
def Obligations.InvHoldsAtReset : Prop := ∀ p : Params, p.legal = true → Inv (State.resetOf p)

/-- Every step keeps the invariant, from every state that has it. -/
def Obligations.StepKeepsInv : Prop := ∀ s t : State, Inv s → step s = .next t → Inv t

/-! ### What no host can see -/

/-- R411: states that differ in NLOG and FAULTS alone step alike, and differ in them alone afterwards: they
never change ERR, never stop a command and are invisible to the host. -/
def Obligations.GhostStateIsInvisible : Prop :=
  ∀ s s' t : State, SameButGhost s s' → step s = .next t → ∃ t', step s' = .next t' ∧ SameButGhost t t'

/-- R41, R42, R420: states that differ in key material alone (KEY_LOCAL, KEY_SESSION, and NLOG with
NONCE_REUSE, which record keys) answer every host access alike, and every command whose working key, if it
uses one, is the constant KEY_UDP; the two derivations are among them. Both states use the same free
values (assumption 3): what an unspecified byte holds is not compared. -/
def Obligations.KeysStayInside : Prop :=
  ∀ s s' t : State, SameButKeys s s' → (∀ i u, nextAction s = .command i u → keepsKeysInside i = true) →
    step s = .next t → ∃ t', step s' = .next t' ∧ SameButKeys t t'

/-! ### Host accesses and reset -/

/-- R31, R36, R71, R79: a pending write to a register other than CMD is performed by the step; each RW register
is stored in its own field, and a write to any other changes nothing; each register reads its own field or
the constant of the instance; and so a register reads the value last written to it. -/
def Obligations.RegisterAccess : Prop :=
  ∀ (s : State) (n m : BitVec 8) (v : Word),
    (n ≠ 0x00 → ∀ rest, s.inputs = .regWrite n v :: rest →
      step s = .next (regWrite { s with inputs := rest } n v)) ∧
    (regWrite s 0x02 v = { s with version := v.setWidth 8 } ∧ regWrite s 0x03 v = { s with seqIn := v } ∧
      regWrite s 0x04 v = { s with cmdIn := v } ∧ regWrite s 0x05 v = { s with retcodeIn := v } ∧
      regWrite s 0x0D v = { s with ibufLen := v } ∧ regWrite s 0x0E v = { s with abufLen := v } ∧
      (n ≠ 0x00 → hostWritable n = false → regWrite s n v = s)) ∧
    (regRead s 0x00 = s.cmd ∧ regRead s 0x01 = s.status ∧ regRead s 0x02 = s.version.setWidth 32 ∧
      regRead s 0x03 = s.seqIn ∧ regRead s 0x04 = s.cmdIn ∧ regRead s 0x05 = s.retcodeIn ∧
      regRead s 0x06 = s.rSeq ∧ regRead s 0x07 = s.rCmd ∧ regRead s 0x08 = s.rRetcode ∧
      regRead s 0x09 = s.rLen ∧ regRead s 0x0A = s.rOffset ∧ regRead s 0x0B = s.rFramelen ∧
      regRead s 0x0C = s.rCrc ∧ regRead s 0x0D = s.ibufLen ∧ regRead s 0x0E = s.abufLen ∧
      regRead s 0x0F = s.obufLen) ∧
    (regRead s 0x10 = 0x54434601 ∧
      regRead s 0x11 = (if s.params.suffix55Counted then 1 else 0) + (if s.params.suffix66Counted then 2 else 0) ∧
      regRead s 0x12 = s.params.maxLen ∧ regRead s 0x13 = s.params.bufCap ∧ (0x14 ≤ m.toNat → regRead s m = 0)) ∧
    (n ≠ 0x00 →
      regRead (regWrite s n v) m =
        if m = n ∧ hostWritable n = true then (if n = 0x02 then v &&& 0xFF else v) else regRead s m)

/-- R70, R71, R73: a pending buffer write is performed by the step. A byte written to IBUF or ABUF reads back,
is marked, and changes no other byte; writes elsewhere change nothing. A host read of a byte of any buffer
that holds a specified value gives it, an output's byte too; addresses outside the buffers read 0. -/
def Obligations.BufferAccess : Prop :=
  ∀ (s : State) (a b : Word) (v : Byte),
    (∀ rest, s.inputs = .bufWrite a v :: rest → step s = .next (bufWrite { s with inputs := rest } a v)) ∧
    (inOperands s.cap a.toNat →
      bufRead (bufWrite s a v) a = v ∧ bufWrite s a v = { s with mem := (bufWrite s a v).mem } ∧
      (b ≠ a → (bufWrite s a v).mem.read b.toNat = s.mem.read b.toNat) ∧
      ∀ (buf : Buffer) (i : Nat),
        (bufWrite s a v).written buf i = (s.written buf i || decide (buf.base + i = a.toNat))) ∧
    (¬inOperands s.cap a.toNat → bufWrite s a v = s) ∧
    (inOperands s.cap a.toNat ∨ inOutput s.cap a.toNat → s.mem.read a.toNat = some v → bufRead s a = v) ∧
    (¬inOperands s.cap a.toNat → ¬inOutput s.cap a.toNat → bufRead s a = 0)

/-- R77, R442: with nothing pending TCF waits. A host read answers its value and changes nothing else, and
every register and every byte reads after it as before, an IBUF or ABUF byte that no host write has set too
(assumption 10). Only an OBUF byte that holds no specified value is drawn anew at each read (R73), which
uses up a free value (the model's own counter, assumption 3). -/
def Obligations.ReadsHaveNoSideEffect : Prop :=
  ∀ (s : State) (rest : List Access),
    (s.inputs = [] → step s = .next s) ∧
    (∀ n, s.inputs = .regRead n :: rest →
      step s = .next { s with inputs := rest, replies := s.replies ++ [.reg (regRead s n)] }) ∧
    (∀ a, s.inputs = .bufRead a :: rest →
      ∃ d, step s = .next { s with inputs := rest, replies := s.replies ++ [.byte (bufRead s a)], draws := d } ∧
        (inOperands s.cap a.toNat ∨ ¬inOutput s.cap a.toNat ∨ (s.mem.read a.toNat).isSome = true → d = s.draws)) ∧
    ∀ (x : Access) (t : State), (∃ n, x = .regRead n) ∨ (∃ a, x = .bufRead a) → s.inputs = x :: rest →
      step s = .next t →
      (∀ m, regRead t m = regRead s m) ∧
      ∀ b : Word, inOperands s.cap b.toNat ∨ ¬inOutput s.cap b.toNat ∨ (s.mem.read b.toNat).isSome = true →
        bufRead t b = bufRead s b

/-- R440, R441: the platform's reset puts every piece of the spec's state into its reset value, whatever it
was; the constants of the instance stand. -/
def Obligations.ResetPutsEverythingBack : Prop :=
  ∀ (s : State) (rest : List Access), s.inputs = .reset :: rest →
    ∃ t, step s = .next t ∧
      (∀ n : BitVec 8, n.toNat < 0x10 → regRead t n = 0) ∧ regRead t 0x10 = 0x54434601 ∧ t.params = s.params ∧
      t.keyLocal = List.replicate 16 0 ∧ t.keySrclen = 0 ∧ t.keyValid = false ∧
      t.keySession = List.replicate 16 0 ∧ t.negotiated = false ∧ t.nonce = List.replicate 12 0 ∧
      t.nonceValid = false ∧ (∀ a, t.mem.read a = none) ∧ (∀ b i, t.written b i = false) ∧ t.nlog = [] ∧ Clean t ∧
      t.inputs = rest ∧ t.replies = s.replies

/-- R79: accesses take effect in program order: what is still to come behind the next access changes nothing
of what that access does. -/
def Obligations.LaterAccessesWait : Prop :=
  ∀ (s t : State) (later : List Access), s.inputs ≠ [] → step s = .next t →
    step { s with inputs := s.inputs ++ later } = .next { t with inputs := t.inputs ++ later }

/-! ### Laws of the algorithms -/

/-- R177: decryption undoes encryption, for every key and block. -/
def Obligations.AesDecryptsItsEncryption : Prop :=
  ∀ k b : Bytes, k.length = 16 → b.length = 16 → (aesEnc k b).length = 16 ∧ aesDec k (aesEnc k b) = b

/-- R178: padding appends 1 to 16 bytes, each equal to their number, up to a multiple of 16. -/
def Obligations.PaddingLaw : Prop :=
  ∀ m : Bytes, ∃ p : Nat, p = 16 - m.length % 16 ∧ 1 ≤ p ∧ p ≤ 16 ∧
    pad m = m ++ List.replicate p (BitVec.ofNat 8 p) ∧ (pad m).length % 16 = 0 ∧
    (pad m).getLast? = some (BitVec.ofNat 8 p)

/-- R182: ECB decryption gives back every message, under every key, verified or not; a block of 0x10 bytes
unpads to nothing. -/
def Obligations.EcbRoundTrip : Prop :=
  (∀ (k m : Bytes) (vfy : Bool), k.length = 16 → ecbDec k (ecbEnc k m) vfy = .ok m) ∧
    ∀ vfy, unpad (List.replicate 16 0x10#8) vfy = .ok []

/-- R227 (a) and (b), R224: GCM decryption gives back every message with its tag, and refuses every other
tag; the ciphertext has the plaintext's length and the tag 16 bytes. -/
def Obligations.GcmRoundTrip : Prop :=
  ∀ k iv p a t : Bytes, k.length = 16 → iv.length = 12 →
    (gcmAE k iv p a).1.length = p.length ∧ (gcmAE k iv p a).2.length = 16 ∧
      gcmAD k iv (gcmAE k iv p a).1 (gcmAE k iv p a).2 a = some p ∧
      (t ≠ (gcmAE k iv p a).2 → gcmAD k iv (gcmAE k iv p a).1 t a = none)

/-- R304, R111, R112: the 55AA parser gives back every frame the builder makes, in each of the cases of
R304, and ignores what follows the frame. -/
def Obligations.Frame55RoundTrip : Prop :=
  ∀ (p : Params) (seq cmd : Word) (rc pl junk : Bytes) (tr : Trailer) (rcm : RcMode),
    (build55 p seq cmd rc pl tr).2 ≤ maxLen p →
    (rcm = .present ∧ rc.length = 4 ∨ rcm = .absent ∧ rc = [] ∨
      rcm = .auto ∧ rc.length = 4 ∧ rc.head? ≠ some 0x7B#8 ∨
      rcm = .auto ∧ rc = [] ∧ (pl = [] ∨ pl.head? = some 0x7B#8 ∨ pl.length < 4)) →
    parse55 p ((build55 p seq cmd rc pl tr).1 ++ junk) tr rcm =
      .ok
        { seq := seq
          cmd := cmd
          len := BitVec.ofNat 32 (build55 p seq cmd rc pl tr).2
          retcode := if rc = [] then 0 else beWord rc
          present := decide (rc ≠ [])
          trailerOk := true
          payload := pl
          total := (build55 p seq cmd rc pl tr).1.length }

/-- R304, R301, R113, R114: the same of the 6699 layout under the same key; with auto detection, under the
conditions of R301. -/
def Obligations.Frame66RoundTrip : Prop :=
  ∀ (p : Params) (seq cmd : Word) (rc pl junk k iv : Bytes) (rcm : RcMode),
    k.length = 16 → iv.length = 12 → (build66 p seq cmd rc pl k iv).2 ≤ maxLen p →
    (rcm = .present ∧ rc.length = 4 ∨ rcm = .absent ∧ rc = [] ∨
      rcm = .auto ∧ rc.length = 4 ∧
        (pl.take 3 = [0x33, 0x2E, 0x35] ∨ rc.head? ≠ some 0x7B#8 ∧ pl.head? = some 0x7B#8) ∨
      rcm = .auto ∧ rc = [] ∧ slice pl 4 7 ≠ [0x33, 0x2E, 0x35] ∧
        (pl.head? = some 0x7B#8 ∨ pl[4]? ≠ some 0x7B#8)) →
    parse66 p ((build66 p seq cmd rc pl k iv).1 ++ junk) k rcm =
      .ok
        { seq := seq
          cmd := cmd
          len := BitVec.ofNat 32 (build66 p seq cmd rc pl k iv).2
          retcode := if rc = [] then 0 else beWord rc
          present := decide (rc ≠ [])
          trailerOk := true
          payload := pl
          total := (build66 p seq cmd rc pl k iv).1.length }

/-- R359 (a): MSG_DECODE's function gives back what MSG_ENCODE's function made of it, with RC = absent and
any VFY. The premises are those of the law, with two made exact: the payload region must not be all zero,
and where no header is prepended the string that is stripped must not hold 15 bytes that begin with the
version. -/
def Obligations.MessageRoundTrip : Prop :=
  ∀ (p : Params) (v : PipeVersion) (seq cmd : Word) (pt k nonce region : Bytes) (vfy : Bool),
    k.length = 16 → nonce.length = 12 → (encodeMessage p v seq cmd pt k nonce).2 ≤ maxLen p →
    region = (match v with
      | .v33 => withHeader v cmd (ecbEnc k pt)
      | .v34 => ecbEnc k (withHeader v cmd pt)
      | .v35 => withHeader v cmd pt) →
    isEmptyPayload region = false →
    (cmd ∈ [3, 4, 5, 9, 10, 16, 18, 64] →
      (if v = .v33 then ecbEnc k pt else pt).length < 15 ∨
        (if v = .v33 then ecbEnc k pt else pt).take 3 ≠ v.string) →
    ∃ f : Parsed,
      decodeMessage p v (encodeMessage p v seq cmd pt k nonce).1 k .absent vfy =
        .ok { frame := f, data := pt, vh := decide (cmd ∉ [3, 4, 5, 9, 10, 16, 18, 64]), empty := false } ∧
      f.seq = seq ∧ f.cmd = cmd ∧ f.trailerOk = true ∧ f.present = false ∧
      f.total = (encodeMessage p v seq cmd pt k nonce).1.length
end

