-- ==== Sys2Proof/Laws/Bytes.lean ====
section
/-!
SUPPORT. The laws of byte strings: the lengths of what each operation answers, slices of concatenations,
the big-endian conversions as inverses, and the split of a string into pieces.
-/

namespace Sys2Proof.Machine

/-! ### Lengths -/

@[simp] theorem length_zeros (n : Nat) : (zeros n).length = n := by simp [zeros]
@[simp] theorem length_rep (v : Byte) (n : Nat) : (rep v n).length = n := by simp [rep]
@[simp] theorem length_be16 (v : BitVec 16) : (be16 v).length = 2 := rfl
@[simp] theorem length_be32 (v : Word) : (be32 v).length = 4 := rfl
@[simp] theorem length_be32Nat (n : Nat) : (be32Nat n).length = 4 := rfl
@[simp] theorem length_be64 (v : BitVec 64) : (be64 v).length = 8 := rfl
@[simp] theorem length_be128 (v : BitVec 128) : (be128 v).length = 16 := rfl

@[simp] theorem length_xorBytes (a b : Bytes) : (xorBytes a b).length = min a.length b.length := by
  simp [xorBytes]

@[simp] theorem length_slice (b : Bytes) (i j : Nat) : (slice b i j).length = min (j - i) (b.length - i) := by
  simp [slice]

/-! ### Exclusive or -/

/-- XOR with the same string twice gives the first string back. -/
theorem xorBytes_cancel {a b : Bytes} (h : a.length ≤ b.length) : xorBytes (xorBytes a b) b = a := by
  induction a generalizing b with
  | nil => rfl
  | cons x a ih =>
    cases b with
    | nil => simp at h
    | cons y b =>
      simp only [List.length_cons, Nat.add_le_add_iff_right] at h
      have : x ^^^ y ^^^ y = x := by rw [BitVec.xor_assoc, BitVec.xor_self, BitVec.xor_zero]
      simpa [xorBytes, this] using ih h

/-! ### Slices -/

/-- A slice that stands whole in the second part of a concatenation. -/
theorem slice_append_right {a b : Bytes} {i j : Nat} (h : a.length ≤ i) :
    slice (a ++ b) i j = slice b (i - a.length) (j - a.length) := by
  unfold slice
  rw [List.drop_append, List.drop_eq_nil_of_le h, List.nil_append]
  congr 1; omega

/-- A slice that stands whole in the first part of a concatenation. -/
theorem slice_append_left {a b : Bytes} {i j : Nat} (h : j ≤ a.length) : slice (a ++ b) i j = slice a i j := by
  unfold slice
  by_cases hij : i ≤ j
  · rw [List.drop_append_of_le_length (by omega), List.take_append_of_le_length (by simp; omega)]
  · rw [Nat.sub_eq_zero_of_le (by omega)]; rfl

/-- The middle part of a concatenation. -/
theorem slice_mid {a m b : Bytes} {i j : Nat} (hi : i = a.length) (hj : j = a.length + m.length) :
    slice (a ++ (m ++ b)) i j = m := by
  subst hi hj
  simp [slice]

/-- The first part of a concatenation as a slice. -/
theorem slice_prefix {m b : Bytes} {j : Nat} (hj : j = m.length) : slice (m ++ b) 0 j = m := by
  subst hj; simp [slice]

theorem slice_self (b : Bytes) : slice b 0 b.length = b := by simp [slice]

/-! ### Big-endian conversions -/

@[simp] theorem beNat_nil : beNat [] = 0 := rfl

/-- The last byte of a big-endian string weighs 1. -/
theorem beNat_append_singleton (b : Bytes) (v : Byte) : beNat (b ++ [v]) = beNat b * 256 + v.toNat := by
  simp [beNat, List.foldl_append]

/-- `BE32(be32(v)) = v` (00_scope.md R11). -/
@[simp] theorem beWord_be32 (v : Word) : beWord (be32 v) = v := by
  apply BitVec.eq_of_toNat_eq
  have := v.isLt
  simp only [beWord, be32, beNat, List.foldl_cons, List.foldl_nil, BitVec.toNat_ofNat, BitVec.extractLsb'_toNat,
    Nat.shiftRight_eq_div_pow, Nat.zero_mul, Nat.zero_add]
  omega

/-- `be32(BE32(b)) = b` for four bytes (00_scope.md R11). -/
theorem be32_beWord {b : Bytes} (h : b.length = 4) : be32 (beWord b) = b := by
  obtain ⟨b0, b1, b2, b3, rfl⟩ : ∃ b0 b1 b2 b3, b = [b0, b1, b2, b3] := by
    match b, h with
    | [b0, b1, b2, b3], _ => exact ⟨b0, b1, b2, b3, rfl⟩
  have h0 := b0.isLt
  have h1 := b1.isLt
  have h2 := b2.isLt
  have h3 := b3.isLt
  simp only [be32, beWord, beNat, List.foldl_cons, List.foldl_nil, List.cons.injEq, and_true]
  refine ⟨?_, ?_, ?_, ?_⟩ <;>
  · apply BitVec.eq_of_toNat_eq
    simp only [BitVec.extractLsb'_toNat, BitVec.toNat_ofNat, Nat.shiftRight_eq_div_pow, Nat.zero_mul, Nat.zero_add]
    omega

/-- The length field read back: a number below 2^32 comes back whole. -/
theorem beWord_be32Nat {n : Nat} (h : n < 2 ^ 32) : (beWord (be32Nat n)).toNat = n := by
  rw [be32Nat, beWord_be32, BitVec.toNat_ofNat, Nat.mod_eq_of_lt h]

/-! ### Pieces -/

@[simp] theorem chunks_nil (size : Nat) (h : 0 < size) : chunks size [] = [] := by
  have : ([] : Bytes).length + size - 1 < size := by simp; omega
  simp [chunks, Nat.div_eq_of_lt (by omega : size - 1 < size), pieces]

/-- A nonempty string's first piece, and the pieces of the rest. -/
theorem chunks_cons {size : Nat} {b : Bytes} (hs : 0 < size) (hb : b ≠ []) :
    chunks size b = b.take size :: chunks size (b.drop size) := by
  have hlen : 0 < b.length := List.length_pos_iff.2 hb
  unfold chunks
  rw [List.length_drop]
  by_cases h : size ≤ b.length
  · have : (b.length + size - 1) / size = (b.length - size + size - 1) / size + 1 := by
      rw [show b.length + size - 1 = b.length - size + size - 1 + size by omega, Nat.add_div_right _ hs]
    rw [this, pieces]
  · rw [show b.length - size = 0 by omega, Nat.zero_add, Nat.div_eq_of_lt (by omega : size - 1 < size),
      show (b.length + size - 1) / size = 1 from Nat.div_eq_of_lt_le (by omega) (by omega)]
    rfl

/-- Strings by pieces: to prove something of every string, prove it of the empty one and of a nonempty one
whose rest after one piece has it. -/
theorem chunks_induction {size : Nat} (hs : 0 < size) {P : Bytes → Prop} (nil : P [])
    (piece : ∀ b, b ≠ [] → P (b.drop size) → P b) (b : Bytes) : P b := by
  induction h : b.length using Nat.strong_induction_on generalizing b with
  | _ n ih =>
    by_cases hb : b = []
    · exact hb ▸ nil
    · have hlen : 0 < b.length := List.length_pos_iff.2 hb
      exact piece b hb (ih _ (by rw [List.length_drop]; omega) _ rfl)

/-- The pieces put together again are the string. -/
theorem flatten_chunks {size : Nat} (hs : 0 < size) (b : Bytes) : (chunks size b).flatten = b := by
  induction b using chunks_induction hs with
  | nil => simp [chunks_nil size hs]
  | piece b hb ih => rw [chunks_cons hs hb, List.flatten_cons, ih, List.take_append_drop]

/-- The pieces of a string that begins with one whole piece. -/
theorem chunks_append {size : Nat} {a b : Bytes} (hs : 0 < size) (ha : a.length = size) :
    chunks size (a ++ b) = a :: chunks size b := by
  have hne : a ++ b ≠ [] := by
    intro h
    rw [(List.append_eq_nil_iff.1 h).1, List.length_nil] at ha
    omega
  rw [chunks_cons hs hne]
  subst ha
  simp

/-- Every piece of a string of whole pieces has the size. -/
theorem length_of_mem_chunks {size : Nat} (hs : 0 < size) {b : Bytes} (hb : size ∣ b.length) :
    ∀ c ∈ chunks size b, c.length = size := by
  induction b using chunks_induction hs with
  | nil => simp [chunks_nil size hs]
  | piece b hne ih =>
    have hlen : 0 < b.length := List.length_pos_iff.2 hne
    have hle : size ≤ b.length := Nat.le_of_dvd hlen hb
    rw [chunks_cons hs hne]
    intro c hc
    rcases List.mem_cons.1 hc with rfl | hc
    · simp; omega
    · exact ih (by rw [List.length_drop]; exact Nat.dvd_sub hb (Nat.dvd_refl _)) c hc

/-- A map over the pieces that keeps the size of each keeps the length of the whole. -/
theorem length_flatMap_chunks {size : Nat} (hs : 0 < size) {f : Bytes → Bytes} (b : Bytes)
    (hf : ∀ c ∈ chunks size b, (f c).length ≤ c.length) : ((chunks size b).flatMap f).length ≤ b.length := by
  induction b using chunks_induction hs with
  | nil => simp [chunks_nil size hs]
  | piece b hne ih =>
    rw [chunks_cons hs hne] at hf ⊢
    have h1 := hf _ List.mem_cons_self
    have h2 := ih fun c hc => hf c (List.mem_cons_of_mem _ hc)
    rw [List.flatMap_cons, List.length_append]
    rw [List.length_take] at h1
    rw [List.length_drop] at h2
    omega

end Sys2Proof.Machine
end

