-- ==== Sys2Proof/Laws/Aes.lean ====
section
/-!
SUPPORT. The laws of the AES functions: the lengths of what they answer, that each step of a round undoes
its inverse, and how a whole encryption or decryption begins and ends with its rounds.
-/

namespace Sys2Proof.Machine

/-! ### Lengths -/

@[simp] theorem length_subBytes (s : Bytes) : (subBytes s).length = s.length := by simp [subBytes]
@[simp] theorem length_invSubBytes (s : Bytes) : (invSubBytes s).length = s.length := by simp [invSubBytes]

@[simp] theorem length_shiftRows (s : Bytes) : (shiftRows s).length = s.length := by
  unfold shiftRows; split <;> rfl

@[simp] theorem length_invShiftRows (s : Bytes) : (invShiftRows s).length = s.length := by
  unfold invShiftRows; split <;> rfl

@[simp] theorem length_mixWith (m0 m1 m2 m3 : Byte) (s : Bytes) : (mixWith m0 m1 m2 m3 s).length = s.length := by
  induction s using mixWith.induct with
  | case1 a0 a1 a2 a3 rest ih => simp [mixWith, mixColumn, ih]
  | case2 s h => rw [mixWith]; exact h

@[simp] theorem length_mixColumns (s : Bytes) : (mixColumns s).length = s.length := length_mixWith ..
@[simp] theorem length_invMixColumns (s : Bytes) : (invMixColumns s).length = s.length := length_mixWith ..

/-- A round key has the length of the key before it, for a 16-byte key. -/
theorem length_nextRoundKey {k : Bytes} (h : k.length = 16) (rc : Byte) : (nextRoundKey k rc).length = 16 := by
  unfold nextRoundKey
  split
  · rfl
  · exact h

theorem length_of_mem_roundKeysFrom {k : Bytes} (h : k.length = 16) (rcs : List Byte) :
    ∀ rk ∈ roundKeysFrom k rcs, rk.length = 16 := by
  induction rcs generalizing k with
  | nil => simp [roundKeysFrom]
  | cons rc rcs ih =>
    intro rk hrk
    rcases List.mem_cons.1 hrk with rfl | hrk
    · exact length_nextRoundKey h rc
    · exact ih (length_nextRoundKey h rc) rk hrk

/-- Every round key of a 16-byte key has 16 bytes (R174). -/
theorem length_of_mem_roundKeys {k : Bytes} (h : k.length = 16) : ∀ rk ∈ roundKeys k, rk.length = 16 :=
  length_of_mem_roundKeysFrom h _

/-- There are ten round keys after the key itself (R174). -/
@[simp] theorem length_roundKeys (k : Bytes) : (roundKeys k).length = 10 := rfl

theorem length_encRounds {n : Nat} {s : Bytes} (hs : s.length = n) {rks : List Bytes}
    (h : ∀ rk ∈ rks, rk.length = n) : (encRounds s rks).length = n := by
  induction rks generalizing s with
  | nil => exact hs
  | cons rk rest ih =>
    have hrk := h rk List.mem_cons_self
    cases rest with
    | nil => simp [encRounds, hs, hrk]
    | cons rk' rest => exact ih (by simp [hs, hrk]) fun x hx => h x (List.mem_cons_of_mem _ hx)

theorem length_decRounds {n : Nat} {s : Bytes} (hs : s.length = n) {rks : List Bytes}
    (h : ∀ rk ∈ rks, rk.length = n) : (decRounds s rks).length = n := by
  induction rks generalizing s with
  | nil => exact hs
  | cons rk rest ih =>
    have hrk := h rk List.mem_cons_self
    cases rest with
    | nil => simp [decRounds, decRound, hs, hrk]
    | cons rk' rest => exact ih (by simp [decRound, hs, hrk]) fun x hx => h x (List.mem_cons_of_mem _ hx)

/-- `AES_Enc` answers 16 bytes (R176). -/
theorem length_aesEnc {k b : Bytes} (hk : k.length = 16) (hb : b.length = 16) : (aesEnc k b).length = 16 :=
  length_encRounds (by simp [hk, hb]) (length_of_mem_roundKeys hk)

/-- `AES_Dec` answers 16 bytes (R177). -/
theorem length_aesDec {k b : Bytes} (hk : k.length = 16) (hb : b.length = 16) : (aesDec k b).length = 16 := by
  have hmem : ∀ rk ∈ (k :: roundKeys k).reverse, rk.length = 16 := by
    intro rk h
    rcases List.mem_cons.1 (List.mem_reverse.1 h) with rfl | h
    · exact hk
    · exact length_of_mem_roundKeys hk rk h
  unfold aesDec
  split
  · exact hb
  · next rk10 rest heq =>
    rw [heq] at hmem
    exact length_decRounds (by simp [hb, hmem rk10 List.mem_cons_self]) fun x hx =>
      hmem x (List.mem_cons_of_mem _ hx)

/-- Whatever the key, the rounds never answer more bytes than they get. -/
theorem length_encRounds_le (s : Bytes) (rks : List Bytes) : (encRounds s rks).length ≤ s.length := by
  induction rks generalizing s with
  | nil => exact Nat.le_refl _
  | cons rk rest ih =>
    cases rest with
    | nil => simp [encRounds]
    | cons rk' rest => exact Nat.le_trans (ih _) (by simp)

theorem length_decRounds_le (s : Bytes) (rks : List Bytes) : (decRounds s rks).length ≤ s.length := by
  induction rks generalizing s with
  | nil => exact Nat.le_refl _
  | cons rk rest ih =>
    cases rest with
    | nil => simp [decRounds, decRound]
    | cons rk' rest => exact Nat.le_trans (ih _) (by simp [decRound])

theorem length_aesEnc_le (k b : Bytes) : (aesEnc k b).length ≤ b.length :=
  Nat.le_trans (length_encRounds_le _ _) (by simp)

theorem length_aesDec_le (k b : Bytes) : (aesDec k b).length ≤ b.length := by
  unfold aesDec
  split
  · exact Nat.le_refl _
  · exact Nat.le_trans (length_decRounds_le _ _) (by simp)

/-! ### The steps of a round and their inverses -/

theorem xor_xor_xor_cancel (x y c : Byte) : x ^^^ y = (x ^^^ c) ^^^ (y ^^^ c) := by
  rw [BitVec.xor_comm y c, ← BitVec.xor_assoc, BitVec.xor_assoc x c c, BitVec.xor_self, BitVec.xor_zero]

theorem xtime_xor (a b : Byte) : xtime (a ^^^ b) = xtime a ^^^ xtime b := by
  unfold xtime
  rw [BitVec.shiftLeft_xor_distrib, BitVec.msb_xor]
  cases a.msb <;> cases b.msb <;>
    simp only [Bool.xor_false, Bool.xor_true, Bool.not_true, Bool.not_false, Bool.false_eq_true, if_true, if_false,
      BitVec.xor_zero]
  · exact BitVec.xor_assoc _ _ _
  · rw [BitVec.xor_assoc, BitVec.xor_comm (b <<< 1), ← BitVec.xor_assoc]
  · exact xor_xor_xor_cancel _ _ _

theorem gmulBits_xor (n : Nat) (a b c : Byte) : gmulBits n (a ^^^ b) c = gmulBits n a c ^^^ gmulBits n b c := by
  induction n generalizing a b c with
  | zero => exact (BitVec.xor_self).symm
  | succ n ih =>
    unfold gmulBits
    rw [xtime_xor, ih]
    cases c.getLsbD 0 <;> simp only [Bool.false_eq_true, if_true, if_false] <;> ac_rfl

/-- Multiplication distributes over addition (R172). -/
theorem gmul_xor (a b c : Byte) : gmul (a ^^^ b) c = gmul a c ^^^ gmul b c := gmulBits_xor 8 a b c

/-- Two constant factors in turn are one factor, and a sum of such factors is the factor summed: what the
columns of InvMixColumns after MixColumns come to, each factor 1 or 0 (R175). -/
theorem gmul_mix (a : Byte) :
    gmul (gmul a 0x02) 0x0E ^^^ gmul (gmul a 0x01) 0x0B ^^^ gmul (gmul a 0x01) 0x0D ^^^ gmul (gmul a 0x03) 0x09 = a
      ∧ gmul (gmul a 0x03) 0x0E ^^^ gmul (gmul a 0x02) 0x0B ^^^ gmul (gmul a 0x01) 0x0D ^^^ gmul (gmul a 0x01) 0x09 = 0
      ∧ gmul (gmul a 0x01) 0x0E ^^^ gmul (gmul a 0x03) 0x0B ^^^ gmul (gmul a 0x02) 0x0D ^^^ gmul (gmul a 0x01) 0x09 = 0
      ∧ gmul (gmul a 0x01) 0x0E ^^^ gmul (gmul a 0x01) 0x0B ^^^ gmul (gmul a 0x03) 0x0D ^^^ gmul (gmul a 0x02) 0x09 = 0 := by
  revert a
  decide +kernel

/-- InvS undoes S (R173). -/
theorem invSbox_sbox : ∀ a : Byte, invSbox (sbox a) = a := by decide +kernel

theorem invSubBytes_subBytes (s : Bytes) : invSubBytes (subBytes s) = s := by
  have h : invSbox ∘ sbox = id := funext invSbox_sbox
  simp [invSubBytes, subBytes, h]

theorem invShiftRows_shiftRows {s : Bytes} (h : s.length = 16) : invShiftRows (shiftRows s) = s := by
  match s, h with
  | [_, _, _, _, _, _, _, _, _, _, _, _, _, _, _, _], _ => rfl

/-- InvMixColumns undoes MixColumns on a column (R175). -/
theorem mixColumn_inverse (a b c d : Byte) : mixColumn 0x0E 0x0B 0x0D 0x09
    (gmul a 0x02 ^^^ gmul b 0x03 ^^^ gmul c 0x01 ^^^ gmul d 0x01)
    (gmul b 0x02 ^^^ gmul c 0x03 ^^^ gmul d 0x01 ^^^ gmul a 0x01)
    (gmul c 0x02 ^^^ gmul d 0x03 ^^^ gmul a 0x01 ^^^ gmul b 0x01)
    (gmul d 0x02 ^^^ gmul a 0x03 ^^^ gmul b 0x01 ^^^ gmul c 0x01) = [a, b, c, d] := by
  have h : ∀ a b c d : Byte, 
    gmul (gmul a 0x02 ^^^ gmul b 0x03 ^^^ gmul c 0x01 ^^^ gmul d 0x01) 0x0E ^^^
    gmul (gmul b 0x02 ^^^ gmul c 0x03 ^^^ gmul d 0x01 ^^^ gmul a 0x01) 0x0B ^^^
    gmul (gmul c 0x02 ^^^ gmul d 0x03 ^^^ gmul a 0x01 ^^^ gmul b 0x01) 0x0D ^^^
    gmul (gmul d 0x02 ^^^ gmul a 0x03 ^^^ gmul b 0x01 ^^^ gmul c 0x01) 0x09 = a := by
    intro a b c d
    simp only [gmul_xor]
    have ha := (gmul_mix a).1
    have hb := (gmul_mix b).2.1
    have hc := (gmul_mix c).2.2.1
    have hd := (gmul_mix d).2.2.2
    calc _ = (gmul (gmul a 0x02) 0x0E ^^^ gmul (gmul a 0x01) 0x0B ^^^ gmul (gmul a 0x01) 0x0D ^^^ gmul (gmul a 0x03) 0x09) ^^^
             (gmul (gmul b 0x03) 0x0E ^^^ gmul (gmul b 0x02) 0x0B ^^^ gmul (gmul b 0x01) 0x0D ^^^ gmul (gmul b 0x01) 0x09) ^^^
             (gmul (gmul c 0x01) 0x0E ^^^ gmul (gmul c 0x03) 0x0B ^^^ gmul (gmul c 0x02) 0x0D ^^^ gmul (gmul c 0x01) 0x09) ^^^
             (gmul (gmul d 0x01) 0x0E ^^^ gmul (gmul d 0x01) 0x0B ^^^ gmul (gmul d 0x03) 0x0D ^^^ gmul (gmul d 0x02) 0x09) := by ac_rfl
      _ = a := by rw [ha, hb, hc, hd]; simp
  unfold mixColumn
  rw [h a b c d, h b c d a, h c d a b, h d a b c]

theorem invMixColumns_mixColumns (s : Bytes) : invMixColumns (mixColumns s) = s := by
  unfold invMixColumns mixColumns
  induction s using mixWith.induct with
  | case1 a b c d rest ih =>
    rw [mixWith]
    unfold mixColumn
    simp only [List.cons_append, List.nil_append]
    rw [mixWith, ih, mixColumn_inverse]; rfl
  | case2 s h => 
    rw [mixWith.eq_2 _ _ _ _ _ h, mixWith.eq_2 _ _ _ _ _ h]

theorem decRounds_cons {s rk : Bytes} {rest : List Bytes} (h : rest ≠ []) :
    decRounds s (rk :: rest) = decRounds (invMixColumns (decRound s rk)) rest := by
  cases rest with
  | nil => exact absurd rfl h
  | cons a b => rfl

end Sys2Proof.Machine
end

