-- ==== Sys2Proof/Laws/Ecb.lean ====
section
/-!
SUPPORT. The laws of PKCS#7 padding and ECB: the lengths of what they answer, and how an answer of the
decrypting side comes about.
-/

namespace Sys2Proof.Machine

/-- The padded length (R178). -/
theorem length_pad (m : Bytes) : (pad m).length = 16 * (m.length / 16 + 1) := by
  simp only [pad, List.length_append, length_rep]
  omega

/-- What unpadding answers is a prefix of what it gets (R179). -/
theorem unpad_ok {d m : Bytes} {vfy : Bool} (h : unpad d vfy = .ok m) : ∃ n, m = d.take n := by
  unfold unpad at h
  split at h
  · cases h
  · next p _ =>
    split at h
    · cases h
    · split at h
      · cases h
      · split at h
        · cases h
        · exact ⟨_, (Except.ok.inj h).symm⟩

theorem length_of_unpad {d m : Bytes} {vfy : Bool} (h : unpad d vfy = .ok m) : m.length ≤ d.length := by
  obtain ⟨n, rfl⟩ := unpad_ok h
  simp

/-- Unpadding fails with ERR_BAD_PADDING only (R179). -/
theorem unpad_error {d : Bytes} {vfy : Bool} {e : ErrCode} (h : unpad d vfy = .error e) : e = .badPadding := by
  unfold unpad at h
  split at h
  · exact (Except.error.inj h).symm
  · split at h
    · exact (Except.error.inj h).symm
    · split at h
      · exact (Except.error.inj h).symm
      · split at h
        · exact (Except.error.inj h).symm
        · cases h

/-- What ECB decryption answers is no longer than the ciphertext (R181). -/
theorem length_of_ecbDec {k c m : Bytes} {vfy : Bool} (h : ecbDec k c vfy = .ok m) : m.length ≤ c.length := by
  unfold ecbDec at h
  split at h
  · cases h
  · split at h
    · cases h
    · exact Nat.le_trans (length_of_unpad h) (length_flatMap_chunks (by decide) c fun b _ => length_aesDec_le k b)

/-- ECB decryption fails with ERR_BAD_PADDING or ERR_OPERAND_LEN (R181). -/
theorem ecbDec_error {k c : Bytes} {vfy : Bool} {e : ErrCode} (h : ecbDec k c vfy = .error e) :
    e = .badPadding ∨ e = .operandLen := by
  unfold ecbDec at h
  split at h
  · exact .inl (Except.error.inj h).symm
  · split at h
    · exact .inr (Except.error.inj h).symm
    · exact .inl (unpad_error h)

/-- Unpadding a string that ends as a padded one does (R179). -/
theorem unpad_append {m tail : Bytes} {p : Byte} {vfy : Bool} (hl : tail.length = p.toNat) (h1 : 1 ≤ p.toNat)
    (h2 : p.toNat ≤ 16) (hlast : tail.getLast? = some p) (hv : vfy = true → ∀ b ∈ tail, b = p) :
    unpad (m ++ tail) vfy = .ok m := by
  unfold unpad
  rw [show (m ++ tail).getLast? = some p by simp [List.getLast?_append, hlast]]
  dsimp only
  rw [if_neg (by omega), if_neg (by simp; omega)]
  have : (m ++ tail).length - p.toNat = m.length := by simp; omega
  rw [this, List.drop_left, List.take_left, if_neg]
  intro h
  simp only [Bool.and_eq_true, List.any_eq_true] at h
  obtain ⟨hv', b, hb, hne⟩ := h
  simp [hv hv' b hb] at hne

theorem length_flatMap_aesEnc {k : Bytes} (hk : k.length = 16) {l : List Bytes} (h : ∀ b ∈ l, b.length = 16) :
    (l.flatMap (aesEnc k)).length = l.flatten.length := by
  induction l with
  | nil => rfl
  | cons x l ih =>
    simp only [List.flatMap_cons, List.length_append, List.flatten_cons]
    rw [length_aesEnc hk (h x (by simp)), ih (fun b hb => h b (by simp [hb])), h x (by simp)]

/-- The length of an ECB ciphertext (R180). -/
theorem length_ecbEnc {k : Bytes} (hk : k.length = 16) (m : Bytes) :
    (ecbEnc k m).length = 16 * (m.length / 16 + 1) := by
  unfold ecbEnc
  rw [length_flatMap_aesEnc hk, flatten_chunks (by decide), length_pad]
  exact length_of_mem_chunks (by decide) (by rw [length_pad]; exact ⟨_, rfl⟩)

/-- The same as a bound, whatever the key's length. -/
theorem length_ecbEnc_le (k m : Bytes) : (ecbEnc k m).length ≤ 16 * (m.length / 16 + 1) := by
  have h : ∀ l : List Bytes, (l.flatMap (aesEnc k)).length ≤ l.flatten.length := by
    intro l
    induction l with
    | nil => simp
    | cons x l ih =>
      simp only [List.flatMap_cons, List.length_append, List.flatten_cons]
      have := length_aesEnc_le k x
      omega
  have := h (chunks 16 (pad m))
  rwa [flatten_chunks (by decide), length_pad] at this

/-- What unpadding refuses (R179): a last byte that counts no padding that is there, and with verification a
counted byte that differs from it. -/
theorem unpad_refuses {d : Bytes} {vfy : Bool} {p : Byte} (h : d.getLast? = some p)
    (hb : p = 0 ∨ 16 < p.toNat ∨ d.length < p.toNat ∨
      (vfy = true ∧ ∃ m tail b, d = m ++ tail ∧ tail.length = p.toNat ∧ b ∈ tail ∧ b ≠ p)) :
    unpad d vfy = .error .badPadding := by
  unfold unpad
  rw [h]
  dsimp only
  split
  · rfl
  · next h1 =>
    split
    · rfl
    · next h2 =>
      rw [if_pos]
      rcases hb with rfl | hb | hb | ⟨rfl, m, tail, b, rfl, hl, hb, hne⟩
      · exact absurd (.inl rfl) h1
      · exact absurd (.inr hb) h1
      · exact absurd hb h2
      · have : (m ++ tail).length - p.toNat = m.length := by simp; omega
        rw [this, List.drop_left]
        simpa using ⟨b, hb, hne⟩

end Sys2Proof.Machine
end

