-- ==== Sys2Proof/Laws/Gcm.lean ====
section
/-!
SUPPORT. The laws of the GCM functions: the lengths of what they answer, and GCTR as its own inverse.
-/

namespace Sys2Proof.Machine

theorem length_inc32 {b : Bytes} (h : b.length = 16) : (inc32 b).length = 16 := by simp [inc32, h]

theorem length_gcmJ0 {iv : Bytes} (h : iv.length = 12) : (gcmJ0 iv).length = 16 := by simp [gcmJ0, h]

/-- The pieces of a counter-mode string: each no longer than a block. -/
theorem length_le_of_mem_chunks {size : Nat} (hs : 0 < size) (b : Bytes) : ∀ c ∈ chunks size b, c.length ≤ size := by
  induction b using chunks_induction hs with
  | nil => simp [chunks_nil size hs]
  | piece b hne ih =>
    rw [chunks_cons hs hne]
    intro c hc
    rcases List.mem_cons.1 hc with rfl | hc
    · simp
    · exact ih c hc

theorem length_gctrBlocks {k cb : Bytes} (hk : k.length = 16) (hcb : cb.length = 16) {xs : List Bytes}
    (h : ∀ x ∈ xs, x.length ≤ 16) : (gctrBlocks k cb xs).length = xs.flatten.length := by
  induction xs generalizing cb with
  | nil => rfl
  | cons x rest ih =>
    have hx := h x List.mem_cons_self
    simp [gctrBlocks, length_aesEnc hk hcb, ih (length_inc32 hcb) fun y hy => h y (List.mem_cons_of_mem _ hy)]
    omega

/-- GCTR answers as many bytes as it gets (R223). -/
theorem length_gctr {k icb : Bytes} (hk : k.length = 16) (hicb : icb.length = 16) (x : Bytes) :
    (gctr k icb x).length = x.length := by
  rw [gctr, length_gctrBlocks hk hicb (length_le_of_mem_chunks (by decide) x), flatten_chunks (by decide)]

theorem length_gctrBlocks_le (k cb : Bytes) (xs : List Bytes) : (gctrBlocks k cb xs).length ≤ xs.flatten.length := by
  induction xs generalizing cb with
  | nil => exact Nat.le_refl _
  | cons x rest ih =>
    have := ih (inc32 cb)
    rw [gctrBlocks, List.flatten_cons, List.length_append, List.length_append, length_xorBytes]
    omega

/-- Whatever the key, GCTR never answers more bytes than it gets. -/
theorem length_gctr_le (k icb x : Bytes) : (gctr k icb x).length ≤ x.length := by
  have := length_gctrBlocks_le k icb (chunks 16 x)
  rwa [flatten_chunks (by decide)] at this

/-- Two counter-mode passes with the same key and counter give the string back (R223). -/
theorem gctr_gctr {k icb : Bytes} (hk : k.length = 16) (hicb : icb.length = 16) (x : Bytes) :
    gctr k icb (gctr k icb x) = x := by
  induction x using chunks_induction (size := 16) (by decide) generalizing icb with
  | nil => simp [gctr, gctrBlocks]
  | piece x hne ih =>
    have hg : ∀ y, gctr k (inc32 icb) y = gctrBlocks k (inc32 icb) (chunks 16 y) := fun _ => rfl
    have hlen : 0 < x.length := List.length_pos_iff.2 hne
    have e1 : gctr k icb x = xorBytes (x.take 16) (aesEnc k icb) ++ gctr k (inc32 icb) (x.drop 16) := by
      rw [gctr, chunks_cons (by decide) hne, gctrBlocks, hg]
    have haes := length_aesEnc hk hicb
    have hrest := length_gctr hk (length_inc32 hicb) (x.drop 16)
    have hne' : gctr k icb x ≠ [] := by
      intro h
      have := congrArg List.length h
      rw [length_gctr hk hicb, List.length_nil] at this
      omega
    rw [gctr, chunks_cons (by decide) hne', gctrBlocks, ← hg]
    have hx : (xorBytes (x.take 16) (aesEnc k icb)).length = min 16 x.length := by simp [haes]
    by_cases h16 : 16 ≤ x.length
    · have t1 : (gctr k icb x).take 16 = xorBytes (x.take 16) (aesEnc k icb) := by
        rw [e1, List.take_append_of_le_length (by omega), List.take_of_length_le (by omega)]
      have t2 : (gctr k icb x).drop 16 = gctr k (inc32 icb) (x.drop 16) := by
        rw [e1, List.drop_append_of_le_length (by omega), List.drop_eq_nil_of_le (by omega), List.nil_append]
      rw [t1, t2, ih (length_inc32 hicb), xorBytes_cancel (by simp [haes]), List.take_append_drop]
    · have d0 : x.drop 16 = [] := List.drop_eq_nil_of_le (by omega)
      have g0 : gctr k (inc32 icb) [] = [] := by simp [gctr, gctrBlocks]
      have e2 : gctr k icb x = xorBytes (x.take 16) (aesEnc k icb) := by rw [e1, d0, g0, List.append_nil]
      have d1 : (gctr k icb x).drop 16 = [] := List.drop_eq_nil_of_le (by rw [length_gctr hk hicb]; omega)
      rw [d1, g0, List.append_nil, List.take_of_length_le (by rw [length_gctr hk hicb]; omega), e2,
        xorBytes_cancel (by simp [haes]), List.take_of_length_le (by omega)]

/-- The ciphertext is as long as the plaintext (R224). -/
theorem length_gcmAE_fst {k iv : Bytes} (hk : k.length = 16) (hiv : iv.length = 12) (p a : Bytes) :
    (gcmAE k iv p a).1.length = p.length :=
  length_gctr hk (length_inc32 (length_gcmJ0 hiv)) p

theorem length_ghash (h x : Bytes) : (ghash h x).length = 16 := rfl

/-- The tag has 16 bytes (R224). -/
theorem length_gcmTag {k iv : Bytes} (hk : k.length = 16) (hiv : iv.length = 12) (c a : Bytes) :
    (gcmTag k iv c a).length = 16 := by
  rw [gcmTag, length_gctr hk (length_gcmJ0 hiv), length_ghash]

theorem length_gcmAE_snd {k iv : Bytes} (hk : k.length = 16) (hiv : iv.length = 12) (p a : Bytes) :
    (gcmAE k iv p a).2.length = 16 := length_gcmTag hk hiv _ a

/-- What GCM_AD answers is no longer than the ciphertext (R225). -/
theorem length_of_gcmAD {k iv c t a p : Bytes} (h : gcmAD k iv c t a = some p) : p.length ≤ c.length := by
  unfold gcmAD at h
  split at h
  · cases h; exact length_gctr_le ..
  · cases h

/-- A single block under GCTR (R223). -/
theorem gctr_block {k icb x : Bytes} (h : x.length = 16) : gctr k icb x = xorBytes x (aesEnc k icb) := by
  have hc : chunks 16 x = [x] := by simpa using chunks_append (b := []) (by decide : 0 < 16) h
  simp [gctr, hc, gctrBlocks]

/-- The first counter block after J0 (R224). -/
theorem inc32_gcmJ0 {iv : Bytes} (h : iv.length = 12) : inc32 (gcmJ0 iv) = iv ++ [0, 0, 0, 2] := by
  unfold inc32 gcmJ0
  rw [← h, List.take_left, List.drop_left]
  rfl

/-- With the tag of the ciphertext, decryption answers the plaintext (R225). -/
theorem gcmAD_of_tag {k iv c t a : Bytes} (hiv : iv.length = 12) (h : gcmTag k iv c a = t) :
    gcmAD k iv c t a = some (gctr k (iv ++ [0, 0, 0, 2]) c) := by
  rw [gcmAD, if_pos h, inc32_gcmJ0 hiv]

/-- With another tag, it answers nothing (R225). -/
theorem gcmAD_of_not_tag {k iv c t a : Bytes} (h : gcmTag k iv c a ≠ t) : gcmAD k iv c t a = none := by
  rw [gcmAD, if_neg h]

end Sys2Proof.Machine
end

