-- ==== Sys2Proof/Laws/Hash.lean ====
section
/-!
SUPPORT. The lengths of what the hash functions answer.
-/

namespace Sys2Proof.Machine

/-- `SHA256` answers 32 bytes (R251). -/
@[simp] theorem length_sha256 (m : Bytes) : (sha256 m).length = 32 := rfl

/-- `HMAC` answers 32 bytes (R252). -/
@[simp] theorem length_hmac (k m : Bytes) : (hmac k m).length = 32 := rfl

end Sys2Proof.Machine
end

