-- ==== Sys2Proof/Laws/Frame.lean ====
section
/-!
SUPPORT. The laws of the frame codec and the pipeline: the lengths of built frames, what an accepted frame
has passed, that no parser answers more bytes than it gets, and that a legal retcode mode never makes one
fail as an illegal command.
-/

namespace Sys2Proof.Machine

/-! ### Builders -/

@[simp] theorem Trailer.length_bytes (tr : Trailer) (f : Bytes) : (tr.bytes f).length = tr.size := by
  cases tr <;> rfl

/-- A 55AA frame has 20 bytes beside its retcode, payload and trailer (R293). -/
theorem length_build55 (p : Params) (seq cmd : Word) (rc pl : Bytes) (tr : Trailer) :
    (build55 p seq cmd rc pl tr).1.length = 20 + rc.length + pl.length + tr.size := by
  simp [build55, tagP55, tagS55]
  omega

/-- A 6699 frame has 50 bytes beside its retcode and payload (R295). -/
theorem length_build66 (p : Params) (seq cmd : Word) (rc pl : Bytes) {k iv : Bytes} (hk : k.length = 16)
    (hiv : iv.length = 12) : (build66 p seq cmd rc pl k iv).1.length = 50 + rc.length + pl.length := by
  simp [build66, tagP66, tagS66, length_gcmAE_fst hk hiv, length_gcmAE_snd hk hiv, hiv]
  omega

/-! ### Parsers -/

theorem detect55_error {r : Bytes} {rcm : RcMode} {e : ErrCode} (h : detect55 r rcm = .error e) :
    e = .short ∨ rcm = .reserved := by
  cases rcm with
  | auto =>
    simp only [detect55] at h
    repeat' (split at h)
    all_goals cases h
  | absent => cases h
  | present =>
    simp only [detect55] at h
    split at h
    · exact .inl (Except.error.inj h).symm
    · cases h
  | reserved => exact .inr rfl

theorem detect66_error {r : Bytes} {rcm : RcMode} {e : ErrCode} (h : detect66 r rcm = .error e) :
    e = .short ∨ rcm = .reserved := by
  cases rcm with
  | auto =>
    simp only [detect66] at h
    repeat' (split at h)
    all_goals cases h
  | absent => cases h
  | present =>
    simp only [detect66] at h
    split at h
    · exact .inl (Except.error.inj h).symm
    · cases h
  | reserved => exact .inr rfl

theorem length_regionPayload (present : Bool) (r : Bytes) : (regionPayload present r).length ≤ r.length := by
  unfold regionPayload
  split
  · simp
  · exact Nat.le_refl _

/-- What an accepted 55AA frame has passed, and what its fields are (R294). -/
theorem parse55_ok {p : Params} {inp : Bytes} {tr : Trailer} {rcm : RcMode} {f : Parsed}
    (h : parse55 p inp tr rcm = .ok f) :
    prefixOK inp tagP55 = true ∧ 16 ≤ inp.length ∧
      ∃ l, l = (beWord (slice inp 12 16)).toNat ∧ l ≤ maxLen p ∧ tr.size + suffix55 p ≤ l ∧
        16 + (l - suffix55 p) + 4 ≤ inp.length ∧
        slice inp (16 + (l - suffix55 p)) (16 + (l - suffix55 p) + 4) = tagS55 ∧
        parse55Body inp tr rcm (16 + (l - suffix55 p) + 4) = .ok f := by
  unfold parse55 at h
  split at h
  · cases h
  · next hp =>
    split at h
    · cases h
    · next h16 =>
      dsimp only at h
      split at h
      · cases h
      · next hmax =>
        split at h
        · cases h
        · next hmin =>
          split at h
          · cases h
          · next hlen =>
            split at h
            · cases h
            · next hsuf =>
              refine ⟨by simpa using hp, by omega, _, rfl, by omega, by omega, by omega, ?_, h⟩
              simpa using hsuf

/-- The fields of an accepted 55AA frame whose suffix has been found (R294). -/
theorem parse55Body_ok {inp : Bytes} {tr : Trailer} {rcm : RcMode} {total : Nat} {f : Parsed}
    (h : parse55Body inp tr rcm total = .ok f) :
    ∃ present, detect55 (slice inp 16 (total - 4 - tr.size)) rcm = .ok present ∧
      f = { seq := beWord (slice inp 4 8)
            cmd := beWord (slice inp 8 12)
            len := beWord (slice inp 12 16)
            retcode := regionRetcode present (slice inp 16 (total - 4 - tr.size))
            present := present
            trailerOk := decide (tr.bytes (inp.take (total - 4 - tr.size)) =
              slice inp (total - 4 - tr.size) (total - 4))
            payload := regionPayload present (slice inp 16 (total - 4 - tr.size))
            total := total } := by
  unfold parse55Body at h
  dsimp only at h
  split at h
  · cases h
  · next present hd => exact ⟨present, hd, (Except.ok.inj h).symm⟩

/-- An accepted 55AA frame lies within the input, and its payload is no longer (R294). -/
theorem parse55_bounds {p : Params} {inp : Bytes} {tr : Trailer} {rcm : RcMode} {f : Parsed}
    (h : parse55 p inp tr rcm = .ok f) : f.payload.length ≤ inp.length ∧ f.total ≤ inp.length := by
  obtain ⟨-, -, l, -, -, -, hlen, -, hb⟩ := parse55_ok h
  obtain ⟨present, -, rfl⟩ := parse55Body_ok hb
  refine ⟨Nat.le_trans (length_regionPayload _ _) ?_, hlen⟩
  rw [length_slice]
  omega

theorem parse55_error {p : Params} {inp : Bytes} {tr : Trailer} {rcm : RcMode} {e : ErrCode}
    (h : parse55 p inp tr rcm = .error e) :
    e = .noPrefix ∨ e = .short ∨ e = .tooLong ∨ e = .badSuffix ∨ rcm = .reserved := by
  unfold parse55 at h
  split at h
  · cases h; simp
  · split at h
    · cases h; simp
    · dsimp only at h
      split at h
      · cases h; simp
      · split at h
        · cases h; simp
        · split at h
          · cases h; simp
          · split at h
            · cases h; simp
            · unfold parse55Body at h
              dsimp only at h
              split at h
              · next hd =>
                cases h
                rcases detect55_error hd with hs | hs <;> simp [hs]
              · cases h

/-- What an accepted 6699 frame has passed, and what its fields are (R296). -/
theorem parse66_ok {p : Params} {inp k : Bytes} {rcm : RcMode} {f : Parsed} (h : parse66 p inp k rcm = .ok f) :
    prefixOK inp tagP66 = true ∧ 18 ≤ inp.length ∧
      ∃ l, l = (beWord (slice inp 14 18)).toNat ∧ l ≤ maxLen p ∧ 28 + suffix66 p ≤ l ∧
        18 + (l - suffix66 p) + 4 ≤ inp.length ∧
        slice inp (18 + (l - suffix66 p)) (18 + (l - suffix66 p) + 4) = tagS66 ∧
        parse66Body inp k rcm (18 + (l - suffix66 p) + 4) = .ok f := by
  unfold parse66 at h
  split at h
  · cases h
  · next hp =>
    split at h
    · cases h
    · next h18 =>
      dsimp only at h
      split at h
      · cases h
      · next hmax =>
        split at h
        · cases h
        · next hmin =>
          split at h
          · cases h
          · next hlen =>
            split at h
            · cases h
            · next hsuf =>
              refine ⟨by simpa using hp, by omega, _, rfl, by omega, by omega, by omega, ?_, h⟩
              simpa using hsuf

/-- The fields of an accepted 6699 frame whose suffix has been found (R296). -/
theorem parse66Body_ok {inp k : Bytes} {rcm : RcMode} {total : Nat} {f : Parsed}
    (h : parse66Body inp k rcm total = .ok f) :
    ∃ pt present,
      gcmAD k (slice inp 18 30) (slice inp 30 (total - 20)) (slice inp (total - 20) (total - 4)) (slice inp 4 18)
        = some pt ∧
      detect66 pt rcm = .ok present ∧
      f = { seq := beWord (slice inp 6 10)
            cmd := beWord (slice inp 10 14)
            len := beWord (slice inp 14 18)
            retcode := regionRetcode present pt
            present := present
            trailerOk := true
            payload := regionPayload present pt
            total := total } := by
  unfold parse66Body at h
  split at h
  · cases h
  · next pt hg =>
    split at h
    · cases h
    · next present hd => exact ⟨pt, present, hg, hd, (Except.ok.inj h).symm⟩

/-- An accepted 6699 frame lies within the input, and its payload is no longer (R296). -/
theorem parse66_bounds {p : Params} {inp k : Bytes} {rcm : RcMode} {f : Parsed}
    (h : parse66 p inp k rcm = .ok f) : f.payload.length ≤ inp.length ∧ f.total ≤ inp.length := by
  obtain ⟨-, -, l, -, -, -, hlen, -, hb⟩ := parse66_ok h
  obtain ⟨pt, present, hg, -, rfl⟩ := parse66Body_ok hb
  refine ⟨Nat.le_trans (length_regionPayload _ _) (Nat.le_trans (length_of_gcmAD hg) ?_), hlen⟩
  rw [length_slice]
  omega

theorem parse66_error {p : Params} {inp k : Bytes} {rcm : RcMode} {e : ErrCode}
    (h : parse66 p inp k rcm = .error e) :
    e = .noPrefix ∨ e = .short ∨ e = .tooLong ∨ e = .badSuffix ∨ e = .tagMismatch ∨ rcm = .reserved := by
  unfold parse66 at h
  split at h
  · cases h; simp
  · split at h
    · cases h; simp
    · dsimp only at h
      split at h
      · cases h; simp
      · split at h
        · cases h; simp
        · split at h
          · cases h; simp
          · split at h
            · cases h; simp
            · unfold parse66Body at h
              split at h
              · cases h; simp
              · split at h
                · next hd =>
                  cases h
                  rcases detect66_error hd with hs | hs <;> simp [hs]
                · cases h

/-! ### The stream scan -/

theorem scanFrame_error {p : Params} {b : Bytes} {e : ErrCode} (h : scanFrame p b = .error e) :
    e = .tooLong ∨ e = .short := by
  unfold scanFrame at h
  split at h
  · cases h
  · next i is66 _ =>
    dsimp only at h
    split at h
    · cases h
    · split at h
      · exact .inl (Except.error.inj h).symm
      · generalize (if is66 = true then 28 else 4 : Nat) = least at h
        split at h
        · exact .inr (Except.error.inj h).symm
        · cases h

/-! ### The pipeline -/

theorem length_stripHeader (v : PipeVersion) (d : Bytes) : (stripHeader v d).1.length ≤ d.length := by
  unfold stripHeader
  split
  · simp
  · exact Nat.le_refl _

/-- An accepted frame of the pipeline: its parse, and that its data is no longer than its payload (R357). -/
theorem decodeMessage_ok {p : Params} {v : PipeVersion} {inp k : Bytes} {rcm : RcMode} {vfy : Bool} {d : Decoded}
    (h : decodeMessage p v inp k rcm vfy = .ok d) :
    (match v with
      | .v33 => parse55 p inp .crcTrailer rcm
      | .v34 => parse55 p inp (.hmacTrailer k) rcm
      | .v35 => parse66 p inp k rcm) = .ok d.frame ∧ d.data.length ≤ d.frame.payload.length := by
  cases v with
  | v33 =>
    simp only [decodeMessage] at h ⊢
    cases hp : parse55 p inp .crcTrailer rcm with
    | error e => rw [hp] at h; cases h
    | ok f =>
      rw [hp] at h
      simp only [Except.bind, decode33] at h
      split at h
      · cases h; exact ⟨rfl, by simp⟩
      · split at h
        · cases h; exact ⟨rfl, by simp⟩
        · split at h
          · cases h
          · next hd =>
            cases h
            exact ⟨rfl, Nat.le_trans (length_of_ecbDec hd) (length_stripHeader _ _)⟩
  | v34 =>
    simp only [decodeMessage] at h ⊢
    cases hp : parse55 p inp (.hmacTrailer k) rcm with
    | error e => rw [hp] at h; cases h
    | ok f =>
      rw [hp] at h
      simp only [Except.bind, decode34] at h
      split at h
      · cases h; exact ⟨rfl, by simp⟩
      · split at h
        · cases h
        · next hd =>
          cases h
          exact ⟨rfl, Nat.le_trans (length_stripHeader _ _) (length_of_ecbDec hd)⟩
  | v35 =>
    simp only [decodeMessage] at h ⊢
    cases hp : parse66 p inp k rcm with
    | error e => rw [hp] at h; cases h
    | ok f =>
      rw [hp] at h
      simp only [Except.bind, decode35] at h
      split at h
      · cases h; exact ⟨rfl, by simp⟩
      · cases h; exact ⟨rfl, length_stripHeader _ _⟩

/-- What the pipeline answers is no longer than the frame (R357). -/
theorem decodeMessage_bounds {p : Params} {v : PipeVersion} {inp k : Bytes} {rcm : RcMode} {vfy : Bool}
    {d : Decoded} (h : decodeMessage p v inp k rcm vfy = .ok d) : d.data.length ≤ inp.length := by
  obtain ⟨hp, hl⟩ := decodeMessage_ok h
  refine Nat.le_trans hl ?_
  cases v
  · exact (parse55_bounds hp).1
  · exact (parse55_bounds hp).1
  · exact (parse66_bounds hp).1

/-- A pipeline decode with a legal retcode mode never fails as an illegal command (R371). -/
theorem decodeMessage_error {p : Params} {v : PipeVersion} {inp k : Bytes} {rcm : RcMode} {vfy : Bool} {e : ErrCode}
    (hrc : rcm ≠ .reserved) (h : decodeMessage p v inp k rcm vfy = .error e) : e ≠ .illegalCmd ∧ e ≠ .ok := by
  have h55 : ∀ tr x, parse55 p inp tr rcm = .error x → x ≠ .illegalCmd ∧ x ≠ .ok := by
    intro tr x hx
    rcases parse55_error hx with rfl | rfl | rfl | rfl | hr
    · decide
    · decide
    · decide
    · decide
    · exact absurd hr hrc
  have h66 : ∀ x, parse66 p inp k rcm = .error x → x ≠ .illegalCmd ∧ x ≠ .ok := by
    intro x hx
    rcases parse66_error hx with rfl | rfl | rfl | rfl | rfl | hr
    · decide
    · decide
    · decide
    · decide
    · decide
    · exact absurd hr hrc
  have hecb : ∀ c x, ecbDec k c vfy = .error x → x ≠ .illegalCmd ∧ x ≠ .ok := by
    intro c x hx
    rcases ecbDec_error hx with rfl | rfl <;> decide
  cases v with
  | v33 =>
    simp only [decodeMessage] at h
    cases hp : parse55 p inp .crcTrailer rcm with
    | error x => rw [hp] at h; cases h; exact h55 _ _ hp
    | ok f =>
      rw [hp] at h
      simp only [Except.bind, decode33] at h
      repeat' (split at h)
      all_goals first
        | (cases h; done)
        | (next hd => cases h; exact hecb _ _ hd)
  | v34 =>
    simp only [decodeMessage] at h
    cases hp : parse55 p inp (.hmacTrailer k) rcm with
    | error x => rw [hp] at h; cases h; exact h55 _ _ hp
    | ok f =>
      rw [hp] at h
      simp only [Except.bind, decode34] at h
      repeat' (split at h)
      all_goals first
        | (cases h; done)
        | (next hd => cases h; exact hecb _ _ hd)
  | v35 =>
    simp only [decodeMessage] at h
    cases hp : parse66 p inp k rcm with
    | error x => rw [hp] at h; cases h; exact h66 _ hp
    | ok f =>
      rw [hp] at h
      simp only [Except.bind, decode35] at h
      split at h <;> cases h

/-- A version header in front is stripped (45_message_pipeline.md R355). -/
theorem stripHeader_header (v : PipeVersion) (q : Bytes) : stripHeader v (v.header ++ q) = (q, true) := by
  unfold stripHeader
  rw [if_pos]
  · cases v <;> rfl
  · have h : v.header.length = 15 := by cases v <;> rfl
    exact ⟨by simp [h], by cases v <;> rfl⟩

/-- A string that does not begin as a version header does is left whole (R355). -/
theorem stripHeader_of_not {v : PipeVersion} {q : Bytes} (h : q.length < 15 ∨ q.take 3 ≠ v.string) :
    stripHeader v q = (q, false) := by
  unfold stripHeader
  rw [if_neg]
  rintro ⟨h1, h2⟩
  rcases h with h | h
  · omega
  · exact h (by simpa [slice] using h2)

/-- The header-exempt command codes (30_encoding.md R117). -/
theorem exempt_iff {cmd : Word} : exempt cmd = true ↔ cmd ∈ [3, 4, 5, 9, 10, 16, 18, 64] := by
  simp [exempt, ← BitVec.toNat_inj, or_comm, or_left_comm]

/-- The length of a payload behind its header (R351). -/
theorem length_withHeader (v : PipeVersion) (cmd : Word) (q : Bytes) :
    (withHeader v cmd q).length = (if exempt cmd then 0 else 15) + q.length := by
  unfold withHeader PipeVersion.header PipeVersion.string
  cases v <;> split <;> simp [versionString, PipeVersion.code] <;> omega

/-- The prefix agrees exactly if none of its four bytes that is there contradicts it (44_frame_codec.md R291). -/
theorem prefixOK_iff {b tag : Bytes} :
    prefixOK b tag = true ↔ ∀ j, j < 4 → j < b.length → b[j]? = tag[j]? := by
  unfold prefixOK
  rw [beq_iff_eq]
  constructor
  · intro h j hj hb
    have := congrArg (·[j]?) h
    simp only [List.getElem?_take] at this
    rwa [if_pos hj, if_pos (by omega)] at this
  · intro h
    refine List.ext_getElem? fun j => ?_
    simp only [List.getElem?_take]
    by_cases hj : j < 4
    · by_cases hb : j < b.length
      · rw [if_pos hj, if_pos (by omega)]
        exact h j hj hb
      · rw [if_pos hj, if_neg (by omega)]
        exact List.getElem?_eq_none (by omega)
    · rw [if_neg hj, if_neg (by omega)]

/-- A region too short for the retcode that RC asks for (R300). -/
theorem detect55_short {r : Bytes} (h : r.length < 4) : detect55 r .present = .error .short := by
  simp [detect55, h]

/-- What the 55AA detection answers otherwise (R300). -/
theorem detect55_eq_ok {r : Bytes} {rcm : RcMode} {present : Bool} (hrc : rcm ≠ .reserved)
    (hs : ¬(rcm = .present ∧ r.length < 4))
    (h : present = true ↔ rcm = .present ∨ rcm = .auto ∧ 4 ≤ r.length ∧ r.head? ≠ some 0x7B#8) :
    detect55 r rcm = .ok present := by
  cases rcm with
  | absent => simp_all [detect55]
  | present => simp_all [detect55]
  | auto =>
    cases r with
    | nil => simp_all [detect55]
    | cons x r =>
      simp only [detect55, List.getD_cons_zero, List.head?_cons] at h ⊢
      by_cases hx : x = 0x7B#8 <;> by_cases hl : r.length + 1 < 4 <;> cases present <;> (simp_all; try omega)
  | reserved => exact absurd rfl hrc

/-- A plaintext too short for the retcode that RC asks for (R301). -/
theorem detect66_short {r : Bytes} (h : r.length < 4) : detect66 r .present = .error .short := by
  simp [detect66, h]

/-- What the 6699 detection answers otherwise (R301). -/
theorem detect66_eq_ok {r : Bytes} {rcm : RcMode} {present : Bool} (hrc : rcm ≠ .reserved)
    (hs : ¬(rcm = .present ∧ r.length < 4))
    (h : present = true ↔ rcm = .present ∨ rcm = .auto ∧
      (7 ≤ r.length ∧ slice r 4 7 = [0x33, 0x2E, 0x35] ∨
        5 ≤ r.length ∧ r.head? ≠ some 0x7B#8 ∧ r[4]? = some 0x7B#8)) :
    detect66 r rcm = .ok present := by
  cases rcm with
  | absent => simp_all [detect66]
  | present => simp_all [detect66]
  | auto =>
    have hsnd : (5 ≤ r.length ∧ r.getD 0 0 ≠ 0x7B#8 ∧ r.getD 4 0 = 0x7B#8) ↔
        5 ≤ r.length ∧ r.head? ≠ some 0x7B#8 ∧ r[4]? = some 0x7B#8 := by
      refine and_congr_right fun hl => ?_
      simp [List.getD_eq_getElem?_getD, List.head?_eq_getElem?, List.getElem?_eq_getElem (show 0 < r.length by omega),
        List.getElem?_eq_getElem (show 4 < r.length by omega)]
    simp only [detect66, hsnd]
    split
    · next h1 => rw [h.2 (.inr ⟨rfl, .inl h1⟩)]
    · next h1 =>
      split
      · next h2 => rw [h.2 (.inr ⟨rfl, .inr h2⟩)]
      · next h2 =>
        have : present ≠ true := fun hp => by
          rcases h.1 hp with h' | ⟨-, h' | h'⟩
          · cases h'
          · exact h1 h'
          · exact h2 h'
        rw [Bool.eq_false_iff.2 this]
  | reserved => exact absurd rfl hrc

/-- A payload of zero bytes, or of none, is empty (45_message_pipeline.md R354). -/
theorem isEmptyPayload_iff {q : Bytes} : isEmptyPayload q = true ↔ ∀ b ∈ q, b = 0 := by
  simp [isEmptyPayload]

end Sys2Proof.Machine
end

