-- ==== Sys2Proof/Laws/Memory.lean ====
section
/-!
SUPPORT. The laws of the buffer space: what each operation over memory makes every address read as, and
that each keeps the canonical form.
-/

namespace Sys2Proof.Machine

/-! ### Reads -/

@[simp] theorem Memory.read_nil (a : Nat) : Memory.read [] a = none := rfl

theorem Memory.read_cons (c : Host.Cell) (m : Memory) (a : Nat) :
    Memory.read (c :: m) a = if c.1 = a then some c.2 else Memory.read m a := by
  unfold Memory.read
  by_cases h : c.1 = a <;> simp [h]

/-- One byte written: that address reads it, every other address reads as before. -/
theorem Memory.read_write (m : Memory) (a : Nat) (v : Byte) (b : Nat) :
    (m.write a v).read b = if b = a then some v else m.read b := by
  induction m with
  | nil => simp [Memory.write, Memory.read_cons, eq_comm]
  | cons c m ih =>
    obtain ⟨x, w⟩ := c
    unfold Memory.write
    by_cases h1 : a < x
    · simp [h1, Memory.read_cons, eq_comm]
    · by_cases h2 : a = x
      · subst h2
        by_cases h3 : b = a
        · simp [Memory.read_cons, h3]
        · simp [Memory.read_cons, h3, Ne.symm h3]
      · simp only [h1, h2, if_false, Memory.read_cons, ih]
        by_cases h3 : x = b
        · have : b ≠ a := by omega
          simp [h3, this]
        · simp [h3]

@[simp] theorem Memory.read_write_same (m : Memory) (a : Nat) (v : Byte) : (m.write a v).read a = some v := by
  simp [Memory.read_write]

/-- A byte string written: its bytes stand at the addresses from `a` on, and no other address changes. -/
theorem Memory.read_writeBytes (bs : Bytes) (m : Memory) (a b : Nat) :
    (m.writeBytes a bs).read b = if a ≤ b ∧ b < a + bs.length then bs[b - a]? else m.read b := by
  induction bs generalizing m a with
  | nil => simp only [Memory.writeBytes, List.length_nil]; rw [if_neg (by omega)]
  | cons v rest ih =>
    simp only [Memory.writeBytes, ih, Memory.read_write, List.length_cons]
    by_cases h : b = a
    · subst h
      rw [if_neg (by omega), if_pos rfl, if_pos (by omega)]; simp
    · by_cases h2 : a + 1 ≤ b ∧ b < a + 1 + rest.length
      · rw [if_pos h2, if_pos (by omega), show b - a = (b - (a + 1)) + 1 by omega]; simp
      · rw [if_neg h2, if_neg h, if_neg (by omega)]

/-- A range cleared: its addresses hold no specified value, and no other address changes. -/
theorem Memory.read_clear (m : Memory) (lo n b : Nat) :
    (m.clear lo n).read b = if lo ≤ b ∧ b < lo + n then none else m.read b := by
  induction m with
  | nil => simp [Memory.clear]
  | cons c m ih =>
    unfold Memory.clear at ih ⊢
    rw [List.filter_cons]
    by_cases h : c.1 < lo ∨ lo + n ≤ c.1
    · simp only [h, decide_true, if_true, Memory.read_cons, ih]
      by_cases h2 : c.1 = b
      · have : ¬(lo ≤ b ∧ b < lo + n) := by omega
        simp [h2, this]
      · simp [h2]
    · simp only [h, decide_false, Bool.false_eq_true, if_false, ih, Memory.read_cons]
      by_cases h2 : c.1 = b
      · have : lo ≤ b ∧ b < lo + n := by omega
        simp [this]
      · simp [h2]

/-! ### The canonical form -/

theorem Memory.wf_nil : Memory.wf [] := List.Pairwise.nil

theorem Memory.wf_cons (c : Host.Cell) (m : Memory) :
    Memory.wf (c :: m) ↔ (∀ d ∈ m, c.1 < d.1) ∧ Memory.wf m := by
  simp [Memory.wf, List.pairwise_cons]

theorem Memory.mem_write {m : Memory} {a : Nat} {v : Byte} {d : Host.Cell} (h : d ∈ m.write a v) :
    d = (a, v) ∨ d ∈ m := by
  induction m with
  | nil => simpa [Memory.write] using h
  | cons c m ih =>
    obtain ⟨x, w⟩ := c
    unfold Memory.write at h
    split at h
    · simpa using h
    · split at h
      · rcases List.mem_cons.1 h with h | h
        · exact .inl h
        · exact .inr (List.mem_cons_of_mem _ h)
      · rcases List.mem_cons.1 h with h | h
        · exact .inr (h ▸ List.mem_cons_self)
        · exact (ih h).imp id (List.mem_cons_of_mem _)

theorem Memory.wf_write {m : Memory} (h : m.wf) (a : Nat) (v : Byte) : (m.write a v).wf := by
  induction m with
  | nil => exact (Memory.wf_cons _ _).2 ⟨by simp, Memory.wf_nil⟩
  | cons c m ih =>
    obtain ⟨x, w⟩ := c
    obtain ⟨hx, hm⟩ := (Memory.wf_cons _ _).1 h
    unfold Memory.write
    split
    · next hlt =>
      refine (Memory.wf_cons _ _).2 ⟨fun d hd => ?_, h⟩
      rcases List.mem_cons.1 hd with rfl | hd
      · exact hlt
      · exact Nat.lt_trans hlt (hx d hd)
    · split
      · next heq => subst heq; exact (Memory.wf_cons _ _).2 ⟨hx, hm⟩
      · next hge hne =>
        refine (Memory.wf_cons _ _).2 ⟨fun d hd => ?_, ih hm⟩
        rcases Memory.mem_write hd with rfl | hd
        · show x < a; omega
        · exact hx d hd

theorem Memory.wf_writeBytes {m : Memory} (h : m.wf) (a : Nat) (bs : Bytes) : (m.writeBytes a bs).wf := by
  induction bs generalizing m a with
  | nil => exact h
  | cons v rest ih => exact ih (Memory.wf_write h a v) (a + 1)

theorem Memory.wf_clear {m : Memory} (h : m.wf) (lo n : Nat) : (m.clear lo n).wf :=
  List.Pairwise.sublist (List.filter_sublist.map _) h

/-- An address below every listed one reads as unlisted. -/
theorem Memory.read_eq_none_of_lt {m : Memory} {a : Nat} (h : ∀ d ∈ m, a < d.1) : m.read a = none := by
  induction m with
  | nil => rfl
  | cons c m ih =>
    have hc := h c List.mem_cons_self
    rw [Memory.read_cons, if_neg (by omega)]
    exact ih fun d hd => h d (List.mem_cons_of_mem _ hd)

/-- Equal reads are equal data: two memories in canonical form that read alike are the same list. -/
theorem Memory.ext_of_wf {m m' : Memory} (h : m.wf) (h' : m'.wf) (heq : ∀ a, m.read a = m'.read a) : m = m' := by
  induction m generalizing m' with
  | nil =>
    cases m' with
    | nil => rfl
    | cons d m' => have := heq d.1; simp [Memory.read_cons] at this
  | cons c m ih =>
    cases m' with
    | nil => have := heq c.1; simp [Memory.read_cons] at this
    | cons d m' =>
      obtain ⟨hc, hm⟩ := (Memory.wf_cons _ _).1 h
      obtain ⟨hd, hm'⟩ := (Memory.wf_cons _ _).1 h'
      have key : c.1 = d.1 := by
        rcases Nat.lt_trichotomy c.1 d.1 with hlt | heq' | hlt
        · have := heq c.1
          rw [Memory.read_cons, if_pos rfl, Memory.read_cons, if_neg (by omega),
            Memory.read_eq_none_of_lt fun e he => Nat.lt_trans hlt (hd e he)] at this
          cases this
        · exact heq'
        · have := heq d.1
          rw [Memory.read_cons, if_neg (by omega), Memory.read_cons, if_pos rfl,
            Memory.read_eq_none_of_lt fun e he => Nat.lt_trans hlt (hc e he)] at this
          cases this
      have hv : c.2 = d.2 := by
        have := heq c.1
        rw [Memory.read_cons, if_pos rfl, Memory.read_cons, if_pos key.symm] at this
        exact Option.some.inj this
      have hcd : c = d := Prod.ext key hv
      subst hcd
      congr 1
      refine ih hm hm' fun a => ?_
      have := heq a
      rw [Memory.read_cons, Memory.read_cons] at this
      by_cases ha : c.1 = a
      · subst ha
        rw [Memory.read_eq_none_of_lt hc, Memory.read_eq_none_of_lt hd]
      · simpa [ha] using this

/-- The machine right after reset has its memory in canonical form. -/
theorem State.reset_mem_wf : State.reset.mem.wf := Memory.wf_nil

end Sys2Proof.Machine
end

