-- ==== Sys2Proof/Laws/State.lean ====
section
/-!
SUPPORT. The small lemmas of the state's updates: one for each field of each update, all true by
definition, so that no later proof unfolds a record update.
-/

namespace Sys2Proof.Machine

/-! ### `State.setStatus` -/

@[simp] theorem State.setStatus_params (s : State) (e : ErrCode) (f : ResultFlags) : (s.setStatus e f).params = s.params := rfl
@[simp] theorem State.setStatus_cmd (s : State) (e : ErrCode) (f : ResultFlags) : (s.setStatus e f).cmd = s.cmd := rfl
@[simp] theorem State.setStatus_status (s : State) (e : ErrCode) (f : ResultFlags) : (s.setStatus e f).status = statusWord e f s.keyValid s.nonceValid s.negotiated := rfl
@[simp] theorem State.setStatus_version (s : State) (e : ErrCode) (f : ResultFlags) : (s.setStatus e f).version = s.version := rfl
@[simp] theorem State.setStatus_seqIn (s : State) (e : ErrCode) (f : ResultFlags) : (s.setStatus e f).seqIn = s.seqIn := rfl
@[simp] theorem State.setStatus_cmdIn (s : State) (e : ErrCode) (f : ResultFlags) : (s.setStatus e f).cmdIn = s.cmdIn := rfl
@[simp] theorem State.setStatus_retcodeIn (s : State) (e : ErrCode) (f : ResultFlags) : (s.setStatus e f).retcodeIn = s.retcodeIn := rfl
@[simp] theorem State.setStatus_rSeq (s : State) (e : ErrCode) (f : ResultFlags) : (s.setStatus e f).rSeq = s.rSeq := rfl
@[simp] theorem State.setStatus_rCmd (s : State) (e : ErrCode) (f : ResultFlags) : (s.setStatus e f).rCmd = s.rCmd := rfl
@[simp] theorem State.setStatus_rRetcode (s : State) (e : ErrCode) (f : ResultFlags) : (s.setStatus e f).rRetcode = s.rRetcode := rfl
@[simp] theorem State.setStatus_rLen (s : State) (e : ErrCode) (f : ResultFlags) : (s.setStatus e f).rLen = s.rLen := rfl
@[simp] theorem State.setStatus_rOffset (s : State) (e : ErrCode) (f : ResultFlags) : (s.setStatus e f).rOffset = s.rOffset := rfl
@[simp] theorem State.setStatus_rFramelen (s : State) (e : ErrCode) (f : ResultFlags) : (s.setStatus e f).rFramelen = s.rFramelen := rfl
@[simp] theorem State.setStatus_rCrc (s : State) (e : ErrCode) (f : ResultFlags) : (s.setStatus e f).rCrc = s.rCrc := rfl
@[simp] theorem State.setStatus_ibufLen (s : State) (e : ErrCode) (f : ResultFlags) : (s.setStatus e f).ibufLen = s.ibufLen := rfl
@[simp] theorem State.setStatus_abufLen (s : State) (e : ErrCode) (f : ResultFlags) : (s.setStatus e f).abufLen = s.abufLen := rfl
@[simp] theorem State.setStatus_obufLen (s : State) (e : ErrCode) (f : ResultFlags) : (s.setStatus e f).obufLen = s.obufLen := rfl
@[simp] theorem State.setStatus_mem (s : State) (e : ErrCode) (f : ResultFlags) : (s.setStatus e f).mem = s.mem := rfl
@[simp] theorem State.setStatus_keyLocal (s : State) (e : ErrCode) (f : ResultFlags) : (s.setStatus e f).keyLocal = s.keyLocal := rfl
@[simp] theorem State.setStatus_keySrclen (s : State) (e : ErrCode) (f : ResultFlags) : (s.setStatus e f).keySrclen = s.keySrclen := rfl
@[simp] theorem State.setStatus_keyValid (s : State) (e : ErrCode) (f : ResultFlags) : (s.setStatus e f).keyValid = s.keyValid := rfl
@[simp] theorem State.setStatus_keySession (s : State) (e : ErrCode) (f : ResultFlags) : (s.setStatus e f).keySession = s.keySession := rfl
@[simp] theorem State.setStatus_negotiated (s : State) (e : ErrCode) (f : ResultFlags) : (s.setStatus e f).negotiated = s.negotiated := rfl
@[simp] theorem State.setStatus_nonce (s : State) (e : ErrCode) (f : ResultFlags) : (s.setStatus e f).nonce = s.nonce := rfl
@[simp] theorem State.setStatus_nonceValid (s : State) (e : ErrCode) (f : ResultFlags) : (s.setStatus e f).nonceValid = s.nonceValid := rfl
@[simp] theorem State.setStatus_nlog (s : State) (e : ErrCode) (f : ResultFlags) : (s.setStatus e f).nlog = s.nlog := rfl
@[simp] theorem State.setStatus_faults (s : State) (e : ErrCode) (f : ResultFlags) : (s.setStatus e f).faults = s.faults := rfl
@[simp] theorem State.setStatus_draws (s : State) (e : ErrCode) (f : ResultFlags) : (s.setStatus e f).draws = s.draws := rfl
@[simp] theorem State.setStatus_resets (s : State) (e : ErrCode) (f : ResultFlags) : (s.setStatus e f).resets = s.resets := rfl
@[simp] theorem State.setStatus_inputs (s : State) (e : ErrCode) (f : ResultFlags) : (s.setStatus e f).inputs = s.inputs := rfl
@[simp] theorem State.setStatus_replies (s : State) (e : ErrCode) (f : ResultFlags) : (s.setStatus e f).replies = s.replies := rfl
@[simp] theorem State.setStatus_cap (s : State) (e : ErrCode) (f : ResultFlags) : (s.setStatus e f).cap = s.cap := rfl

/-! ### `State.noteRead` -/

@[simp] theorem State.noteRead_params (s : State) (b : Buffer) (n : Nat) : (s.noteRead b n).params = s.params := rfl
@[simp] theorem State.noteRead_cmd (s : State) (b : Buffer) (n : Nat) : (s.noteRead b n).cmd = s.cmd := rfl
@[simp] theorem State.noteRead_status (s : State) (b : Buffer) (n : Nat) : (s.noteRead b n).status = s.status := rfl
@[simp] theorem State.noteRead_version (s : State) (b : Buffer) (n : Nat) : (s.noteRead b n).version = s.version := rfl
@[simp] theorem State.noteRead_seqIn (s : State) (b : Buffer) (n : Nat) : (s.noteRead b n).seqIn = s.seqIn := rfl
@[simp] theorem State.noteRead_cmdIn (s : State) (b : Buffer) (n : Nat) : (s.noteRead b n).cmdIn = s.cmdIn := rfl
@[simp] theorem State.noteRead_retcodeIn (s : State) (b : Buffer) (n : Nat) : (s.noteRead b n).retcodeIn = s.retcodeIn := rfl
@[simp] theorem State.noteRead_rSeq (s : State) (b : Buffer) (n : Nat) : (s.noteRead b n).rSeq = s.rSeq := rfl
@[simp] theorem State.noteRead_rCmd (s : State) (b : Buffer) (n : Nat) : (s.noteRead b n).rCmd = s.rCmd := rfl
@[simp] theorem State.noteRead_rRetcode (s : State) (b : Buffer) (n : Nat) : (s.noteRead b n).rRetcode = s.rRetcode := rfl
@[simp] theorem State.noteRead_rLen (s : State) (b : Buffer) (n : Nat) : (s.noteRead b n).rLen = s.rLen := rfl
@[simp] theorem State.noteRead_rOffset (s : State) (b : Buffer) (n : Nat) : (s.noteRead b n).rOffset = s.rOffset := rfl
@[simp] theorem State.noteRead_rFramelen (s : State) (b : Buffer) (n : Nat) : (s.noteRead b n).rFramelen = s.rFramelen := rfl
@[simp] theorem State.noteRead_rCrc (s : State) (b : Buffer) (n : Nat) : (s.noteRead b n).rCrc = s.rCrc := rfl
@[simp] theorem State.noteRead_ibufLen (s : State) (b : Buffer) (n : Nat) : (s.noteRead b n).ibufLen = s.ibufLen := rfl
@[simp] theorem State.noteRead_abufLen (s : State) (b : Buffer) (n : Nat) : (s.noteRead b n).abufLen = s.abufLen := rfl
@[simp] theorem State.noteRead_obufLen (s : State) (b : Buffer) (n : Nat) : (s.noteRead b n).obufLen = s.obufLen := rfl
@[simp] theorem State.noteRead_mem (s : State) (b : Buffer) (n : Nat) : (s.noteRead b n).mem = s.mem := rfl
@[simp] theorem State.noteRead_keyLocal (s : State) (b : Buffer) (n : Nat) : (s.noteRead b n).keyLocal = s.keyLocal := rfl
@[simp] theorem State.noteRead_keySrclen (s : State) (b : Buffer) (n : Nat) : (s.noteRead b n).keySrclen = s.keySrclen := rfl
@[simp] theorem State.noteRead_keyValid (s : State) (b : Buffer) (n : Nat) : (s.noteRead b n).keyValid = s.keyValid := rfl
@[simp] theorem State.noteRead_keySession (s : State) (b : Buffer) (n : Nat) : (s.noteRead b n).keySession = s.keySession := rfl
@[simp] theorem State.noteRead_negotiated (s : State) (b : Buffer) (n : Nat) : (s.noteRead b n).negotiated = s.negotiated := rfl
@[simp] theorem State.noteRead_nonce (s : State) (b : Buffer) (n : Nat) : (s.noteRead b n).nonce = s.nonce := rfl
@[simp] theorem State.noteRead_nonceValid (s : State) (b : Buffer) (n : Nat) : (s.noteRead b n).nonceValid = s.nonceValid := rfl
@[simp] theorem State.noteRead_nlog (s : State) (b : Buffer) (n : Nat) : (s.noteRead b n).nlog = s.nlog := rfl
@[simp] theorem State.noteRead_faults (s : State) (b : Buffer) (n : Nat) : (s.noteRead b n).faults = { s.faults with unwrittenRead := s.faults.unwrittenRead || !s.allWritten b n } := rfl
@[simp] theorem State.noteRead_draws (s : State) (b : Buffer) (n : Nat) : (s.noteRead b n).draws = if s.allWritten b n then s.draws else s.draws + n := rfl
@[simp] theorem State.noteRead_resets (s : State) (b : Buffer) (n : Nat) : (s.noteRead b n).resets = s.resets := rfl
@[simp] theorem State.noteRead_inputs (s : State) (b : Buffer) (n : Nat) : (s.noteRead b n).inputs = s.inputs := rfl
@[simp] theorem State.noteRead_replies (s : State) (b : Buffer) (n : Nat) : (s.noteRead b n).replies = s.replies := rfl
@[simp] theorem State.noteRead_cap (s : State) (b : Buffer) (n : Nat) : (s.noteRead b n).cap = s.cap := rfl

/-! ### `State.afterIn` -/

@[simp] theorem State.afterIn_params (s : State) : s.afterIn.params = s.params := rfl
@[simp] theorem State.afterIn_cmd (s : State) : s.afterIn.cmd = s.cmd := rfl
@[simp] theorem State.afterIn_status (s : State) : s.afterIn.status = s.status := rfl
@[simp] theorem State.afterIn_version (s : State) : s.afterIn.version = s.version := rfl
@[simp] theorem State.afterIn_seqIn (s : State) : s.afterIn.seqIn = s.seqIn := rfl
@[simp] theorem State.afterIn_cmdIn (s : State) : s.afterIn.cmdIn = s.cmdIn := rfl
@[simp] theorem State.afterIn_retcodeIn (s : State) : s.afterIn.retcodeIn = s.retcodeIn := rfl
@[simp] theorem State.afterIn_rSeq (s : State) : s.afterIn.rSeq = s.rSeq := rfl
@[simp] theorem State.afterIn_rCmd (s : State) : s.afterIn.rCmd = s.rCmd := rfl
@[simp] theorem State.afterIn_rRetcode (s : State) : s.afterIn.rRetcode = s.rRetcode := rfl
@[simp] theorem State.afterIn_rLen (s : State) : s.afterIn.rLen = s.rLen := rfl
@[simp] theorem State.afterIn_rOffset (s : State) : s.afterIn.rOffset = s.rOffset := rfl
@[simp] theorem State.afterIn_rFramelen (s : State) : s.afterIn.rFramelen = s.rFramelen := rfl
@[simp] theorem State.afterIn_rCrc (s : State) : s.afterIn.rCrc = s.rCrc := rfl
@[simp] theorem State.afterIn_ibufLen (s : State) : s.afterIn.ibufLen = s.ibufLen := rfl
@[simp] theorem State.afterIn_abufLen (s : State) : s.afterIn.abufLen = s.abufLen := rfl
@[simp] theorem State.afterIn_obufLen (s : State) : s.afterIn.obufLen = s.obufLen := rfl
@[simp] theorem State.afterIn_mem (s : State) : s.afterIn.mem = s.mem := rfl
@[simp] theorem State.afterIn_keyLocal (s : State) : s.afterIn.keyLocal = s.keyLocal := rfl
@[simp] theorem State.afterIn_keySrclen (s : State) : s.afterIn.keySrclen = s.keySrclen := rfl
@[simp] theorem State.afterIn_keyValid (s : State) : s.afterIn.keyValid = s.keyValid := rfl
@[simp] theorem State.afterIn_keySession (s : State) : s.afterIn.keySession = s.keySession := rfl
@[simp] theorem State.afterIn_negotiated (s : State) : s.afterIn.negotiated = s.negotiated := rfl
@[simp] theorem State.afterIn_nonce (s : State) : s.afterIn.nonce = s.nonce := rfl
@[simp] theorem State.afterIn_nonceValid (s : State) : s.afterIn.nonceValid = s.nonceValid := rfl
@[simp] theorem State.afterIn_nlog (s : State) : s.afterIn.nlog = s.nlog := rfl
@[simp] theorem State.afterIn_faults (s : State) : s.afterIn.faults = { s.faults with unwrittenRead := s.faults.unwrittenRead || !s.allWritten .ibuf s.ibufLen.toNat } := rfl
@[simp] theorem State.afterIn_draws (s : State) : s.afterIn.draws = if s.allWritten .ibuf s.ibufLen.toNat then s.draws else s.draws + s.ibufLen.toNat := rfl
@[simp] theorem State.afterIn_resets (s : State) : s.afterIn.resets = s.resets := rfl
@[simp] theorem State.afterIn_inputs (s : State) : s.afterIn.inputs = s.inputs := rfl
@[simp] theorem State.afterIn_replies (s : State) : s.afterIn.replies = s.replies := rfl
@[simp] theorem State.afterIn_cap (s : State) : (s.afterIn).cap = s.cap := rfl

/-! ### `State.afterAd` -/

@[simp] theorem State.afterAd_params (s : State) : s.afterAd.params = s.params := rfl
@[simp] theorem State.afterAd_cmd (s : State) : s.afterAd.cmd = s.cmd := rfl
@[simp] theorem State.afterAd_status (s : State) : s.afterAd.status = s.status := rfl
@[simp] theorem State.afterAd_version (s : State) : s.afterAd.version = s.version := rfl
@[simp] theorem State.afterAd_seqIn (s : State) : s.afterAd.seqIn = s.seqIn := rfl
@[simp] theorem State.afterAd_cmdIn (s : State) : s.afterAd.cmdIn = s.cmdIn := rfl
@[simp] theorem State.afterAd_retcodeIn (s : State) : s.afterAd.retcodeIn = s.retcodeIn := rfl
@[simp] theorem State.afterAd_rSeq (s : State) : s.afterAd.rSeq = s.rSeq := rfl
@[simp] theorem State.afterAd_rCmd (s : State) : s.afterAd.rCmd = s.rCmd := rfl
@[simp] theorem State.afterAd_rRetcode (s : State) : s.afterAd.rRetcode = s.rRetcode := rfl
@[simp] theorem State.afterAd_rLen (s : State) : s.afterAd.rLen = s.rLen := rfl
@[simp] theorem State.afterAd_rOffset (s : State) : s.afterAd.rOffset = s.rOffset := rfl
@[simp] theorem State.afterAd_rFramelen (s : State) : s.afterAd.rFramelen = s.rFramelen := rfl
@[simp] theorem State.afterAd_rCrc (s : State) : s.afterAd.rCrc = s.rCrc := rfl
@[simp] theorem State.afterAd_ibufLen (s : State) : s.afterAd.ibufLen = s.ibufLen := rfl
@[simp] theorem State.afterAd_abufLen (s : State) : s.afterAd.abufLen = s.abufLen := rfl
@[simp] theorem State.afterAd_obufLen (s : State) : s.afterAd.obufLen = s.obufLen := rfl
@[simp] theorem State.afterAd_mem (s : State) : s.afterAd.mem = s.mem := rfl
@[simp] theorem State.afterAd_keyLocal (s : State) : s.afterAd.keyLocal = s.keyLocal := rfl
@[simp] theorem State.afterAd_keySrclen (s : State) : s.afterAd.keySrclen = s.keySrclen := rfl
@[simp] theorem State.afterAd_keyValid (s : State) : s.afterAd.keyValid = s.keyValid := rfl
@[simp] theorem State.afterAd_keySession (s : State) : s.afterAd.keySession = s.keySession := rfl
@[simp] theorem State.afterAd_negotiated (s : State) : s.afterAd.negotiated = s.negotiated := rfl
@[simp] theorem State.afterAd_nonce (s : State) : s.afterAd.nonce = s.nonce := rfl
@[simp] theorem State.afterAd_nonceValid (s : State) : s.afterAd.nonceValid = s.nonceValid := rfl
@[simp] theorem State.afterAd_nlog (s : State) : s.afterAd.nlog = s.nlog := rfl
@[simp] theorem State.afterAd_faults (s : State) : s.afterAd.faults = { s.faults with unwrittenRead := s.faults.unwrittenRead || !s.allWritten .abuf s.abufLen.toNat } := rfl
@[simp] theorem State.afterAd_draws (s : State) : s.afterAd.draws = if s.allWritten .abuf s.abufLen.toNat then s.draws else s.draws + s.abufLen.toNat := rfl
@[simp] theorem State.afterAd_resets (s : State) : s.afterAd.resets = s.resets := rfl
@[simp] theorem State.afterAd_inputs (s : State) : s.afterAd.inputs = s.inputs := rfl
@[simp] theorem State.afterAd_replies (s : State) : s.afterAd.replies = s.replies := rfl
@[simp] theorem State.afterAd_cap (s : State) : (s.afterAd).cap = s.cap := rfl

/-! ### `State.clearOutput` -/

@[simp] theorem State.clearOutput_params (s : State) : s.clearOutput.params = s.params := rfl
@[simp] theorem State.clearOutput_cmd (s : State) : s.clearOutput.cmd = s.cmd := rfl
@[simp] theorem State.clearOutput_status (s : State) : s.clearOutput.status = s.status := rfl
@[simp] theorem State.clearOutput_version (s : State) : s.clearOutput.version = s.version := rfl
@[simp] theorem State.clearOutput_seqIn (s : State) : s.clearOutput.seqIn = s.seqIn := rfl
@[simp] theorem State.clearOutput_cmdIn (s : State) : s.clearOutput.cmdIn = s.cmdIn := rfl
@[simp] theorem State.clearOutput_retcodeIn (s : State) : s.clearOutput.retcodeIn = s.retcodeIn := rfl
@[simp] theorem State.clearOutput_rSeq (s : State) : s.clearOutput.rSeq = s.rSeq := rfl
@[simp] theorem State.clearOutput_rCmd (s : State) : s.clearOutput.rCmd = s.rCmd := rfl
@[simp] theorem State.clearOutput_rRetcode (s : State) : s.clearOutput.rRetcode = s.rRetcode := rfl
@[simp] theorem State.clearOutput_rLen (s : State) : s.clearOutput.rLen = s.rLen := rfl
@[simp] theorem State.clearOutput_rOffset (s : State) : s.clearOutput.rOffset = s.rOffset := rfl
@[simp] theorem State.clearOutput_rFramelen (s : State) : s.clearOutput.rFramelen = s.rFramelen := rfl
@[simp] theorem State.clearOutput_rCrc (s : State) : s.clearOutput.rCrc = s.rCrc := rfl
@[simp] theorem State.clearOutput_ibufLen (s : State) : s.clearOutput.ibufLen = s.ibufLen := rfl
@[simp] theorem State.clearOutput_abufLen (s : State) : s.clearOutput.abufLen = s.abufLen := rfl
@[simp] theorem State.clearOutput_obufLen (s : State) : s.clearOutput.obufLen = 0 := rfl
@[simp] theorem State.clearOutput_mem (s : State) : s.clearOutput.mem = s.mem.clear Buffer.obuf.base s.cap := rfl
@[simp] theorem State.clearOutput_keyLocal (s : State) : s.clearOutput.keyLocal = s.keyLocal := rfl
@[simp] theorem State.clearOutput_keySrclen (s : State) : s.clearOutput.keySrclen = s.keySrclen := rfl
@[simp] theorem State.clearOutput_keyValid (s : State) : s.clearOutput.keyValid = s.keyValid := rfl
@[simp] theorem State.clearOutput_keySession (s : State) : s.clearOutput.keySession = s.keySession := rfl
@[simp] theorem State.clearOutput_negotiated (s : State) : s.clearOutput.negotiated = s.negotiated := rfl
@[simp] theorem State.clearOutput_nonce (s : State) : s.clearOutput.nonce = s.nonce := rfl
@[simp] theorem State.clearOutput_nonceValid (s : State) : s.clearOutput.nonceValid = s.nonceValid := rfl
@[simp] theorem State.clearOutput_nlog (s : State) : s.clearOutput.nlog = s.nlog := rfl
@[simp] theorem State.clearOutput_faults (s : State) : s.clearOutput.faults = s.faults := rfl
@[simp] theorem State.clearOutput_draws (s : State) : s.clearOutput.draws = s.draws := rfl
@[simp] theorem State.clearOutput_resets (s : State) : s.clearOutput.resets = s.resets := rfl
@[simp] theorem State.clearOutput_inputs (s : State) : s.clearOutput.inputs = s.inputs := rfl
@[simp] theorem State.clearOutput_replies (s : State) : s.clearOutput.replies = s.replies := rfl
@[simp] theorem State.clearOutput_cap (s : State) : (s.clearOutput).cap = s.cap := rfl

/-! ### `State.emit` -/

@[simp] theorem State.emit_params (s : State) (v : Bytes) : (s.emit v).params = s.params := rfl
@[simp] theorem State.emit_cmd (s : State) (v : Bytes) : (s.emit v).cmd = s.cmd := rfl
@[simp] theorem State.emit_status (s : State) (v : Bytes) : (s.emit v).status = s.status := rfl
@[simp] theorem State.emit_version (s : State) (v : Bytes) : (s.emit v).version = s.version := rfl
@[simp] theorem State.emit_seqIn (s : State) (v : Bytes) : (s.emit v).seqIn = s.seqIn := rfl
@[simp] theorem State.emit_cmdIn (s : State) (v : Bytes) : (s.emit v).cmdIn = s.cmdIn := rfl
@[simp] theorem State.emit_retcodeIn (s : State) (v : Bytes) : (s.emit v).retcodeIn = s.retcodeIn := rfl
@[simp] theorem State.emit_rSeq (s : State) (v : Bytes) : (s.emit v).rSeq = s.rSeq := rfl
@[simp] theorem State.emit_rCmd (s : State) (v : Bytes) : (s.emit v).rCmd = s.rCmd := rfl
@[simp] theorem State.emit_rRetcode (s : State) (v : Bytes) : (s.emit v).rRetcode = s.rRetcode := rfl
@[simp] theorem State.emit_rLen (s : State) (v : Bytes) : (s.emit v).rLen = s.rLen := rfl
@[simp] theorem State.emit_rOffset (s : State) (v : Bytes) : (s.emit v).rOffset = s.rOffset := rfl
@[simp] theorem State.emit_rFramelen (s : State) (v : Bytes) : (s.emit v).rFramelen = s.rFramelen := rfl
@[simp] theorem State.emit_rCrc (s : State) (v : Bytes) : (s.emit v).rCrc = s.rCrc := rfl
@[simp] theorem State.emit_ibufLen (s : State) (v : Bytes) : (s.emit v).ibufLen = s.ibufLen := rfl
@[simp] theorem State.emit_abufLen (s : State) (v : Bytes) : (s.emit v).abufLen = s.abufLen := rfl
@[simp] theorem State.emit_obufLen (s : State) (v : Bytes) : (s.emit v).obufLen = BitVec.ofNat 32 v.length := rfl
@[simp] theorem State.emit_mem (s : State) (v : Bytes) : (s.emit v).mem = (s.mem.clear Buffer.obuf.base s.cap).writeBytes Buffer.obuf.base v := rfl
@[simp] theorem State.emit_keyLocal (s : State) (v : Bytes) : (s.emit v).keyLocal = s.keyLocal := rfl
@[simp] theorem State.emit_keySrclen (s : State) (v : Bytes) : (s.emit v).keySrclen = s.keySrclen := rfl
@[simp] theorem State.emit_keyValid (s : State) (v : Bytes) : (s.emit v).keyValid = s.keyValid := rfl
@[simp] theorem State.emit_keySession (s : State) (v : Bytes) : (s.emit v).keySession = s.keySession := rfl
@[simp] theorem State.emit_negotiated (s : State) (v : Bytes) : (s.emit v).negotiated = s.negotiated := rfl
@[simp] theorem State.emit_nonce (s : State) (v : Bytes) : (s.emit v).nonce = s.nonce := rfl
@[simp] theorem State.emit_nonceValid (s : State) (v : Bytes) : (s.emit v).nonceValid = s.nonceValid := rfl
@[simp] theorem State.emit_nlog (s : State) (v : Bytes) : (s.emit v).nlog = s.nlog := rfl
@[simp] theorem State.emit_faults (s : State) (v : Bytes) : (s.emit v).faults = s.faults := rfl
@[simp] theorem State.emit_draws (s : State) (v : Bytes) : (s.emit v).draws = s.draws := rfl
@[simp] theorem State.emit_resets (s : State) (v : Bytes) : (s.emit v).resets = s.resets := rfl
@[simp] theorem State.emit_inputs (s : State) (v : Bytes) : (s.emit v).inputs = s.inputs := rfl
@[simp] theorem State.emit_replies (s : State) (v : Bytes) : (s.emit v).replies = s.replies := rfl
@[simp] theorem State.emit_cap (s : State) (v : Bytes) : (s.emit v).cap = s.cap := rfl

/-! ### `State.logNonce` -/

@[simp] theorem State.logNonce_params (s : State) (k n : Bytes) : (s.logNonce k n).params = s.params := rfl
@[simp] theorem State.logNonce_cmd (s : State) (k n : Bytes) : (s.logNonce k n).cmd = s.cmd := rfl
@[simp] theorem State.logNonce_status (s : State) (k n : Bytes) : (s.logNonce k n).status = s.status := rfl
@[simp] theorem State.logNonce_version (s : State) (k n : Bytes) : (s.logNonce k n).version = s.version := rfl
@[simp] theorem State.logNonce_seqIn (s : State) (k n : Bytes) : (s.logNonce k n).seqIn = s.seqIn := rfl
@[simp] theorem State.logNonce_cmdIn (s : State) (k n : Bytes) : (s.logNonce k n).cmdIn = s.cmdIn := rfl
@[simp] theorem State.logNonce_retcodeIn (s : State) (k n : Bytes) : (s.logNonce k n).retcodeIn = s.retcodeIn := rfl
@[simp] theorem State.logNonce_rSeq (s : State) (k n : Bytes) : (s.logNonce k n).rSeq = s.rSeq := rfl
@[simp] theorem State.logNonce_rCmd (s : State) (k n : Bytes) : (s.logNonce k n).rCmd = s.rCmd := rfl
@[simp] theorem State.logNonce_rRetcode (s : State) (k n : Bytes) : (s.logNonce k n).rRetcode = s.rRetcode := rfl
@[simp] theorem State.logNonce_rLen (s : State) (k n : Bytes) : (s.logNonce k n).rLen = s.rLen := rfl
@[simp] theorem State.logNonce_rOffset (s : State) (k n : Bytes) : (s.logNonce k n).rOffset = s.rOffset := rfl
@[simp] theorem State.logNonce_rFramelen (s : State) (k n : Bytes) : (s.logNonce k n).rFramelen = s.rFramelen := rfl
@[simp] theorem State.logNonce_rCrc (s : State) (k n : Bytes) : (s.logNonce k n).rCrc = s.rCrc := rfl
@[simp] theorem State.logNonce_ibufLen (s : State) (k n : Bytes) : (s.logNonce k n).ibufLen = s.ibufLen := rfl
@[simp] theorem State.logNonce_abufLen (s : State) (k n : Bytes) : (s.logNonce k n).abufLen = s.abufLen := rfl
@[simp] theorem State.logNonce_obufLen (s : State) (k n : Bytes) : (s.logNonce k n).obufLen = s.obufLen := rfl
@[simp] theorem State.logNonce_mem (s : State) (k n : Bytes) : (s.logNonce k n).mem = s.mem := rfl
@[simp] theorem State.logNonce_keyLocal (s : State) (k n : Bytes) : (s.logNonce k n).keyLocal = s.keyLocal := rfl
@[simp] theorem State.logNonce_keySrclen (s : State) (k n : Bytes) : (s.logNonce k n).keySrclen = s.keySrclen := rfl
@[simp] theorem State.logNonce_keyValid (s : State) (k n : Bytes) : (s.logNonce k n).keyValid = s.keyValid := rfl
@[simp] theorem State.logNonce_keySession (s : State) (k n : Bytes) : (s.logNonce k n).keySession = s.keySession := rfl
@[simp] theorem State.logNonce_negotiated (s : State) (k n : Bytes) : (s.logNonce k n).negotiated = s.negotiated := rfl
@[simp] theorem State.logNonce_nonce (s : State) (k n : Bytes) : (s.logNonce k n).nonce = s.nonce := rfl
@[simp] theorem State.logNonce_nonceValid (s : State) (k n : Bytes) : (s.logNonce k n).nonceValid = s.nonceValid := rfl
@[simp] theorem State.logNonce_nlog (s : State) (k n : Bytes) : (s.logNonce k n).nlog = s.nlog.insert (k, n) := rfl
@[simp] theorem State.logNonce_faults (s : State) (k n : Bytes) : (s.logNonce k n).faults = { s.faults with nonceReuse := s.faults.nonceReuse || s.nlog.contains (k, n) } := rfl
@[simp] theorem State.logNonce_draws (s : State) (k n : Bytes) : (s.logNonce k n).draws = s.draws := rfl
@[simp] theorem State.logNonce_resets (s : State) (k n : Bytes) : (s.logNonce k n).resets = s.resets := rfl
@[simp] theorem State.logNonce_inputs (s : State) (k n : Bytes) : (s.logNonce k n).inputs = s.inputs := rfl
@[simp] theorem State.logNonce_replies (s : State) (k n : Bytes) : (s.logNonce k n).replies = s.replies := rfl
@[simp] theorem State.logNonce_cap (s : State) (k n : Bytes) : (s.logNonce k n).cap = s.cap := rfl

/-! ### `State.useNonce` -/

@[simp] theorem State.useNonce_params (s : State) (k : Bytes) : (s.useNonce k).params = s.params := rfl
@[simp] theorem State.useNonce_cmd (s : State) (k : Bytes) : (s.useNonce k).cmd = s.cmd := rfl
@[simp] theorem State.useNonce_status (s : State) (k : Bytes) : (s.useNonce k).status = s.status := rfl
@[simp] theorem State.useNonce_version (s : State) (k : Bytes) : (s.useNonce k).version = s.version := rfl
@[simp] theorem State.useNonce_seqIn (s : State) (k : Bytes) : (s.useNonce k).seqIn = s.seqIn := rfl
@[simp] theorem State.useNonce_cmdIn (s : State) (k : Bytes) : (s.useNonce k).cmdIn = s.cmdIn := rfl
@[simp] theorem State.useNonce_retcodeIn (s : State) (k : Bytes) : (s.useNonce k).retcodeIn = s.retcodeIn := rfl
@[simp] theorem State.useNonce_rSeq (s : State) (k : Bytes) : (s.useNonce k).rSeq = s.rSeq := rfl
@[simp] theorem State.useNonce_rCmd (s : State) (k : Bytes) : (s.useNonce k).rCmd = s.rCmd := rfl
@[simp] theorem State.useNonce_rRetcode (s : State) (k : Bytes) : (s.useNonce k).rRetcode = s.rRetcode := rfl
@[simp] theorem State.useNonce_rLen (s : State) (k : Bytes) : (s.useNonce k).rLen = s.rLen := rfl
@[simp] theorem State.useNonce_rOffset (s : State) (k : Bytes) : (s.useNonce k).rOffset = s.rOffset := rfl
@[simp] theorem State.useNonce_rFramelen (s : State) (k : Bytes) : (s.useNonce k).rFramelen = s.rFramelen := rfl
@[simp] theorem State.useNonce_rCrc (s : State) (k : Bytes) : (s.useNonce k).rCrc = s.rCrc := rfl
@[simp] theorem State.useNonce_ibufLen (s : State) (k : Bytes) : (s.useNonce k).ibufLen = s.ibufLen := rfl
@[simp] theorem State.useNonce_abufLen (s : State) (k : Bytes) : (s.useNonce k).abufLen = s.abufLen := rfl
@[simp] theorem State.useNonce_obufLen (s : State) (k : Bytes) : (s.useNonce k).obufLen = s.obufLen := rfl
@[simp] theorem State.useNonce_mem (s : State) (k : Bytes) : (s.useNonce k).mem = s.mem := rfl
@[simp] theorem State.useNonce_keyLocal (s : State) (k : Bytes) : (s.useNonce k).keyLocal = s.keyLocal := rfl
@[simp] theorem State.useNonce_keySrclen (s : State) (k : Bytes) : (s.useNonce k).keySrclen = s.keySrclen := rfl
@[simp] theorem State.useNonce_keyValid (s : State) (k : Bytes) : (s.useNonce k).keyValid = s.keyValid := rfl
@[simp] theorem State.useNonce_keySession (s : State) (k : Bytes) : (s.useNonce k).keySession = s.keySession := rfl
@[simp] theorem State.useNonce_negotiated (s : State) (k : Bytes) : (s.useNonce k).negotiated = s.negotiated := rfl
@[simp] theorem State.useNonce_nonce (s : State) (k : Bytes) : (s.useNonce k).nonce = s.nonce := rfl
@[simp] theorem State.useNonce_nonceValid (s : State) (k : Bytes) : (s.useNonce k).nonceValid = false := rfl
@[simp] theorem State.useNonce_nlog (s : State) (k : Bytes) : (s.useNonce k).nlog = s.nlog.insert (k, s.nonce) := rfl
@[simp] theorem State.useNonce_faults (s : State) (k : Bytes) : (s.useNonce k).faults = { s.faults with nonceReuse := s.faults.nonceReuse || s.nlog.contains (k, s.nonce) } := rfl
@[simp] theorem State.useNonce_draws (s : State) (k : Bytes) : (s.useNonce k).draws = s.draws := rfl
@[simp] theorem State.useNonce_resets (s : State) (k : Bytes) : (s.useNonce k).resets = s.resets := rfl
@[simp] theorem State.useNonce_inputs (s : State) (k : Bytes) : (s.useNonce k).inputs = s.inputs := rfl
@[simp] theorem State.useNonce_replies (s : State) (k : Bytes) : (s.useNonce k).replies = s.replies := rfl
@[simp] theorem State.useNonce_cap (s : State) (k : Bytes) : (s.useNonce k).cap = s.cap := rfl

/-! ### `State.negotiate` -/

@[simp] theorem State.negotiate_params (s : State) (k : Bytes) : (s.negotiate k).params = s.params := rfl
@[simp] theorem State.negotiate_cmd (s : State) (k : Bytes) : (s.negotiate k).cmd = s.cmd := rfl
@[simp] theorem State.negotiate_status (s : State) (k : Bytes) : (s.negotiate k).status = s.status := rfl
@[simp] theorem State.negotiate_version (s : State) (k : Bytes) : (s.negotiate k).version = s.version := rfl
@[simp] theorem State.negotiate_seqIn (s : State) (k : Bytes) : (s.negotiate k).seqIn = s.seqIn := rfl
@[simp] theorem State.negotiate_cmdIn (s : State) (k : Bytes) : (s.negotiate k).cmdIn = s.cmdIn := rfl
@[simp] theorem State.negotiate_retcodeIn (s : State) (k : Bytes) : (s.negotiate k).retcodeIn = s.retcodeIn := rfl
@[simp] theorem State.negotiate_rSeq (s : State) (k : Bytes) : (s.negotiate k).rSeq = s.rSeq := rfl
@[simp] theorem State.negotiate_rCmd (s : State) (k : Bytes) : (s.negotiate k).rCmd = s.rCmd := rfl
@[simp] theorem State.negotiate_rRetcode (s : State) (k : Bytes) : (s.negotiate k).rRetcode = s.rRetcode := rfl
@[simp] theorem State.negotiate_rLen (s : State) (k : Bytes) : (s.negotiate k).rLen = s.rLen := rfl
@[simp] theorem State.negotiate_rOffset (s : State) (k : Bytes) : (s.negotiate k).rOffset = s.rOffset := rfl
@[simp] theorem State.negotiate_rFramelen (s : State) (k : Bytes) : (s.negotiate k).rFramelen = s.rFramelen := rfl
@[simp] theorem State.negotiate_rCrc (s : State) (k : Bytes) : (s.negotiate k).rCrc = s.rCrc := rfl
@[simp] theorem State.negotiate_ibufLen (s : State) (k : Bytes) : (s.negotiate k).ibufLen = s.ibufLen := rfl
@[simp] theorem State.negotiate_abufLen (s : State) (k : Bytes) : (s.negotiate k).abufLen = s.abufLen := rfl
@[simp] theorem State.negotiate_obufLen (s : State) (k : Bytes) : (s.negotiate k).obufLen = 0 := rfl
@[simp] theorem State.negotiate_mem (s : State) (k : Bytes) : (s.negotiate k).mem = s.mem.clear Buffer.obuf.base s.cap := rfl
@[simp] theorem State.negotiate_keyLocal (s : State) (k : Bytes) : (s.negotiate k).keyLocal = s.keyLocal := rfl
@[simp] theorem State.negotiate_keySrclen (s : State) (k : Bytes) : (s.negotiate k).keySrclen = s.keySrclen := rfl
@[simp] theorem State.negotiate_keyValid (s : State) (k : Bytes) : (s.negotiate k).keyValid = s.keyValid := rfl
@[simp] theorem State.negotiate_keySession (s : State) (k : Bytes) : (s.negotiate k).keySession = k := rfl
@[simp] theorem State.negotiate_negotiated (s : State) (k : Bytes) : (s.negotiate k).negotiated = true := rfl
@[simp] theorem State.negotiate_nonce (s : State) (k : Bytes) : (s.negotiate k).nonce = s.nonce := rfl
@[simp] theorem State.negotiate_nonceValid (s : State) (k : Bytes) : (s.negotiate k).nonceValid = s.nonceValid := rfl
@[simp] theorem State.negotiate_nlog (s : State) (k : Bytes) : (s.negotiate k).nlog = s.nlog := rfl
@[simp] theorem State.negotiate_faults (s : State) (k : Bytes) : (s.negotiate k).faults = s.faults := rfl
@[simp] theorem State.negotiate_draws (s : State) (k : Bytes) : (s.negotiate k).draws = s.draws := rfl
@[simp] theorem State.negotiate_resets (s : State) (k : Bytes) : (s.negotiate k).resets = s.resets := rfl
@[simp] theorem State.negotiate_inputs (s : State) (k : Bytes) : (s.negotiate k).inputs = s.inputs := rfl
@[simp] theorem State.negotiate_replies (s : State) (k : Bytes) : (s.negotiate k).replies = s.replies := rfl
@[simp] theorem State.negotiate_cap (s : State) (k : Bytes) : (s.negotiate k).cap = s.cap := rfl

/-! ### `State.packed` -/

@[simp] theorem State.packed_params (s : State) (f : Bytes × Nat) : (s.packed f).params = s.params := rfl
@[simp] theorem State.packed_cmd (s : State) (f : Bytes × Nat) : (s.packed f).cmd = s.cmd := rfl
@[simp] theorem State.packed_status (s : State) (f : Bytes × Nat) : (s.packed f).status = s.status := rfl
@[simp] theorem State.packed_version (s : State) (f : Bytes × Nat) : (s.packed f).version = s.version := rfl
@[simp] theorem State.packed_seqIn (s : State) (f : Bytes × Nat) : (s.packed f).seqIn = s.seqIn := rfl
@[simp] theorem State.packed_cmdIn (s : State) (f : Bytes × Nat) : (s.packed f).cmdIn = s.cmdIn := rfl
@[simp] theorem State.packed_retcodeIn (s : State) (f : Bytes × Nat) : (s.packed f).retcodeIn = s.retcodeIn := rfl
@[simp] theorem State.packed_rSeq (s : State) (f : Bytes × Nat) : (s.packed f).rSeq = s.rSeq := rfl
@[simp] theorem State.packed_rCmd (s : State) (f : Bytes × Nat) : (s.packed f).rCmd = s.rCmd := rfl
@[simp] theorem State.packed_rRetcode (s : State) (f : Bytes × Nat) : (s.packed f).rRetcode = s.rRetcode := rfl
@[simp] theorem State.packed_rLen (s : State) (f : Bytes × Nat) : (s.packed f).rLen = BitVec.ofNat 32 f.2 := rfl
@[simp] theorem State.packed_rOffset (s : State) (f : Bytes × Nat) : (s.packed f).rOffset = s.rOffset := rfl
@[simp] theorem State.packed_rFramelen (s : State) (f : Bytes × Nat) : (s.packed f).rFramelen = BitVec.ofNat 32 f.1.length := rfl
@[simp] theorem State.packed_rCrc (s : State) (f : Bytes × Nat) : (s.packed f).rCrc = s.rCrc := rfl
@[simp] theorem State.packed_ibufLen (s : State) (f : Bytes × Nat) : (s.packed f).ibufLen = s.ibufLen := rfl
@[simp] theorem State.packed_abufLen (s : State) (f : Bytes × Nat) : (s.packed f).abufLen = s.abufLen := rfl
@[simp] theorem State.packed_obufLen (s : State) (f : Bytes × Nat) : (s.packed f).obufLen = BitVec.ofNat 32 f.1.length := rfl
@[simp] theorem State.packed_mem (s : State) (f : Bytes × Nat) : (s.packed f).mem = (s.mem.clear Buffer.obuf.base s.cap).writeBytes Buffer.obuf.base f.1 := rfl
@[simp] theorem State.packed_keyLocal (s : State) (f : Bytes × Nat) : (s.packed f).keyLocal = s.keyLocal := rfl
@[simp] theorem State.packed_keySrclen (s : State) (f : Bytes × Nat) : (s.packed f).keySrclen = s.keySrclen := rfl
@[simp] theorem State.packed_keyValid (s : State) (f : Bytes × Nat) : (s.packed f).keyValid = s.keyValid := rfl
@[simp] theorem State.packed_keySession (s : State) (f : Bytes × Nat) : (s.packed f).keySession = s.keySession := rfl
@[simp] theorem State.packed_negotiated (s : State) (f : Bytes × Nat) : (s.packed f).negotiated = s.negotiated := rfl
@[simp] theorem State.packed_nonce (s : State) (f : Bytes × Nat) : (s.packed f).nonce = s.nonce := rfl
@[simp] theorem State.packed_nonceValid (s : State) (f : Bytes × Nat) : (s.packed f).nonceValid = s.nonceValid := rfl
@[simp] theorem State.packed_nlog (s : State) (f : Bytes × Nat) : (s.packed f).nlog = s.nlog := rfl
@[simp] theorem State.packed_faults (s : State) (f : Bytes × Nat) : (s.packed f).faults = s.faults := rfl
@[simp] theorem State.packed_draws (s : State) (f : Bytes × Nat) : (s.packed f).draws = s.draws := rfl
@[simp] theorem State.packed_resets (s : State) (f : Bytes × Nat) : (s.packed f).resets = s.resets := rfl
@[simp] theorem State.packed_inputs (s : State) (f : Bytes × Nat) : (s.packed f).inputs = s.inputs := rfl
@[simp] theorem State.packed_replies (s : State) (f : Bytes × Nat) : (s.packed f).replies = s.replies := rfl
@[simp] theorem State.packed_cap (s : State) (f : Bytes × Nat) : (s.packed f).cap = s.cap := rfl

/-! ### `State.unpacked` -/

@[simp] theorem State.unpacked_params (s : State) (f : Parsed) (v : Bytes) : (s.unpacked f v).params = s.params := rfl
@[simp] theorem State.unpacked_cmd (s : State) (f : Parsed) (v : Bytes) : (s.unpacked f v).cmd = s.cmd := rfl
@[simp] theorem State.unpacked_status (s : State) (f : Parsed) (v : Bytes) : (s.unpacked f v).status = s.status := rfl
@[simp] theorem State.unpacked_version (s : State) (f : Parsed) (v : Bytes) : (s.unpacked f v).version = s.version := rfl
@[simp] theorem State.unpacked_seqIn (s : State) (f : Parsed) (v : Bytes) : (s.unpacked f v).seqIn = s.seqIn := rfl
@[simp] theorem State.unpacked_cmdIn (s : State) (f : Parsed) (v : Bytes) : (s.unpacked f v).cmdIn = s.cmdIn := rfl
@[simp] theorem State.unpacked_retcodeIn (s : State) (f : Parsed) (v : Bytes) : (s.unpacked f v).retcodeIn = s.retcodeIn := rfl
@[simp] theorem State.unpacked_rSeq (s : State) (f : Parsed) (v : Bytes) : (s.unpacked f v).rSeq = f.seq := rfl
@[simp] theorem State.unpacked_rCmd (s : State) (f : Parsed) (v : Bytes) : (s.unpacked f v).rCmd = f.cmd := rfl
@[simp] theorem State.unpacked_rRetcode (s : State) (f : Parsed) (v : Bytes) : (s.unpacked f v).rRetcode = f.retcode := rfl
@[simp] theorem State.unpacked_rLen (s : State) (f : Parsed) (v : Bytes) : (s.unpacked f v).rLen = f.len := rfl
@[simp] theorem State.unpacked_rOffset (s : State) (f : Parsed) (v : Bytes) : (s.unpacked f v).rOffset = s.rOffset := rfl
@[simp] theorem State.unpacked_rFramelen (s : State) (f : Parsed) (v : Bytes) : (s.unpacked f v).rFramelen = BitVec.ofNat 32 f.total := rfl
@[simp] theorem State.unpacked_rCrc (s : State) (f : Parsed) (v : Bytes) : (s.unpacked f v).rCrc = s.rCrc := rfl
@[simp] theorem State.unpacked_ibufLen (s : State) (f : Parsed) (v : Bytes) : (s.unpacked f v).ibufLen = s.ibufLen := rfl
@[simp] theorem State.unpacked_abufLen (s : State) (f : Parsed) (v : Bytes) : (s.unpacked f v).abufLen = s.abufLen := rfl
@[simp] theorem State.unpacked_obufLen (s : State) (f : Parsed) (v : Bytes) : (s.unpacked f v).obufLen = BitVec.ofNat 32 v.length := rfl
@[simp] theorem State.unpacked_mem (s : State) (f : Parsed) (v : Bytes) : (s.unpacked f v).mem = (s.mem.clear Buffer.obuf.base s.cap).writeBytes Buffer.obuf.base v := rfl
@[simp] theorem State.unpacked_keyLocal (s : State) (f : Parsed) (v : Bytes) : (s.unpacked f v).keyLocal = s.keyLocal := rfl
@[simp] theorem State.unpacked_keySrclen (s : State) (f : Parsed) (v : Bytes) : (s.unpacked f v).keySrclen = s.keySrclen := rfl
@[simp] theorem State.unpacked_keyValid (s : State) (f : Parsed) (v : Bytes) : (s.unpacked f v).keyValid = s.keyValid := rfl
@[simp] theorem State.unpacked_keySession (s : State) (f : Parsed) (v : Bytes) : (s.unpacked f v).keySession = s.keySession := rfl
@[simp] theorem State.unpacked_negotiated (s : State) (f : Parsed) (v : Bytes) : (s.unpacked f v).negotiated = s.negotiated := rfl
@[simp] theorem State.unpacked_nonce (s : State) (f : Parsed) (v : Bytes) : (s.unpacked f v).nonce = s.nonce := rfl
@[simp] theorem State.unpacked_nonceValid (s : State) (f : Parsed) (v : Bytes) : (s.unpacked f v).nonceValid = s.nonceValid := rfl
@[simp] theorem State.unpacked_nlog (s : State) (f : Parsed) (v : Bytes) : (s.unpacked f v).nlog = s.nlog := rfl
@[simp] theorem State.unpacked_faults (s : State) (f : Parsed) (v : Bytes) : (s.unpacked f v).faults = s.faults := rfl
@[simp] theorem State.unpacked_draws (s : State) (f : Parsed) (v : Bytes) : (s.unpacked f v).draws = s.draws := rfl
@[simp] theorem State.unpacked_resets (s : State) (f : Parsed) (v : Bytes) : (s.unpacked f v).resets = s.resets := rfl
@[simp] theorem State.unpacked_inputs (s : State) (f : Parsed) (v : Bytes) : (s.unpacked f v).inputs = s.inputs := rfl
@[simp] theorem State.unpacked_replies (s : State) (f : Parsed) (v : Bytes) : (s.unpacked f v).replies = s.replies := rfl
@[simp] theorem State.unpacked_cap (s : State) (f : Parsed) (v : Bytes) : (s.unpacked f v).cap = s.cap := rfl

/-! ### `State.reply` -/

@[simp] theorem State.reply_params (s : State) (r : Reply) : (s.reply r).params = s.params := rfl
@[simp] theorem State.reply_cmd (s : State) (r : Reply) : (s.reply r).cmd = s.cmd := rfl
@[simp] theorem State.reply_status (s : State) (r : Reply) : (s.reply r).status = s.status := rfl
@[simp] theorem State.reply_version (s : State) (r : Reply) : (s.reply r).version = s.version := rfl
@[simp] theorem State.reply_seqIn (s : State) (r : Reply) : (s.reply r).seqIn = s.seqIn := rfl
@[simp] theorem State.reply_cmdIn (s : State) (r : Reply) : (s.reply r).cmdIn = s.cmdIn := rfl
@[simp] theorem State.reply_retcodeIn (s : State) (r : Reply) : (s.reply r).retcodeIn = s.retcodeIn := rfl
@[simp] theorem State.reply_rSeq (s : State) (r : Reply) : (s.reply r).rSeq = s.rSeq := rfl
@[simp] theorem State.reply_rCmd (s : State) (r : Reply) : (s.reply r).rCmd = s.rCmd := rfl
@[simp] theorem State.reply_rRetcode (s : State) (r : Reply) : (s.reply r).rRetcode = s.rRetcode := rfl
@[simp] theorem State.reply_rLen (s : State) (r : Reply) : (s.reply r).rLen = s.rLen := rfl
@[simp] theorem State.reply_rOffset (s : State) (r : Reply) : (s.reply r).rOffset = s.rOffset := rfl
@[simp] theorem State.reply_rFramelen (s : State) (r : Reply) : (s.reply r).rFramelen = s.rFramelen := rfl
@[simp] theorem State.reply_rCrc (s : State) (r : Reply) : (s.reply r).rCrc = s.rCrc := rfl
@[simp] theorem State.reply_ibufLen (s : State) (r : Reply) : (s.reply r).ibufLen = s.ibufLen := rfl
@[simp] theorem State.reply_abufLen (s : State) (r : Reply) : (s.reply r).abufLen = s.abufLen := rfl
@[simp] theorem State.reply_obufLen (s : State) (r : Reply) : (s.reply r).obufLen = s.obufLen := rfl
@[simp] theorem State.reply_mem (s : State) (r : Reply) : (s.reply r).mem = s.mem := rfl
@[simp] theorem State.reply_keyLocal (s : State) (r : Reply) : (s.reply r).keyLocal = s.keyLocal := rfl
@[simp] theorem State.reply_keySrclen (s : State) (r : Reply) : (s.reply r).keySrclen = s.keySrclen := rfl
@[simp] theorem State.reply_keyValid (s : State) (r : Reply) : (s.reply r).keyValid = s.keyValid := rfl
@[simp] theorem State.reply_keySession (s : State) (r : Reply) : (s.reply r).keySession = s.keySession := rfl
@[simp] theorem State.reply_negotiated (s : State) (r : Reply) : (s.reply r).negotiated = s.negotiated := rfl
@[simp] theorem State.reply_nonce (s : State) (r : Reply) : (s.reply r).nonce = s.nonce := rfl
@[simp] theorem State.reply_nonceValid (s : State) (r : Reply) : (s.reply r).nonceValid = s.nonceValid := rfl
@[simp] theorem State.reply_nlog (s : State) (r : Reply) : (s.reply r).nlog = s.nlog := rfl
@[simp] theorem State.reply_faults (s : State) (r : Reply) : (s.reply r).faults = s.faults := rfl
@[simp] theorem State.reply_draws (s : State) (r : Reply) : (s.reply r).draws = s.draws := rfl
@[simp] theorem State.reply_resets (s : State) (r : Reply) : (s.reply r).resets = s.resets := rfl
@[simp] theorem State.reply_inputs (s : State) (r : Reply) : (s.reply r).inputs = s.inputs := rfl
@[simp] theorem State.reply_replies (s : State) (r : Reply) : (s.reply r).replies = s.replies ++ [r] := rfl
@[simp] theorem State.reply_cap (s : State) (r : Reply) : (s.reply r).cap = s.cap := rfl

/-! ### The reset state -/

@[simp] theorem State.resetOf_params (p : Params) : (State.resetOf p).params = p := rfl
@[simp] theorem State.resetOf_mem (p : Params) : (State.resetOf p).mem = [] := rfl
@[simp] theorem platformReset_draws (s : State) : (platformReset s).draws = s.draws := rfl
@[simp] theorem platformReset_resets (s : State) : (platformReset s).resets = s.resets + 1 := rfl
@[simp] theorem platformReset_inputs (s : State) : (platformReset s).inputs = s.inputs := rfl
@[simp] theorem platformReset_replies (s : State) : (platformReset s).replies = s.replies := rfl
@[simp] theorem platformReset_params (s : State) : (platformReset s).params = s.params := rfl

end Sys2Proof.Machine
end

