-- ==== Sys2Proof/Laws/Ops.lean ====
section
/-!
SUPPORT. What each shared operation can do, said once: the operand reads, the output, the end of a command,
the working key, and the order in which every command runs.
-/

namespace Sys2Proof.Machine

/-! ### Operand reads -/

@[simp] theorem State.length_readString (s : State) (b : Buffer) (n : Nat) : (s.readString b n).length = n := by
  simp [State.readString]

@[simp] theorem State.length_inBytes (s : State) : s.inBytes.length = s.ibufLen.toNat := by simp [State.inBytes]
@[simp] theorem State.length_adBytes (s : State) : s.adBytes.length = s.abufLen.toNat := by simp [State.adBytes]

/-- A byte of an operand: the listed byte, or the free value drawn for it. -/
theorem State.getElem?_readString (s : State) (b : Buffer) {n i : Nat} (h : i < n) :
    (s.readString b n)[i]? = some ((s.mem.read (b.base + i)).getD (Config.freeByte (s.draws + i))) := by
  simp [State.readString, h]

/-- Every byte of a string that is written is the listed one. -/
theorem State.allWritten_iff (s : State) (b : Buffer) (n : Nat) :
    s.allWritten b n = true ↔ ∀ i, i < n → s.written b i = true := by
  simp [State.allWritten]

/-- A read of written bytes changes nothing, not even ghost state. -/
theorem State.noteRead_of_allWritten {s : State} {b : Buffer} {n : Nat} (h : s.allWritten b n = true) :
    s.noteRead b n = s := by
  simp [State.noteRead, h]

/-- A read changes FAULTS and the draws at most. -/
theorem State.noteRead_eq (s : State) (b : Buffer) (n : Nat) :
    s.noteRead b n = { s with faults := (s.noteRead b n).faults, draws := (s.noteRead b n).draws } := rfl

/-! ### The output -/

theorem State.cap_lt (s : State) : s.cap < 2 ^ 32 := s.params.bufCap.isLt

/-- Emitting nothing is clearing the output. -/
theorem State.clearOutput_eq (s : State) : s.clearOutput = s.emit [] := rfl

/-- What `emit` makes every address read as (00_scope.md R12, 20_memory.md R73). -/
theorem State.read_emit (s : State) (v : Bytes) (a : Nat) :
    (s.emit v).mem.read a =
      if Buffer.obuf.base ≤ a ∧ a < Buffer.obuf.base + v.length then v[a - Buffer.obuf.base]?
      else if Buffer.obuf.base ≤ a ∧ a < Buffer.obuf.base + s.cap then none
      else s.mem.read a := by
  simp only [State.emit, Memory.read_writeBytes, Memory.read_clear]

theorem State.outputIs_emit (s : State) {v : Bytes} (hv : v.length ≤ s.cap) : OutputIs (s.emit v) v := by
  have hcap := s.cap_lt
  refine ⟨?_, fun i hi => ?_⟩
  · simp only [State.emit, BitVec.toNat_ofNat]
    exact Nat.mod_eq_of_lt (by omega)
  · have hi' : i < s.cap := hi
    rw [State.read_emit]
    by_cases h : i < v.length
    · rw [if_pos (by omega), Nat.add_sub_cancel_left]
    · rw [if_neg (by omega), if_pos (by omega), List.getElem?_eq_none (by omega)]

theorem State.keepsOutside_emit (s : State) {v : Bytes} (hv : v.length ≤ s.cap) :
    KeepsOutsideOutput s (s.emit v) := by
  intro a ha
  have : ¬(Buffer.obuf.base ≤ a ∧ a < Buffer.obuf.base + s.cap) := by simpa [Buffer.holds] using ha
  rw [State.read_emit, if_neg (by omega), if_neg this]

/-! ### The end of a command -/

/-- The end of a command that has emitted `v`: all that changes is STATUS and the output. -/
theorem State.endsWith_emit (u : State) (e : ErrCode) (f : ResultFlags) {v : Bytes} (hv : v.length ≤ u.cap) :
    EndsWith u ((u.emit v).setStatus e f) e f v :=
  ⟨rfl, rfl, u.outputIs_emit hv, u.keepsOutside_emit hv⟩

/-- What an error leaves (60_exceptions.md R402). -/
theorem State.endsWith_fail (u : State) (e : ErrCode) : EndsWith u (u.fail e) e {} [] :=
  u.endsWith_emit (v := []) e {} (Nat.zero_le _)

theorem State.finish_ok (s : State) (d : Done) : s.finish (.ok d) = d.state.setStatus .ok d.flags := rfl
theorem State.finish_error (s : State) (e : ErrCode) : s.finish (.error e) = s.fail e := rfl

theorem require_ok_iff {c : Prop} [Decidable c] {e : ErrCode} {u : Unit} : require c e = .ok u ↔ c := by
  unfold require
  split <;> simp_all

theorem require_of {c : Prop} [Decidable c] {e : ErrCode} (h : c) : require c e = .ok () := by simp [require, h]

theorem require_of_not {c : Prop} [Decidable c] {e : ErrCode} (h : ¬c) : require c e = .error e := by
  simp [require, h]

/-- A rule that answers: its first part answered, and the rest answered on that. -/
theorem bind_eq_ok {α β : Type} {x : Except ErrCode α} {f : α → Except ErrCode β} {b : β} :
    (x >>= f) = .ok b ↔ ∃ a, x = .ok a ∧ f a = .ok b := by
  cases x with
  | error e => exact ⟨(by intro h; cases h), (by rintro ⟨_, h, _⟩; cases h)⟩
  | ok a => exact ⟨fun h => ⟨a, rfl, h⟩, (by rintro ⟨_, h, h'⟩; cases h; exact h')⟩

/-- A rule that raises: its first part raised, or the rest raised on what that answered. -/
theorem bind_eq_error {α β : Type} {x : Except ErrCode α} {f : α → Except ErrCode β} {e : ErrCode} :
    (x >>= f) = .error e ↔ x = .error e ∨ ∃ a, x = .ok a ∧ f a = .error e := by
  cases x with
  | error e' =>
    exact ⟨(by intro h; cases h; exact .inl rfl), (by rintro (h | ⟨_, h, _⟩) <;> cases h; rfl)⟩
  | ok a =>
    exact ⟨fun h => .inr ⟨a, rfl, h⟩, (by rintro (h | ⟨_, h, h'⟩) <;> cases h; exact h')⟩

/-! ### The working key -/

/-- A working key that is refused: no key for a legal selection, and an illegal selection (R46). -/
theorem workingKey_error {s : State} {k : Ksel} {e : ErrCode} (h : workingKey s k = .error e) :
    (e = .keyUnset ∧ s.keyValid = false) ∨ k = .reserved := by
  unfold workingKey at h
  split at h
  · split at h
    · cases h
    · next hv => exact .inl ⟨(Except.error.inj h).symm, by simpa using hv⟩
  · split at h
    · cases h
    · split at h
      · cases h
      · next hv => exact .inl ⟨(Except.error.inj h).symm, by simpa using hv⟩
  · cases h
  · exact .inr rfl

/-- The widths of the keys are those of the working key (R46). -/
theorem length_workingKey {s : State} {k : Ksel} {key : Bytes} (hl : s.keyLocal.length = 16)
    (hs : s.keySession.length = 16) (h : workingKey s k = .ok key) : key.length = 16 := by
  unfold workingKey at h
  split at h
  · split at h <;> cases h; exact hl
  · split at h
    · cases h; exact hs
    · split at h <;> cases h; exact hl
  · cases h; rfl
  · cases h

/-- The working key is read from the key state alone (R46). -/
theorem workingKey_congr {s s' : State} (hl : s.keyLocal = s'.keyLocal) (hs : s.keySession = s'.keySession)
    (hv : s.keyValid = s'.keyValid) (hn : s.negotiated = s'.negotiated) (k : Ksel) :
    workingKey s k = workingKey s' k := by
  cases k <;> simp [workingKey, hl, hs, hv, hn]

@[simp] theorem workingKey_noteRead (s : State) (b : Buffer) (n : Nat) (k : Ksel) :
    workingKey (s.noteRead b n) k = workingKey s k := workingKey_congr rfl rfl rfl rfl k

@[simp] theorem workingKey_afterIn (s : State) (k : Ksel) : workingKey s.afterIn k = workingKey s k :=
  workingKey_congr rfl rfl rfl rfl k

@[simp] theorem workingKey_afterAd (s : State) (k : Ksel) : workingKey s.afterAd k = workingKey s k :=
  workingKey_congr rfl rfl rfl rfl k

/-! ### The order in which every command runs -/

theorem command_illegal {i : Instr} {s : State} {body : State → Except ErrCode Done} (h : i.wellFormed = false) :
    command i s body = .next (s.fail .illegalCmd) := if_pos h

theorem command_run {i : Instr} {s : State} {body : State → Except ErrCode Done} (h : i.wellFormed = true) :
    command i s body = .next (s.finish (body s)) := if_neg (by simp [h])

theorem commandIn_illegal {i : Instr} {s : State} {body : Bytes → State → Except ErrCode Done}
    (h : i.wellFormed = false) : commandIn i s body = .next (s.fail .illegalCmd) := if_pos h

theorem commandIn_range {i : Instr} {s : State} {body : Bytes → State → Except ErrCode Done}
    (h : i.wellFormed = true) (hr : s.cap < s.ibufLen.toNat) : commandIn i s body = .next (s.fail .bufRange) := by
  rw [commandIn, if_neg (by simp [h]), if_pos hr]

theorem commandIn_run {i : Instr} {s : State} {body : Bytes → State → Except ErrCode Done}
    (h : i.wellFormed = true) (hr : s.ibufLen.toNat ≤ s.cap) :
    commandIn i s body = .next (s.afterIn.finish (body s.inBytes s.afterIn)) := by
  rw [commandIn, if_neg (by simp [h]), if_neg (by omega)]

theorem commandInAd_illegal {i : Instr} {s : State} {body : Bytes → Bytes → State → Except ErrCode Done}
    (h : i.wellFormed = false) : commandInAd i s body = .next (s.fail .illegalCmd) := if_pos h

theorem commandInAd_range {i : Instr} {s : State} {body : Bytes → Bytes → State → Except ErrCode Done}
    (h : i.wellFormed = true) (hr : s.cap < s.ibufLen.toNat ∨ s.cap < s.abufLen.toNat) :
    commandInAd i s body = .next (s.fail .bufRange) := by
  rw [commandInAd, if_neg (by simp [h]), if_pos hr]

theorem commandInAd_run {i : Instr} {s : State} {body : Bytes → Bytes → State → Except ErrCode Done}
    (h : i.wellFormed = true) (hr : s.ibufLen.toNat ≤ s.cap ∧ s.abufLen.toNat ≤ s.cap) :
    commandInAd i s body =
      .next (s.afterIn.afterAd.finish (body s.inBytes s.afterIn.adBytes s.afterIn.afterAd)) := by
  rw [commandInAd, if_neg (by simp [h]), if_neg (by omega)]

end Sys2Proof.Machine
end

