-- ==== Sys2Proof/Laws/Exec.lean ====
section
/-!
SUPPORT. What `exec` can do, said once: an illegal command, an operand out of range, an error of the
command's rule, or the effect of a success, which `Effect` lists command by command.
-/

namespace Sys2Proof.Machine

/-- The success of a command from `s`: `u` is the state it leaves but for STATUS and the output, with the
result flags and the output beside it. -/
inductive Effect : Instr → State → State → ResultFlags → Bytes → Prop
  | nop (s : State) : Effect .nop s s {} []
  | keyLoad (s : State) :
    Effect .keyLoad s
      { s.afterIn with
        keyLocal := (s.inBytes ++ zeros 16).take 16
        keySrclen := BitVec.ofNat 32 s.inBytes.length
        keyValid := true
        negotiated := false
        keySession := zeros 16 } {} []
  | nonceLoad (s : State) (h : s.inBytes.length = 12) :
    Effect .nonceLoad s { s.afterIn with nonce := s.inBytes, nonceValid := true } {} []
  | sessionReset (s : State) : Effect .sessionReset s { s with negotiated := false, keySession := zeros 16 } {} []
  | kdf34 (s : State) (hk : s.keyValid = true) (h : s.inBytes.length = 32) :
    Effect .kdf34 s
      { s.afterIn with
        keySession := aesEnc s.keyLocal (xorBytes (slice s.inBytes 0 16) (slice s.inBytes 16 32))
        negotiated := true } {} []
  | kdf35 (s : State) (hk : s.keyValid = true) (h : s.inBytes.length = 32) :
    Effect .kdf35 s
      { s.afterIn with
        keySession := (gcmAE s.keyLocal ((slice s.inBytes 0 16).take 12)
          (xorBytes (slice s.inBytes 0 16) (slice s.inBytes 16 32)) []).1
        negotiated := true } {} []
  | aesEncBlock (s : State) (ksel : Ksel) (k : Bytes) (hk : workingKey s ksel = .ok k)
    (h : s.inBytes.length = 16) : Effect (.aesEncBlock ksel) s s.afterIn {} (aesEnc k s.inBytes)
  | aesDecBlock (s : State) (ksel : Ksel) (k : Bytes) (hk : workingKey s ksel = .ok k)
    (h : s.inBytes.length = 16) : Effect (.aesDecBlock ksel) s s.afterIn {} (aesDec k s.inBytes)
  | pkcs7Pad (s : State) (h : (pad s.inBytes).length ≤ s.cap) : Effect .pkcs7Pad s s.afterIn {} (pad s.inBytes)
  | pkcs7Unpad (s : State) (vfy : Bool) (m : Bytes) (h : unpad s.inBytes vfy = .ok m) :
    Effect (.pkcs7Unpad vfy) s s.afterIn {} m
  | ecbEnc (s : State) (ksel : Ksel) (k : Bytes) (hk : workingKey s ksel = .ok k)
    (h : (ecbEnc k s.inBytes).length ≤ s.cap) : Effect (.ecbEnc ksel) s s.afterIn {} (ecbEnc k s.inBytes)
  | ecbDec (s : State) (ksel : Ksel) (vfy : Bool) (k m : Bytes) (hk : workingKey s ksel = .ok k)
    (h : ecbDec k s.inBytes vfy = .ok m) : Effect (.ecbDec ksel vfy) s s.afterIn {} m
  | gcmEnc (s : State) (ksel : Ksel) (nx : Bool) (k : Bytes) (hk : workingKey s ksel = .ok k)
    (hn : s.nonceValid = true)
    (h : (gcmOutput nx s.nonce (gcmAE k s.nonce s.inBytes s.afterIn.adBytes)).length ≤ s.cap) :
    Effect (.gcmEnc ksel nx) s (s.afterIn.afterAd.useNonce k) {}
      (gcmOutput nx s.nonce (gcmAE k s.nonce s.inBytes s.afterIn.adBytes))
  | gcmDec (s : State) (ksel : Ksel) (nx : Bool) (k p : Bytes) (parts : Bytes × Bytes × Bytes)
    (hk : workingKey s ksel = .ok k) (hp : gcmParts s nx s.inBytes = .ok parts)
    (h : gcmAD k parts.1 parts.2.1 parts.2.2 s.afterIn.adBytes = some p) :
    Effect (.gcmDec ksel nx) s s.afterIn.afterAd {} p
  | crc32 (s : State) : Effect .crc32 s { s.afterIn with rCrc := crc32 s.inBytes } {} (be32 (crc32 s.inBytes))
  | hmacSha256 (s : State) (ksel : Ksel) (k : Bytes) (hk : workingKey s ksel = .ok k) :
    Effect (.hmacSha256 ksel) s s.afterIn {} (hmac k s.inBytes)
  | hmacVerify (s : State) (ksel : Ksel) (k : Bytes) (hk : workingKey s ksel = .ok k)
    (hl : s.afterIn.adBytes.length = 32) (h : hmac k s.inBytes = s.afterIn.adBytes) :
    Effect (.hmacVerify ksel) s s.afterIn.afterAd {} []
  | frameScan (s : State) (r : Scan) (h : scanFrame s.params s.inBytes = .ok r) :
    Effect .frameScan s
      { s.afterIn with
        rOffset := BitVec.ofNat 32 r.offset
        rFramelen := s.afterIn.regValue r.frameLen
        draws := s.afterIn.regDraws r.frameLen }
      { incomplete := r.incomplete, is6699 := r.is66 } []
  | pack55 (s : State) (ksel : Ksel) (hm : TrailerKind) (rc : RcMode) (tr : Trailer)
    (ht : trailerOperand s ksel hm = .ok tr)
    (h : (build55 s.params s.seqIn s.cmdIn (retcodeOperand s rc) s.inBytes tr).1.length ≤ s.cap) :
    Effect (.pack55 ksel hm rc) s
      { s.afterIn with
        rLen := BitVec.ofNat 32 (build55 s.params s.seqIn s.cmdIn (retcodeOperand s rc) s.inBytes tr).2
        rFramelen :=
          BitVec.ofNat 32 (build55 s.params s.seqIn s.cmdIn (retcodeOperand s rc) s.inBytes tr).1.length } {}
      (build55 s.params s.seqIn s.cmdIn (retcodeOperand s rc) s.inBytes tr).1
  | unpack55 (s : State) (ksel : Ksel) (hm : TrailerKind) (rc : RcMode) (tr : Trailer) (f : Parsed)
    (ht : trailerOperand s ksel hm = .ok tr) (h : parse55 s.params s.inBytes tr rc = .ok f) :
    Effect (.unpack55 ksel hm rc) s
      { s.afterIn with
        rSeq := f.seq
        rCmd := f.cmd
        rLen := f.len
        rRetcode := f.retcode
        rFramelen := BitVec.ofNat 32 f.total }
      { trailerOk := f.trailerOk, rcPresent := f.present } f.payload
  | pack66 (s : State) (ksel : Ksel) (rc : RcMode) (k : Bytes) (hk : workingKey s ksel = .ok k)
    (hn : s.nonceValid = true)
    (h : (build66 s.params s.seqIn s.cmdIn (retcodeOperand s rc) s.inBytes k s.nonce).1.length ≤ s.cap) :
    Effect (.pack66 ksel rc) s
      { s.afterIn.useNonce k with
        rLen := BitVec.ofNat 32 (build66 s.params s.seqIn s.cmdIn (retcodeOperand s rc) s.inBytes k s.nonce).2
        rFramelen := BitVec.ofNat 32
          (build66 s.params s.seqIn s.cmdIn (retcodeOperand s rc) s.inBytes k s.nonce).1.length }
      { is6699 := true } (build66 s.params s.seqIn s.cmdIn (retcodeOperand s rc) s.inBytes k s.nonce).1
  | unpack66 (s : State) (ksel : Ksel) (rc : RcMode) (k : Bytes) (f : Parsed) (hk : workingKey s ksel = .ok k)
    (h : parse66 s.params s.inBytes k rc = .ok f) :
    Effect (.unpack66 ksel rc) s
      { s.afterIn with
        rSeq := f.seq
        rCmd := f.cmd
        rLen := f.len
        rRetcode := f.retcode
        rFramelen := BitVec.ofNat 32 f.total }
      { trailerOk := f.trailerOk, rcPresent := f.present, is6699 := true } f.payload
  | msgEncode55 (s : State) (v : PipeVersion) (k : Bytes) (hv : pipeVersion s.version = some v) (h35 : v ≠ .v35)
    (hc : ¬(s.keyValid = true ∧ s.keySrclen.toNat < 16)) (hk : workingKey s .sessionKey = .ok k)
    (h : (encodeMessage s.params v s.seqIn s.cmdIn s.inBytes k s.nonce).1.length ≤ s.cap) :
    Effect .msgEncode s
      { s.afterIn with
        rLen := BitVec.ofNat 32 (encodeMessage s.params v s.seqIn s.cmdIn s.inBytes k s.nonce).2
        rFramelen := BitVec.ofNat 32 (encodeMessage s.params v s.seqIn s.cmdIn s.inBytes k s.nonce).1.length }
      {} (encodeMessage s.params v s.seqIn s.cmdIn s.inBytes k s.nonce).1
  | msgEncode66 (s : State) (k : Bytes) (hv : pipeVersion s.version = some .v35)
    (hc : ¬(s.keyValid = true ∧ s.keySrclen.toNat < 16)) (hk : workingKey s .sessionKey = .ok k)
    (hn : s.nonceValid = true)
    (h : (encodeMessage s.params .v35 s.seqIn s.cmdIn s.inBytes k s.nonce).1.length ≤ s.cap) :
    Effect .msgEncode s
      { s.afterIn.useNonce k with
        rLen := BitVec.ofNat 32 (encodeMessage s.params .v35 s.seqIn s.cmdIn s.inBytes k s.nonce).2
        rFramelen := BitVec.ofNat 32 (encodeMessage s.params .v35 s.seqIn s.cmdIn s.inBytes k s.nonce).1.length }
      { is6699 := true } (encodeMessage s.params .v35 s.seqIn s.cmdIn s.inBytes k s.nonce).1
  | msgDecode (s : State) (vfy : Bool) (rc : RcMode) (v : PipeVersion) (k : Bytes) (d : Decoded)
    (hv : pipeVersion s.version = some v) (hc : ¬(s.keyValid = true ∧ s.keySrclen.toNat < 16))
    (hk : workingKey s .sessionKey = .ok k) (h : decodeMessage s.params v s.inBytes k rc vfy = .ok d) :
    Effect (.msgDecode vfy rc) s
      { s.afterIn with
        rSeq := d.frame.seq
        rCmd := d.frame.cmd
        rLen := d.frame.len
        rRetcode := d.frame.retcode
        rFramelen := BitVec.ofNat 32 d.frame.total }
      { trailerOk := d.frame.trailerOk
        rcPresent := d.frame.present
        vhPresent := d.vh
        is6699 := decide (v = .v35)
        empty := d.empty } d.data

/-- What a command's rule answers, on the state after its operand reads: an error that is a code of the rule
(neither OK nor ERR_ILLEGAL_CMD), or an effect. -/
def Rule (i : Instr) (s : State) (r : Except ErrCode Done) : Prop :=
  (∃ e, r = .error e ∧ e ≠ .ok ∧ e ≠ .illegalCmd) ∨
    ∃ u f out, r = .ok { state := u.emit out, flags := f } ∧ Effect i s u f out

theorem trailerOperand_error {s : State} {ksel : Ksel} {hm : TrailerKind} {e : ErrCode}
    (h : trailerOperand s ksel hm = .error e) : (e = .keyUnset ∧ hm = .hmac ∧ s.keyValid = false) ∨ ksel = .reserved := by
  cases hm with
  | crc => cases h
  | hmac =>
    rcases bind_eq_error.1 h with h | ⟨k, -, h⟩
    · exact (workingKey_error h).imp (fun ⟨he, hv⟩ => ⟨he, rfl, hv⟩) id
    · cases h

theorem trailerOperand_ok {s : State} {ksel : Ksel} {hm : TrailerKind} {tr : Trailer}
    (h : trailerOperand s ksel hm = .ok tr) :
    (hm = .crc ∧ tr = .crcTrailer) ∨ (hm = .hmac ∧ ∃ k, workingKey s ksel = .ok k ∧ tr = .hmacTrailer k) := by
  cases hm with
  | crc => cases h; exact .inl ⟨rfl, rfl⟩
  | hmac =>
    obtain ⟨k, hk, h⟩ := bind_eq_ok.1 h
    cases h
    exact .inr ⟨rfl, k, hk, rfl⟩

theorem trailerOperand_congr {s s' : State} (h : ∀ k, workingKey s k = workingKey s' k) (ksel : Ksel)
    (hm : TrailerKind) : trailerOperand s ksel hm = trailerOperand s' ksel hm := by
  cases hm <;> simp [trailerOperand, h]

theorem pipeOperand_ok {s : State} {v : PipeVersion} : pipeOperand s = .ok v ↔ pipeVersion s.version = some v := by
  unfold pipeOperand
  split
  · next h => simp [h]
  · next w h => simp [h]

theorem pipeOperand_error {s : State} {e : ErrCode} (h : pipeOperand s = .error e) :
    e = .config ∧ pipeVersion s.version = none := by
  unfold pipeOperand at h
  split at h
  · next hn => exact ⟨(Except.error.inj h).symm, hn⟩
  · cases h

theorem require_error {c : Prop} [Decidable c] {e e' : ErrCode} (h : require c e = .error e') : e' = e ∧ ¬c := by
  unfold require at h
  split at h
  · cases h
  · next hc => exact ⟨(Except.error.inj h).symm, hc⟩

theorem gcmParts_error {s : State} {nx : Bool} {inp : Bytes} {e : ErrCode} (h : gcmParts s nx inp = .error e) :
    e = .operandLen ∨ e = .nonceUnset := by
  unfold gcmParts at h
  cases nx
  · simp only [Bool.false_eq_true, if_false] at h
    split at h
    · exact .inr (Except.error.inj h).symm
    · split at h
      · exact .inl (Except.error.inj h).symm
      · cases h
  · simp only [if_true] at h
    split at h
    · exact .inl (Except.error.inj h).symm
    · cases h

theorem gcmOpen_ok {k iv c t a p : Bytes} : gcmOpen k iv c t a = .ok p ↔ gcmAD k iv c t a = some p := by
  unfold gcmOpen
  split
  · next h => simp [h]
  · next q h => simp [h]

theorem gcmOpen_error {k iv c t a : Bytes} {e : ErrCode} (h : gcmOpen k iv c t a = .error e) :
    e = .tagMismatch ∧ gcmAD k iv c t a = none := by
  unfold gcmOpen at h
  split at h
  · next hn => exact ⟨(Except.error.inj h).symm, hn⟩
  · cases h

/-- The parts of GCM_DEC's input are no longer than it. -/
theorem gcmParts_ok {s : State} {nx : Bool} {inp : Bytes} {parts : Bytes × Bytes × Bytes}
    (h : gcmParts s nx inp = .ok parts) : parts.2.1.length ≤ inp.length := by
  unfold gcmParts at h
  cases nx
  · simp only [Bool.false_eq_true, if_false] at h
    split at h
    · cases h
    · split at h
      · cases h
      · cases h; simp only [length_slice]; omega
  · simp only [if_true] at h
    split at h
    · cases h
    · cases h; simp only [length_slice]; omega

end Sys2Proof.Machine
end

