-- ==== Sys2Proof/Laws/ExecRule.lean ====
section
/-!
SUPPORT. Each command's rule answers an error of the rule or an effect of `Effect`, and what follows for
`exec`: it always answers a next state, of one of four kinds.
-/

namespace Sys2Proof.Machine

/-- An error of a rule, as the left case of `Rule`. -/
theorem Rule.error {i : Instr} {s : State} {r : Except ErrCode Done} {e : ErrCode} (h : r = .error e)
    (h1 : e ≠ .ok) (h2 : e ≠ .illegalCmd) : Rule i s r := .inl ⟨e, h, h1, h2⟩

/-- An effect, as the right case of `Rule`. -/
theorem Rule.ok {i : Instr} {s u : State} {f : ResultFlags} {out : Bytes} {r : Except ErrCode Done}
    (he : Effect i s u f out) (h : r = .ok { state := u.emit out, flags := f }) : Rule i s r :=
  .inr ⟨u, f, out, h, he⟩

/-- A rule that starts with the working key. -/
theorem Rule.key {i : Instr} {s t : State} {ksel : Ksel} {g : Bytes → Except ErrCode Done}
    (hk : ksel ≠ .reserved) (ht : workingKey t ksel = workingKey s ksel)
    (h : ∀ k, workingKey s ksel = .ok k → Rule i s (g k)) : Rule i s (workingKey t ksel >>= g) := by
  rw [ht]
  cases hw : workingKey s ksel with
  | error e =>
    rcases workingKey_error hw with ⟨rfl, -⟩ | hr
    · exact .error rfl (by decide) (by decide)
    · exact absurd hr hk
  | ok k => exact h k hw

/-- A rule that starts with a check. -/
theorem Rule.check {i : Instr} {s : State} {c : Prop} [Decidable c] {e : ErrCode}
    {g : Unit → Except ErrCode Done} (h1 : e ≠ .ok) (h2 : e ≠ .illegalCmd) (h : c → Rule i s (g ())) :
    Rule i s (require c e >>= g) := by
  by_cases hc : c
  · rw [require_of hc]; exact h hc
  · rw [require_of_not hc]; exact .error rfl h1 h2

/-- A rule that starts with the trailer's key. -/
theorem Rule.trailer {i : Instr} {s t : State} {ksel : Ksel} {hm : TrailerKind}
    {g : Trailer → Except ErrCode Done} (hk : ksel ≠ .reserved)
    (ht : trailerOperand t ksel hm = trailerOperand s ksel hm)
    (h : ∀ tr, trailerOperand s ksel hm = .ok tr → Rule i s (g tr)) : Rule i s (trailerOperand t ksel hm >>= g) := by
  rw [ht]
  cases hw : trailerOperand s ksel hm with
  | error e =>
    rcases trailerOperand_error hw with ⟨rfl, -⟩ | hr
    · exact .error rfl (by decide) (by decide)
    · exact absurd hr hk
  | ok k => exact h k hw

theorem trailerOperand_afterIn (s : State) (ksel : Ksel) (hm : TrailerKind) :
    trailerOperand s.afterIn ksel hm = trailerOperand s ksel hm := trailerOperand_congr (by simp) ksel hm

theorem Ksel.legal_iff {k : Ksel} : k.legal = true ↔ k ≠ .reserved := by cases k <;> decide
theorem RcMode.legal_iff {rc : RcMode} : rc.legal = true ↔ rc ≠ .reserved := by cases rc <;> decide

@[simp] theorem retcodeOperand_afterIn (s : State) (rc : RcMode) : retcodeOperand s.afterIn rc = retcodeOperand s rc := rfl

/-- A derivation's results as fields beside an empty output. -/
theorem State.negotiate_eq (s : State) (key : Bytes) :
    s.negotiate key = ({ s with keySession := key, negotiated := true } : State).emit [] := rfl

/-- A packer's results as fields beside an output. -/
theorem State.packed_eq (s : State) (f : Bytes × Nat) :
    s.packed f = ({ s with rLen := BitVec.ofNat 32 f.2, rFramelen := BitVec.ofNat 32 f.1.length } : State).emit f.1 := rfl

theorem State.packed_useNonce_eq (s : State) (f : Bytes × Nat) (k : Bytes) :
    (s.packed f).useNonce k =
      ({ s.useNonce k with rLen := BitVec.ofNat 32 f.2, rFramelen := BitVec.ofNat 32 f.1.length } : State).emit f.1 :=
  rfl

theorem not_inRange_in {i : Instr} {s : State} (h : readsOf i = .inOnly) (hr : ¬inRange i s) :
    s.cap < s.ibufLen.toNat := by
  rw [inRange, h] at hr
  exact Nat.lt_of_not_le hr

theorem not_inRange_inAd {i : Instr} {s : State} (h : readsOf i = .inAndAd) (hr : ¬inRange i s) :
    s.cap < s.ibufLen.toNat ∨ s.cap < s.abufLen.toNat := by
  rw [inRange, h] at hr
  by_cases h1 : s.cap < s.ibufLen.toNat
  · exact .inl h1
  · exact .inr (Nat.lt_of_not_le fun h2 => hr ⟨Nat.le_of_not_lt h1, h2⟩)

/-! ### Command by command: a legal command with its operands in range -/

theorem exec_rule_nop (s : State) (hw : Instr.wellFormed .nop = true) (_ : inRange .nop s) :
    ∃ r, exec .nop s = .next ((afterReads .nop s).finish r) ∧ Rule .nop s r := by
  unfold exec execNop
  exact ⟨_, command_run hw, .ok (.nop s) rfl⟩

theorem exec_rule_keyLoad (s : State) (hw : Instr.wellFormed .keyLoad = true) (hr : inRange .keyLoad s) :
    ∃ r, exec .keyLoad s = .next ((afterReads .keyLoad s).finish r) ∧ Rule .keyLoad s r := by
  unfold exec execKeyLoad
  exact ⟨_, commandIn_run hw hr, .ok (.keyLoad s) rfl⟩

theorem exec_rule_nonceLoad (s : State) (hw : Instr.wellFormed .nonceLoad = true) (hr : inRange .nonceLoad s) :
    ∃ r, exec .nonceLoad s = .next ((afterReads .nonceLoad s).finish r) ∧ Rule .nonceLoad s r := by
  unfold exec execNonceLoad
  exact ⟨_, commandIn_run hw hr, .check (by decide) (by decide) fun h => .ok (.nonceLoad s h) rfl⟩

theorem exec_rule_sessionReset (s : State) (hw : Instr.wellFormed .sessionReset = true) (_ : inRange .sessionReset s) :
    ∃ r, exec .sessionReset s = .next ((afterReads .sessionReset s).finish r) ∧ Rule .sessionReset s r := by
  unfold exec execSessionReset
  exact ⟨_, command_run hw, .ok (.sessionReset s) rfl⟩

theorem exec_rule_kdf34 (s : State) (hw : Instr.wellFormed .kdf34 = true) (hr : inRange .kdf34 s) :
    ∃ r, exec .kdf34 s = .next ((afterReads .kdf34 s).finish r) ∧ Rule .kdf34 s r := by
  unfold exec execKdf34 deriveSession
  exact ⟨_, commandIn_run hw hr, .check (by decide) (by decide) fun hk =>
    .check (by decide) (by decide) fun h => .ok (.kdf34 s hk h)
      (by simp only [State.afterIn_keyLocal, State.negotiate_eq])⟩

theorem exec_rule_kdf35 (s : State) (hw : Instr.wellFormed .kdf35 = true) (hr : inRange .kdf35 s) :
    ∃ r, exec .kdf35 s = .next ((afterReads .kdf35 s).finish r) ∧ Rule .kdf35 s r := by
  unfold exec execKdf35 deriveSession
  exact ⟨_, commandIn_run hw hr, .check (by decide) (by decide) fun hk =>
    .check (by decide) (by decide) fun h => .ok (.kdf35 s hk h)
      (by simp only [State.afterIn_keyLocal, State.negotiate_eq])⟩

theorem exec_rule_aesEncBlock (ksel : Ksel) (s : State) (hw : Instr.wellFormed (.aesEncBlock ksel) = true) (hr : inRange (.aesEncBlock ksel) s) :
    ∃ r, exec (.aesEncBlock ksel) s = .next ((afterReads (.aesEncBlock ksel) s).finish r) ∧ Rule (.aesEncBlock ksel) s r := by
  unfold exec execAesEncBlock blockCommand
  exact ⟨_, commandIn_run hw hr, .key (Ksel.legal_iff.1 hw) (by simp) fun k hk =>
    .check (by decide) (by decide) fun h => .ok (.aesEncBlock s ksel k hk h) rfl⟩

theorem exec_rule_aesDecBlock (ksel : Ksel) (s : State) (hw : Instr.wellFormed (.aesDecBlock ksel) = true) (hr : inRange (.aesDecBlock ksel) s) :
    ∃ r, exec (.aesDecBlock ksel) s = .next ((afterReads (.aesDecBlock ksel) s).finish r) ∧ Rule (.aesDecBlock ksel) s r := by
  unfold exec execAesDecBlock blockCommand
  exact ⟨_, commandIn_run hw hr, .key (Ksel.legal_iff.1 hw) (by simp) fun k hk =>
    .check (by decide) (by decide) fun h => .ok (.aesDecBlock s ksel k hk h) rfl⟩

theorem exec_rule_pkcs7Pad (s : State) (hw : Instr.wellFormed .pkcs7Pad = true) (hr : inRange .pkcs7Pad s) :
    ∃ r, exec .pkcs7Pad s = .next ((afterReads .pkcs7Pad s).finish r) ∧ Rule .pkcs7Pad s r := by
  unfold exec execPkcs7Pad
  exact ⟨_, commandIn_run hw hr, .check (by decide) (by decide) fun h => .ok (.pkcs7Pad s h) rfl⟩

theorem exec_rule_pkcs7Unpad (vfy : Bool) (s : State) (hw : Instr.wellFormed (.pkcs7Unpad vfy) = true) (hr : inRange (.pkcs7Unpad vfy) s) :
    ∃ r, exec (.pkcs7Unpad vfy) s = .next ((afterReads (.pkcs7Unpad vfy) s).finish r) ∧ Rule (.pkcs7Unpad vfy) s r := by
  unfold exec execPkcs7Unpad
  refine ⟨_, commandIn_run hw hr, ?_⟩
  cases hu : unpad s.inBytes vfy with
  | error e => exact .error rfl (by rw [unpad_error hu]; decide) (by rw [unpad_error hu]; decide)
  | ok m => exact .ok (.pkcs7Unpad s vfy m hu) rfl

theorem exec_rule_ecbEnc (ksel : Ksel) (s : State) (hw : Instr.wellFormed (.ecbEnc ksel) = true) (hr : inRange (.ecbEnc ksel) s) :
    ∃ r, exec (.ecbEnc ksel) s = .next ((afterReads (.ecbEnc ksel) s).finish r) ∧ Rule (.ecbEnc ksel) s r := by
  unfold exec execEcbEnc
  exact ⟨_, commandIn_run hw hr, .key (Ksel.legal_iff.1 hw) (by simp) fun k hk =>
    .check (by decide) (by decide) fun h => .ok (.ecbEnc s ksel k hk h) rfl⟩

theorem exec_rule_ecbDec (ksel : Ksel) (vfy : Bool) (s : State) (hw : Instr.wellFormed (.ecbDec ksel vfy) = true) (hr : inRange (.ecbDec ksel vfy) s) :
    ∃ r, exec (.ecbDec ksel vfy) s = .next ((afterReads (.ecbDec ksel vfy) s).finish r) ∧ Rule (.ecbDec ksel vfy) s r := by
  unfold exec execEcbDec
  refine ⟨_, commandIn_run hw hr, .key (Ksel.legal_iff.1 hw) (by simp) fun k hk => ?_⟩
  cases hu : ecbDec k s.inBytes vfy with
  | error e =>
    rcases ecbDec_error hu with rfl | rfl <;> exact .error rfl (by decide) (by decide)
  | ok m => exact .ok (.ecbDec s ksel vfy k m hk hu) rfl

theorem exec_rule_gcmEnc (ksel : Ksel) (nx : Bool) (s : State) (hw : Instr.wellFormed (.gcmEnc ksel nx) = true) (hr : inRange (.gcmEnc ksel nx) s) :
    ∃ r, exec (.gcmEnc ksel nx) s = .next ((afterReads (.gcmEnc ksel nx) s).finish r) ∧ Rule (.gcmEnc ksel nx) s r := by
  unfold exec execGcmEnc
  exact ⟨_, commandInAd_run hw hr, .key (Ksel.legal_iff.1 hw) (by simp) fun k hk =>
    .check (by decide) (by decide) fun hn => .check (by decide) (by decide) fun h =>
      .ok (.gcmEnc s ksel nx k hk hn h) rfl⟩

theorem exec_rule_gcmDec (ksel : Ksel) (nx : Bool) (s : State) (hw : Instr.wellFormed (.gcmDec ksel nx) = true) (hr : inRange (.gcmDec ksel nx) s) :
    ∃ r, exec (.gcmDec ksel nx) s = .next ((afterReads (.gcmDec ksel nx) s).finish r) ∧ Rule (.gcmDec ksel nx) s r := by
  unfold exec execGcmDec
  refine ⟨_, commandInAd_run hw hr, .key (Ksel.legal_iff.1 hw) (by simp) fun k hk => ?_⟩
  have hp : gcmParts s.afterIn.afterAd nx s.inBytes = gcmParts s nx s.inBytes := rfl
  rw [hp]
  cases hg : gcmParts s nx s.inBytes with
  | error e => rcases gcmParts_error hg with rfl | rfl <;> exact .error rfl (by decide) (by decide)
  | ok parts =>
    cases ho : gcmOpen k parts.1 parts.2.1 parts.2.2 s.afterIn.adBytes with
    | error e =>
      obtain ⟨rfl, -⟩ := gcmOpen_error ho
      exact .error (e := .tagMismatch) (by simp only [bind, Except.bind, ho]) (by decide) (by decide)
    | ok p =>
      exact .ok (.gcmDec s ksel nx k p parts hk hg (gcmOpen_ok.1 ho))
        (by simp only [bind, Except.bind, ho]; rfl)

theorem exec_rule_crc32 (s : State) (hw : Instr.wellFormed .crc32 = true) (hr : inRange .crc32 s) :
    ∃ r, exec .crc32 s = .next ((afterReads .crc32 s).finish r) ∧ Rule .crc32 s r := by
  unfold exec execCrc32
  exact ⟨_, commandIn_run hw hr, .ok (.crc32 s) rfl⟩

theorem exec_rule_hmacSha256 (ksel : Ksel) (s : State) (hw : Instr.wellFormed (.hmacSha256 ksel) = true) (hr : inRange (.hmacSha256 ksel) s) :
    ∃ r, exec (.hmacSha256 ksel) s = .next ((afterReads (.hmacSha256 ksel) s).finish r) ∧ Rule (.hmacSha256 ksel) s r := by
  unfold exec execHmacSha256
  exact ⟨_, commandIn_run hw hr, .key (Ksel.legal_iff.1 hw) (by simp) fun k hk =>
    .ok (.hmacSha256 s ksel k hk) rfl⟩

theorem exec_rule_hmacVerify (ksel : Ksel) (s : State) (hw : Instr.wellFormed (.hmacVerify ksel) = true) (hr : inRange (.hmacVerify ksel) s) :
    ∃ r, exec (.hmacVerify ksel) s = .next ((afterReads (.hmacVerify ksel) s).finish r) ∧ Rule (.hmacVerify ksel) s r := by
  unfold exec execHmacVerify
  exact ⟨_, commandInAd_run hw hr, .key (Ksel.legal_iff.1 hw) (by simp) fun k hk =>
    .check (by decide) (by decide) fun hl => .check (by decide) (by decide) fun h =>
      .ok (.hmacVerify s ksel k hk hl h) rfl⟩

theorem exec_rule_frameScan (s : State) (hw : Instr.wellFormed .frameScan = true) (hr : inRange .frameScan s) :
    ∃ r, exec .frameScan s = .next ((afterReads .frameScan s).finish r) ∧ Rule .frameScan s r := by
  unfold exec execFrameScan
  refine ⟨_, commandIn_run hw hr, ?_⟩
  cases hu : scanFrame s.params s.inBytes with
  | error e =>
    refine .error (e := e) (by simp only [State.afterIn_params, hu]; rfl) ?_ ?_ <;>
      rcases scanFrame_error hu with rfl | rfl <;> decide
  | ok r => exact .ok (.frameScan s r hu) (by simp only [State.afterIn_params, hu]; rfl)

theorem exec_rule_pack55 (ksel : Ksel) (hm : TrailerKind) (rc : RcMode) (s : State) (hw : Instr.wellFormed (.pack55 ksel hm rc) = true) (hr : inRange (.pack55 ksel hm rc) s) :
    ∃ r, exec (.pack55 ksel hm rc) s = .next ((afterReads (.pack55 ksel hm rc) s).finish r) ∧ Rule (.pack55 ksel hm rc) s r := by
  unfold exec execPack55
  simp only [Instr.wellFormed, Bool.and_eq_true] at hw
  exact ⟨_, commandIn_run (by simp [Instr.wellFormed, hw]) hr,
    .trailer (Ksel.legal_iff.1 hw.1) (trailerOperand_afterIn ..) fun tr ht =>
      .check (by decide) (by decide) fun h => .ok (.pack55 s ksel hm rc tr ht h)
        (by simp only [State.afterIn_params, State.afterIn_seqIn, State.afterIn_cmdIn, retcodeOperand_afterIn,
          State.packed_eq])⟩

theorem exec_rule_unpack55 (ksel : Ksel) (hm : TrailerKind) (rc : RcMode) (s : State) (hw : Instr.wellFormed (.unpack55 ksel hm rc) = true) (hr : inRange (.unpack55 ksel hm rc) s) :
    ∃ r, exec (.unpack55 ksel hm rc) s = .next ((afterReads (.unpack55 ksel hm rc) s).finish r) ∧ Rule (.unpack55 ksel hm rc) s r := by
  unfold exec execUnpack55
  simp only [Instr.wellFormed, Bool.and_eq_true] at hw
  refine ⟨_, commandIn_run (by simp [Instr.wellFormed, hw]) hr,
    .trailer (Ksel.legal_iff.1 hw.1) (trailerOperand_afterIn ..) fun tr ht => ?_⟩
  cases hu : parse55 s.params s.inBytes tr rc with
  | error e =>
    refine .error (e := e) (by simp only [State.afterIn_params, hu]; rfl) ?_ ?_ <;>
      rcases parse55_error hu with rfl | rfl | rfl | rfl | h <;>
      first | decide | exact absurd h (RcMode.legal_iff.1 hw.2)
  | ok f => exact .ok (.unpack55 s ksel hm rc tr f ht hu) (by simp only [State.afterIn_params, hu]; rfl)

theorem exec_rule_pack66 (ksel : Ksel) (rc : RcMode) (s : State) (hw : Instr.wellFormed (.pack66 ksel rc) = true) (hr : inRange (.pack66 ksel rc) s) :
    ∃ r, exec (.pack66 ksel rc) s = .next ((afterReads (.pack66 ksel rc) s).finish r) ∧ Rule (.pack66 ksel rc) s r := by
  unfold exec execPack66
  simp only [Instr.wellFormed, Bool.and_eq_true] at hw
  exact ⟨_, commandIn_run (by simp [Instr.wellFormed, hw]) hr,
    .key (Ksel.legal_iff.1 hw.1) (by simp) fun k hk =>
      .check (by decide) (by decide) fun hn => .check (by decide) (by decide) fun h =>
        .ok (.pack66 s ksel rc k hk hn h)
          (by simp only [State.afterIn_params, State.afterIn_seqIn, State.afterIn_cmdIn, State.afterIn_nonce,
            retcodeOperand_afterIn, State.packed_useNonce_eq])⟩

theorem exec_rule_unpack66 (ksel : Ksel) (rc : RcMode) (s : State) (hw : Instr.wellFormed (.unpack66 ksel rc) = true) (hr : inRange (.unpack66 ksel rc) s) :
    ∃ r, exec (.unpack66 ksel rc) s = .next ((afterReads (.unpack66 ksel rc) s).finish r) ∧ Rule (.unpack66 ksel rc) s r := by
  unfold exec execUnpack66
  simp only [Instr.wellFormed, Bool.and_eq_true] at hw
  refine ⟨_, commandIn_run (by simp [Instr.wellFormed, hw]) hr,
    .key (Ksel.legal_iff.1 hw.1) (by simp) fun k hk => ?_⟩
  cases hu : parse66 s.params s.inBytes k rc with
  | error e =>
    refine .error (e := e) (by simp only [State.afterIn_params, hu]; rfl) ?_ ?_ <;>
      rcases parse66_error hu with rfl | rfl | rfl | rfl | rfl | h <;>
      first | decide | exact absurd h (RcMode.legal_iff.1 hw.2)
  | ok f => exact .ok (.unpack66 s ksel rc k f hk hu) (by simp only [State.afterIn_params, hu]; rfl)

theorem exec_rule_msgEncode (s : State) (hw : Instr.wellFormed .msgEncode = true) (hr : inRange .msgEncode s) :
    ∃ r, exec .msgEncode s = .next ((afterReads .msgEncode s).finish r) ∧ Rule .msgEncode s r := by
  unfold exec execMsgEncode
  refine ⟨_, commandIn_run hw hr, ?_⟩
  have hv' : pipeOperand s.afterIn = pipeOperand s := rfl
  rw [hv']
  cases hv : pipeOperand s with
  | error e =>
    obtain ⟨rfl, -⟩ := pipeOperand_error hv
    exact .error rfl (by decide) (by decide)
  | ok v =>
    refine .check (by decide) (by decide) fun hc => .key (by decide) (by simp) fun k hk =>
      .check (by decide) (by decide) fun hn => .check (by decide) (by decide) fun h => ?_
    by_cases h35 : v = .v35
    · subst h35
      have hn' : s.nonceValid = true := by
        cases hnv : s.nonceValid with
        | true => rfl
        | false => exact absurd ⟨rfl, hnv⟩ hn
      exact .ok (.msgEncode66 s k (pipeOperand_ok.1 hv) hc hk hn' h)
        (by simp only [if_true, State.afterIn_params, State.afterIn_seqIn, State.afterIn_cmdIn, State.afterIn_nonce,
          State.packed_useNonce_eq])
    · exact .ok (.msgEncode55 s v k (pipeOperand_ok.1 hv) h35 hc hk h)
        (by simp only [if_neg h35, State.afterIn_params, State.afterIn_seqIn, State.afterIn_cmdIn, State.afterIn_nonce,
          State.packed_eq])

theorem exec_rule_msgDecode (vfy : Bool) (rc : RcMode) (s : State) (hw : Instr.wellFormed (.msgDecode vfy rc) = true) (hr : inRange (.msgDecode vfy rc) s) :
    ∃ r, exec (.msgDecode vfy rc) s = .next ((afterReads (.msgDecode vfy rc) s).finish r) ∧ Rule (.msgDecode vfy rc) s r := by
  unfold exec execMsgDecode
  refine ⟨_, commandIn_run hw hr, ?_⟩
  have hv' : pipeOperand s.afterIn = pipeOperand s := rfl
  rw [hv']
  cases hv : pipeOperand s with
  | error e =>
    obtain ⟨rfl, -⟩ := pipeOperand_error hv
    exact .error rfl (by decide) (by decide)
  | ok v =>
    refine .check (by decide) (by decide) fun hc => .key (by decide) (by simp) fun k hk => ?_
    cases hu : decodeMessage s.params v s.inBytes k rc vfy with
    | error e =>
      obtain ⟨h1, h2⟩ := decodeMessage_error (RcMode.legal_iff.1 hw) hu
      exact .error (e := e) (by simp only [State.afterIn_params, hu]; rfl) h2 h1
    | ok d =>
      exact .ok (.msgDecode s vfy rc v k d (pipeOperand_ok.1 hv) hc hk hu)
        (by simp only [State.afterIn_params, hu]; rfl)

/-- A legal command with its operands in range runs its rule on the state after the reads, and commits. -/
theorem exec_rule (i : Instr) (s : State) (hw : i.wellFormed = true) (hr : inRange i s) :
    ∃ r, exec i s = .next ((afterReads i s).finish r) ∧ Rule i s r := by
  cases i with
  | nop => exact exec_rule_nop s hw hr
  | keyLoad => exact exec_rule_keyLoad s hw hr
  | nonceLoad => exact exec_rule_nonceLoad s hw hr
  | sessionReset => exact exec_rule_sessionReset s hw hr
  | kdf34 => exact exec_rule_kdf34 s hw hr
  | kdf35 => exact exec_rule_kdf35 s hw hr
  | aesEncBlock ksel => exact exec_rule_aesEncBlock ksel s hw hr
  | aesDecBlock ksel => exact exec_rule_aesDecBlock ksel s hw hr
  | pkcs7Pad => exact exec_rule_pkcs7Pad s hw hr
  | pkcs7Unpad vfy => exact exec_rule_pkcs7Unpad vfy s hw hr
  | ecbEnc ksel => exact exec_rule_ecbEnc ksel s hw hr
  | ecbDec ksel vfy => exact exec_rule_ecbDec ksel vfy s hw hr
  | gcmEnc ksel nx => exact exec_rule_gcmEnc ksel nx s hw hr
  | gcmDec ksel nx => exact exec_rule_gcmDec ksel nx s hw hr
  | crc32 => exact exec_rule_crc32 s hw hr
  | hmacSha256 ksel => exact exec_rule_hmacSha256 ksel s hw hr
  | hmacVerify ksel => exact exec_rule_hmacVerify ksel s hw hr
  | frameScan => exact exec_rule_frameScan s hw hr
  | pack55 ksel hm rc => exact exec_rule_pack55 ksel hm rc s hw hr
  | unpack55 ksel hm rc => exact exec_rule_unpack55 ksel hm rc s hw hr
  | pack66 ksel rc => exact exec_rule_pack66 ksel rc s hw hr
  | unpack66 ksel rc => exact exec_rule_unpack66 ksel rc s hw hr
  | msgEncode => exact exec_rule_msgEncode s hw hr
  | msgDecode vfy rc => exact exec_rule_msgDecode vfy rc s hw hr

/-- An ill-formed command ends with ERR_ILLEGAL_CMD (30_encoding.md R97). -/
theorem exec_illegal (i : Instr) (s : State) (hw : i.wellFormed = false) : exec i s = .next (s.fail .illegalCmd) := by
  cases i with
  | nop => unfold exec execNop; exact command_illegal hw
  | keyLoad => unfold exec execKeyLoad; exact commandIn_illegal hw
  | nonceLoad => unfold exec execNonceLoad; exact commandIn_illegal hw
  | sessionReset => unfold exec execSessionReset; exact command_illegal hw
  | kdf34 => unfold exec execKdf34; exact commandIn_illegal hw
  | kdf35 => unfold exec execKdf35; exact commandIn_illegal hw
  | aesEncBlock ksel => unfold exec execAesEncBlock; exact commandIn_illegal hw
  | aesDecBlock ksel => unfold exec execAesDecBlock; exact commandIn_illegal hw
  | pkcs7Pad => unfold exec execPkcs7Pad; exact commandIn_illegal hw
  | pkcs7Unpad vfy => unfold exec execPkcs7Unpad; exact commandIn_illegal hw
  | ecbEnc ksel => unfold exec execEcbEnc; exact commandIn_illegal hw
  | ecbDec ksel vfy => unfold exec execEcbDec; exact commandIn_illegal hw
  | gcmEnc ksel nx => unfold exec execGcmEnc; exact commandInAd_illegal hw
  | gcmDec ksel nx => unfold exec execGcmDec; exact commandInAd_illegal hw
  | crc32 => unfold exec execCrc32; exact commandIn_illegal hw
  | hmacSha256 ksel => unfold exec execHmacSha256; exact commandIn_illegal hw
  | hmacVerify ksel => unfold exec execHmacVerify; exact commandInAd_illegal hw
  | frameScan => unfold exec execFrameScan; exact commandIn_illegal hw
  | pack55 ksel hm rc => unfold exec execPack55; exact commandIn_illegal hw
  | unpack55 ksel hm rc => unfold exec execUnpack55; exact commandIn_illegal hw
  | pack66 ksel rc => unfold exec execPack66; exact commandIn_illegal hw
  | unpack66 ksel rc => unfold exec execUnpack66; exact commandIn_illegal hw
  | msgEncode => unfold exec execMsgEncode; exact commandIn_illegal hw
  | msgDecode vfy rc => unfold exec execMsgDecode; exact commandIn_illegal hw

/-- An operand longer than BUF_CAP ends a command with ERR_BUF_RANGE before any byte is read (R39). -/
theorem exec_range (i : Instr) (s : State) (hw : i.wellFormed = true) (hr : ¬inRange i s) :
    exec i s = .next (s.fail .bufRange) := by
  cases i with
  | nop => exact absurd trivial hr
  | keyLoad => unfold exec execKeyLoad; exact commandIn_range hw (not_inRange_in rfl hr)
  | nonceLoad => unfold exec execNonceLoad; exact commandIn_range hw (not_inRange_in rfl hr)
  | sessionReset => exact absurd trivial hr
  | kdf34 => unfold exec execKdf34; exact commandIn_range hw (not_inRange_in rfl hr)
  | kdf35 => unfold exec execKdf35; exact commandIn_range hw (not_inRange_in rfl hr)
  | aesEncBlock ksel => unfold exec execAesEncBlock; exact commandIn_range hw (not_inRange_in rfl hr)
  | aesDecBlock ksel => unfold exec execAesDecBlock; exact commandIn_range hw (not_inRange_in rfl hr)
  | pkcs7Pad => unfold exec execPkcs7Pad; exact commandIn_range hw (not_inRange_in rfl hr)
  | pkcs7Unpad vfy => unfold exec execPkcs7Unpad; exact commandIn_range hw (not_inRange_in rfl hr)
  | ecbEnc ksel => unfold exec execEcbEnc; exact commandIn_range hw (not_inRange_in rfl hr)
  | ecbDec ksel vfy => unfold exec execEcbDec; exact commandIn_range hw (not_inRange_in rfl hr)
  | gcmEnc ksel nx => unfold exec execGcmEnc; exact commandInAd_range hw (not_inRange_inAd rfl hr)
  | gcmDec ksel nx => unfold exec execGcmDec; exact commandInAd_range hw (not_inRange_inAd rfl hr)
  | crc32 => unfold exec execCrc32; exact commandIn_range hw (not_inRange_in rfl hr)
  | hmacSha256 ksel => unfold exec execHmacSha256; exact commandIn_range hw (not_inRange_in rfl hr)
  | hmacVerify ksel => unfold exec execHmacVerify; exact commandInAd_range hw (not_inRange_inAd rfl hr)
  | frameScan => unfold exec execFrameScan; exact commandIn_range hw (not_inRange_in rfl hr)
  | pack55 ksel hm rc => unfold exec execPack55; exact commandIn_range hw (not_inRange_in rfl hr)
  | unpack55 ksel hm rc => unfold exec execUnpack55; exact commandIn_range hw (not_inRange_in rfl hr)
  | pack66 ksel rc => unfold exec execPack66; exact commandIn_range hw (not_inRange_in rfl hr)
  | unpack66 ksel rc => unfold exec execUnpack66; exact commandIn_range hw (not_inRange_in rfl hr)
  | msgEncode => unfold exec execMsgEncode; exact commandIn_range hw (not_inRange_in rfl hr)
  | msgDecode vfy rc => unfold exec execMsgDecode; exact commandIn_range hw (not_inRange_in rfl hr)

/-- The effect of a success is what `exec` answers. -/
theorem exec_of_effect {i : Instr} {s u : State} {f : ResultFlags} {out : Bytes} (h : Effect i s u f out)
    (hw : i.wellFormed = true) (hr : inRange i s) : exec i s = .next ((u.emit out).setStatus .ok f) := by
  cases h with
  | nop => unfold exec execNop; rw [command_run hw]; rfl
  | keyLoad => unfold exec execKeyLoad; rw [commandIn_run hw hr]; rfl
  | nonceLoad _ h => unfold exec execNonceLoad; rw [commandIn_run hw hr, require_of h]; rfl
  | sessionReset => unfold exec execSessionReset; rw [command_run hw]; rfl
  | kdf34 _ hk h =>
    unfold exec execKdf34 deriveSession
    rw [commandIn_run hw hr, require_of (show s.afterIn.keyValid = true from hk), require_of h,
      State.afterIn_keyLocal, State.negotiate_eq]
    rfl
  | kdf35 _ hk h =>
    unfold exec execKdf35 deriveSession
    rw [commandIn_run hw hr, require_of (show s.afterIn.keyValid = true from hk), require_of h,
      State.afterIn_keyLocal, State.negotiate_eq]
    rfl
  | aesEncBlock _ ksel k hk h =>
    change execAesEncBlock ksel s = _
    unfold execAesEncBlock blockCommand
    rw [commandIn_run hw hr, workingKey_afterIn, hk, require_of h]
    rfl
  | aesDecBlock _ ksel k hk h =>
    change execAesDecBlock ksel s = _
    unfold execAesDecBlock blockCommand
    rw [commandIn_run hw hr, workingKey_afterIn, hk, require_of h]
    rfl
  | pkcs7Pad _ h =>
    unfold exec execPkcs7Pad emittedChecked
    rw [commandIn_run hw hr, require_of (show (pad s.inBytes).length ≤ s.afterIn.cap from h)]
    rfl
  | pkcs7Unpad _ vfy m h =>
    change execPkcs7Unpad vfy s = _
    unfold execPkcs7Unpad
    rw [commandIn_run hw hr, h]
    rfl
  | ecbEnc _ ksel k hk h =>
    change execEcbEnc ksel s = _
    unfold execEcbEnc emittedChecked
    rw [commandIn_run hw hr, workingKey_afterIn, hk]
    simp only [bind, Except.bind, require_of (show (ecbEnc k s.inBytes).length ≤ s.afterIn.cap from h)]
    rfl
  | ecbDec _ ksel vfy k m hk h =>
    change execEcbDec ksel vfy s = _
    unfold execEcbDec
    rw [commandIn_run hw hr, workingKey_afterIn, hk]
    simp only [bind, Except.bind, h]
    rfl
  | gcmEnc _ ksel nx k hk hn h =>
    change execGcmEnc ksel nx s = _
    unfold execGcmEnc
    rw [commandInAd_run hw hr, workingKey_afterAd, workingKey_afterIn, hk,
      require_of (show s.afterIn.afterAd.nonceValid = true from hn)]
    simp only [bind, Except.bind, State.afterAd_nonce, State.afterIn_nonce, State.afterAd_cap, State.afterIn_cap,
      require_of, h]
    rfl
  | gcmDec _ ksel nx k p parts hk hp h =>
    change execGcmDec ksel nx s = _
    unfold execGcmDec
    rw [commandInAd_run hw hr, workingKey_afterAd, workingKey_afterIn, hk,
      show gcmParts s.afterIn.afterAd nx s.inBytes = gcmParts s nx s.inBytes from rfl, hp]
    simp only [bind, Except.bind, gcmOpen_ok.2 h]
    rfl
  | crc32 => unfold exec execCrc32; rw [commandIn_run hw hr]; rfl
  | hmacSha256 _ ksel k hk =>
    change execHmacSha256 ksel s = _
    unfold execHmacSha256
    rw [commandIn_run hw hr, workingKey_afterIn, hk]
    rfl
  | hmacVerify _ ksel k hk hl h =>
    change execHmacVerify ksel s = _
    unfold execHmacVerify
    rw [commandInAd_run hw hr, workingKey_afterAd, workingKey_afterIn, hk]
    simp only [bind, Except.bind, require_of hl, require_of h]
    rfl
  | frameScan _ r h =>
    unfold exec execFrameScan
    rw [commandIn_run hw hr, State.afterIn_params, h]
    rfl
  | pack55 _ ksel hm rc tr ht h =>
    change execPack55 ksel hm rc s = _
    unfold execPack55
    rw [commandIn_run hw hr, trailerOperand_afterIn, ht]
    simp only [bind, Except.bind, State.afterIn_params, State.afterIn_seqIn, State.afterIn_cmdIn,
      retcodeOperand_afterIn, State.afterIn_cap, require_of, h, State.packed_eq]
    rfl
  | unpack55 _ ksel hm rc tr f ht h =>
    change execUnpack55 ksel hm rc s = _
    unfold execUnpack55
    rw [commandIn_run hw hr, trailerOperand_afterIn, ht]
    simp only [bind, Except.bind, State.afterIn_params, h]
    rfl
  | pack66 _ ksel rc k hk hn h =>
    change execPack66 ksel rc s = _
    unfold execPack66
    rw [commandIn_run hw hr, workingKey_afterIn, hk, require_of (show s.afterIn.nonceValid = true from hn)]
    simp only [bind, Except.bind, State.afterIn_params, State.afterIn_seqIn, State.afterIn_cmdIn,
      State.afterIn_nonce, retcodeOperand_afterIn, State.afterIn_cap, require_of, h, State.packed_useNonce_eq]
    rfl
  | unpack66 _ ksel rc k f hk h =>
    change execUnpack66 ksel rc s = _
    unfold execUnpack66
    rw [commandIn_run hw hr, workingKey_afterIn, hk]
    simp only [bind, Except.bind, State.afterIn_params, h]
    rfl
  | msgEncode55 _ v k hv h35 hc hk h =>
    unfold exec execMsgEncode
    rw [commandIn_run hw hr, show pipeOperand s.afterIn = pipeOperand s from rfl, pipeOperand_ok.2 hv]
    have hc' : keyLengthCheck s.afterIn = .ok () := require_of hc
    simp only [bind, Except.bind, hc', workingKey_afterIn, hk, require_of (show ¬(v = PipeVersion.v35 ∧ s.afterIn.nonceValid = false) from
        fun hx => h35 hx.1), State.afterIn_params, State.afterIn_seqIn, State.afterIn_cmdIn, State.afterIn_nonce,
      State.afterIn_cap, require_of, h, if_neg h35, State.packed_eq]
    rfl
  | msgEncode66 _ k hv hc hk hn h =>
    unfold exec execMsgEncode
    rw [commandIn_run hw hr, show pipeOperand s.afterIn = pipeOperand s from rfl, pipeOperand_ok.2 hv]
    have hc' : keyLengthCheck s.afterIn = .ok () := require_of hc
    simp only [bind, Except.bind, hc', workingKey_afterIn, hk, hn, State.afterIn_nonceValid, require_of,
      Bool.true_eq_false, and_false, not_false_eq_true, State.afterIn_params, State.afterIn_seqIn, State.afterIn_cmdIn,
      State.afterIn_nonce, State.afterIn_cap, require_of, h, if_true, State.packed_useNonce_eq]
    rfl
  | msgDecode _ vfy rc v k d hv hc hk h =>
    change execMsgDecode vfy rc s = _
    unfold execMsgDecode
    rw [commandIn_run hw hr, show pipeOperand s.afterIn = pipeOperand s from rfl, pipeOperand_ok.2 hv]
    have hc' : keyLengthCheck s.afterIn = .ok () := require_of hc
    simp only [bind, Except.bind, hc', workingKey_afterIn, hk, State.afterIn_params, h]
    rfl

/-- What `exec` answers: always a next state, of one of four kinds. -/
theorem exec_cases (i : Instr) (s : State) :
    ∃ t, exec i s = .next t ∧
      ((i.wellFormed = false ∧ t = s.fail .illegalCmd) ∨
        (i.wellFormed = true ∧ ¬inRange i s ∧ t = s.fail .bufRange) ∨
        (i.wellFormed = true ∧ inRange i s ∧
          ∃ e, e ≠ .ok ∧ e ≠ .illegalCmd ∧ t = (afterReads i s).fail e) ∨
        (i.wellFormed = true ∧ inRange i s ∧
          ∃ u f out, Effect i s u f out ∧ t = (u.emit out).setStatus .ok f)) := by
  cases hw : i.wellFormed with
  | false => exact ⟨_, exec_illegal i s hw, .inl ⟨rfl, rfl⟩⟩
  | true =>
    by_cases hr : inRange i s
    · obtain ⟨r, he, h | h⟩ := exec_rule i s hw hr
      · obtain ⟨e, rfl, h1, h2⟩ := h
        exact ⟨_, he, .inr (.inr (.inl ⟨rfl, hr, e, h1, h2, rfl⟩))⟩
      · obtain ⟨u, f, out, rfl, heff⟩ := h
        exact ⟨_, he, .inr (.inr (.inr ⟨rfl, hr, u, f, out, heff, rfl⟩))⟩
    · exact ⟨_, exec_range i s hw hr, .inr (.inl ⟨rfl, hr, rfl⟩)⟩

end Sys2Proof.Machine
end

