-- ==== Sys2Proof/Laws/Commit.lean ====
section
/-!
SUPPORT. The frame of every effect: what a success leaves alone, that its output fits OBUF, and what
`Completes` and `Raises` follow from.
-/

namespace Sys2Proof.Machine

theorem Params.legal_iff {p : Params} : p.legal = true ↔ 1100 ≤ p.bufCap.toNat ∧ p.bufCap.toNat ≤ 2 ^ 30 := by
  simp [Params.legal]

/-- What no effect writes. -/
structure SameInputs (s u : State) : Prop where
  params : u.params = s.params
  cmd : u.cmd = s.cmd
  version : u.version = s.version
  seqIn : u.seqIn = s.seqIn
  cmdIn : u.cmdIn = s.cmdIn
  retcodeIn : u.retcodeIn = s.retcodeIn
  ibufLen : u.ibufLen = s.ibufLen
  abufLen : u.abufLen = s.abufLen
  mem : u.mem = s.mem
  inputs : u.inputs = s.inputs
  replies : u.replies = s.replies

theorem Effect.sameInputs {i : Instr} {s u : State} {f : ResultFlags} {out : Bytes} (h : Effect i s u f out) :
    SameInputs s u := by
  constructor <;> cases h <;> simp

theorem afterReads_sameInputs (i : Instr) (s : State) : SameInputs s (afterReads i s) := by
  unfold afterReads
  split <;> constructor <;> simp

/-- The output of every effect fits the buffer: the checked ones by their check, the others by their rule. -/
theorem Effect.length_out {i : Instr} {s u : State} {f : ResultFlags} {out : Bytes} (h : Effect i s u f out)
    (hl : s.params.legal = true) (hr : inRange i s) : out.length ≤ s.cap := by
  have hcap : 1100 ≤ s.cap := (Params.legal_iff.1 hl).1
  have hin : readsOf i ≠ .nothing → s.inBytes.length ≤ s.cap := by
    intro hne
    rw [State.length_inBytes]
    unfold inRange at hr
    split at hr
    · next h0 => exact absurd h0 hne
    · exact hr
    · exact hr.1
  cases h with
  | nop | keyLoad | nonceLoad | sessionReset | kdf34 | kdf35 | hmacVerify | frameScan => exact Nat.zero_le _
  | aesEncBlock _ ksel k hk h => exact Nat.le_trans (length_aesEnc_le _ _) (by omega)
  | aesDecBlock _ ksel k hk h => exact Nat.le_trans (length_aesDec_le _ _) (by omega)
  | pkcs7Pad _ h | ecbEnc _ _ _ _ h | gcmEnc _ _ _ _ _ _ h | pack55 _ _ _ _ _ _ h | pack66 _ _ _ _ _ _ h
  | msgEncode55 _ _ _ _ _ _ _ h | msgEncode66 _ _ _ _ _ _ h => exact h
  | pkcs7Unpad _ vfy m h => exact Nat.le_trans (length_of_unpad h) (hin (by simp [readsOf]))
  | ecbDec _ ksel vfy k m hk h => exact Nat.le_trans (length_of_ecbDec h) (hin (by simp [readsOf]))
  | gcmDec _ ksel nx k p parts hk hp h =>
    exact Nat.le_trans (length_of_gcmAD h) (Nat.le_trans (gcmParts_ok hp) (hin (by simp [readsOf])))
  | crc32 => simp; omega
  | hmacSha256 => simp; omega
  | unpack55 _ ksel hm rc tr f ht h => exact Nat.le_trans (parse55_bounds h).1 (hin (by simp [readsOf]))
  | unpack66 _ ksel rc k f hk h => exact Nat.le_trans (parse66_bounds h).1 (hin (by simp [readsOf]))
  | msgDecode _ vfy rc v k d hv hc hk h => exact Nat.le_trans (decodeMessage_bounds h) (hin (by simp [readsOf]))

/-- An effect whose output fits completes its command. -/
theorem completes_of_effect {i : Instr} {s u : State} {f : ResultFlags} {out : Bytes} (h : Effect i s u f out)
    (hw : i.wellFormed = true) (hr : inRange i s) (ho : out.length ≤ s.cap) : Completes i s u f out := by
  refine ⟨_, exec_of_effect h hw hr, u.endsWith_emit .ok f ?_⟩
  have : u.cap = s.cap := by unfold State.cap; rw [h.sameInputs.params]
  rw [this]
  exact ho

/-- The same, of the state and the output in other words. -/
theorem completes_of_effect' {i : Instr} {s u u' : State} {f : ResultFlags} {out out' : Bytes}
    (h : Effect i s u f out) (hw : i.wellFormed = true) (hr : inRange i s) (ho : out.length ≤ s.cap)
    (hu : u = u') (hout : out = out') : Completes i s u' f out' := by
  subst hu hout
  exact completes_of_effect h hw hr ho

/-- A command that ends with an error of its own raises it. -/
theorem raises_of_exec {i : Instr} {s u : State} {e : ErrCode} (h : exec i s = .next (u.fail e)) : Raises i s u e :=
  ⟨_, h, u.endsWith_fail e⟩

/-! ### STATUS -/

/-- The fields of STATUS (10_state.md R33). -/
theorem statusWord_fields (e : ErrCode) (f : ResultFlags) (kv nv ng : Bool) :
    (statusWord e f kv nv ng).extractLsb' 0 8 = e.code ∧
      (statusWord e f kv nv ng).getLsbD 8 = f.trailerOk ∧ (statusWord e f kv nv ng).getLsbD 9 = f.rcPresent ∧
      (statusWord e f kv nv ng).getLsbD 10 = f.vhPresent ∧ (statusWord e f kv nv ng).getLsbD 11 = f.incomplete ∧
      (statusWord e f kv nv ng).getLsbD 12 = f.is6699 ∧ (statusWord e f kv nv ng).getLsbD 13 = f.empty ∧
      (statusWord e f kv nv ng).getLsbD 16 = kv ∧ (statusWord e f kv nv ng).getLsbD 17 = nv ∧
      (statusWord e f kv nv ng).getLsbD 18 = ng ∧ (statusWord e f kv nv ng).extractLsb' 14 2 = 0 ∧
      (statusWord e f kv nv ng).extractLsb' 19 13 = 0 := by
  unfold statusWord
  refine ⟨BitVec.eq_of_getLsbD_eq fun i hi => ?_, ?_, ?_, ?_, ?_, ?_, ?_, ?_, ?_, ?_,
    BitVec.eq_of_getLsbD_eq fun i hi => ?_, BitVec.eq_of_getLsbD_eq fun i hi => ?_⟩
  · rw [BitVec.getLsbD_extractLsb', Nat.zero_add, BitVec.getLsbD_append, if_pos hi]
    simp [hi]
  iterate 9 (simp only [BitVec.getLsbD_append]; norm_num)
  · have : i = 0 ∨ i = 1 := by omega
    rcases this with rfl | rfl <;>
      (simp only [BitVec.getLsbD_extractLsb', BitVec.getLsbD_append]; norm_num) <;> rfl
  · simp only [BitVec.getLsbD_extractLsb', BitVec.getLsbD_append]
    iterate 11 rw [if_neg (by omega)]
    simp

theorem ErrCode.code_eq_zero {e : ErrCode} : e.code = 0 ↔ e = .ok := by cases e <;> decide

theorem errorField_setStatus (s : State) (e : ErrCode) (f : ResultFlags) : errorField (s.setStatus e f) = e.code :=
  (statusWord_fields e f _ _ _).1

theorem errorField_fail (s : State) (e : ErrCode) : errorField (s.fail e) = e.code := errorField_setStatus ..

theorem errorField_ok (s : State) (f : ResultFlags) : errorField (s.setStatus .ok f) = 0 := errorField_setStatus ..

/-! ### The operand reads -/

/-- Every operand byte the command reads is marked: `operandsWritten`, as a Bool. -/
def operandsMarked (i : Instr) (s : State) : Bool :=
  match readsOf i with
  | .nothing => true
  | .inOnly => s.allWritten .ibuf s.ibufLen.toNat
  | .inAndAd => s.allWritten .ibuf s.ibufLen.toNat && s.allWritten .abuf s.abufLen.toNat

theorem operandsMarked_iff (i : Instr) (s : State) : operandsMarked i s = true ↔ operandsWritten i s := by
  unfold operandsMarked operandsWritten
  cases readsOf i <;> simp

/-- The reads change FAULTS by UNWRITTEN_READ at most, and the draws (10_state.md R51). -/
theorem afterReads_eq (i : Instr) (s : State) :
    ∃ n, afterReads i s =
      { s with
        faults := { s.faults with unwrittenRead := s.faults.unwrittenRead || !operandsMarked i s }
        draws := n } := by
  unfold afterReads operandsMarked
  cases readsOf i with
  | nothing => exact ⟨s.draws, by cases s; simp⟩
  | inOnly => exact ⟨_, rfl⟩
  | inAndAd =>
    have h : ∀ (x y : FaultSet) (m : Nat), x = y →
        ({ s with faults := x, draws := m } : State) = { s with faults := y, draws := m } := by
      rintro x _ m rfl; rfl
    refine ⟨s.afterIn.afterAd.draws, h s.afterIn.afterAd.faults _ _ ?_⟩
    show FaultSet.mk s.faults.nonceReuse
      ((s.faults.unwrittenRead || !s.allWritten .ibuf _) || !s.allWritten .abuf _) = FaultSet.mk _ _
    simp [Bool.or_assoc]

end Sys2Proof.Machine
end

