-- ==== Sys2Proof/Laws/Decode.lean ====
section
/-!
SUPPORT. The fields of the command word: every word is its fields, what the encoder's words hold, and what
a decoded word has passed.
-/

namespace Sys2Proof

/-- A word is its seven fields side by side (30_encoding.md R90). -/
theorem word_fields (w : Word) :
    w = reservedBits w ++ BitVec.ofBool (nxField w) ++ rcBits w ++ BitVec.ofBool (hmBit w)
      ++ BitVec.ofBool (vfyField w) ++ kselBits w ++ opField w := by
  apply BitVec.eq_of_getLsbD_eq
  intro i hi
  simp only [reservedBits, nxField, rcBits, hmBit, vfyField, kselBits, opField,
    BitVec.getLsbD_append, BitVec.getLsbD_extractLsb', BitVec.getLsbD_ofBool]
  by_cases h : i < 15
  · interval_cases i <;> norm_num
  · iterate 6 rw [if_neg (by omega)]
    have h1 : 15 + (i - 8 - 2 - 1 - 1 - 2 - 1) = i := by omega
    have h2 : i - 8 - 2 - 1 - 1 - 2 - 1 < 17 := by omega
    rw [h1]; simp [h2]

/-- The fields of an encoder's word (R90). -/
theorem commandWord_fields (op : BitVec 8) (k : BitVec 2) (v h : Bool) (r : BitVec 2) (n : Bool) :
    opField (commandWord op k v h r n) = op ∧ kselBits (commandWord op k v h r n) = k ∧
      vfyField (commandWord op k v h r n) = v ∧ hmBit (commandWord op k v h r n) = h ∧
      rcBits (commandWord op k v h r n) = r ∧ nxField (commandWord op k v h r n) = n ∧
      reservedBits (commandWord op k v h r n) = 0 := by
  refine ⟨?_, ?_, ?_, ?_, ?_, ?_, ?_⟩
  · apply BitVec.eq_of_getLsbD_eq
    intro i hi
    simp only [opField, commandWord, BitVec.getLsbD_append, BitVec.getLsbD_extractLsb', Nat.zero_add, if_pos hi]
    simp [hi]
  · apply BitVec.eq_of_getLsbD_eq
    intro i hi
    simp only [kselBits, commandWord, BitVec.getLsbD_append, BitVec.getLsbD_extractLsb']
    interval_cases i <;> norm_num
  · simp only [vfyField, commandWord, BitVec.getLsbD_append]; norm_num
  · simp only [hmBit, commandWord, BitVec.getLsbD_append]; norm_num
  · apply BitVec.eq_of_getLsbD_eq
    intro i hi
    simp only [rcBits, commandWord, BitVec.getLsbD_append, BitVec.getLsbD_extractLsb']
    interval_cases i <;> norm_num
  · simp only [nxField, commandWord, BitVec.getLsbD_append]; norm_num
  · apply BitVec.eq_of_getLsbD_eq
    intro i hi
    simp only [reservedBits, commandWord, BitVec.getLsbD_append, BitVec.getLsbD_extractLsb']
    iterate 6 rw [if_neg (by omega)]
    simp

@[simp] theorem Ksel.bits_kselOf (b : BitVec 2) : (kselOf b).bits = b := by revert b; decide
@[simp] theorem RcMode.bits_rcOf (b : BitVec 2) : (rcOf b).bits = b := by revert b; decide
@[simp] theorem TrailerKind.bit_hmOf (b : Bool) : (hmOf b).bit = b := by cases b <;> rfl
theorem Ksel.legal_kselOf (b : BitVec 2) : (kselOf b).legal = true ↔ b ≠ 3 := by revert b; decide
theorem RcMode.legal_rcOf (b : BitVec 2) : (rcOf b).legal = true ↔ b ≠ 3 := by revert b; decide

/-- What a decoded word has passed (R97). -/
theorem decode_ok {w : Word} {i : Instr} (h : decode w = .ok i) :
    ∃ tk, opcodeRow w = some (tk, i) ∧ reservedBits w = 0 ∧ (tk.ksel = false → kselBits w = 0) ∧
      (tk.vfy = false → vfyField w = false) ∧ (tk.hm = false → hmBit w = false) ∧ (tk.rc = false → rcBits w = 0) ∧
      (tk.nx = false → nxField w = false) ∧ (tk.ksel = true → kselBits w ≠ 3) ∧ (tk.rc = true → rcBits w ≠ 3) := by
  unfold decode at h
  split at h
  · cases h
  · next tk j hrow =>
    iterate 8 (split at h; cases h)
    cases h
    exact ⟨tk, hrow, by simpa using ‹¬reservedBits w ≠ 0›, by simp_all, by simp_all, by simp_all, by simp_all, by simp_all,
      by simp_all, by simp_all⟩

end Sys2Proof
end

