-- ==== Sys2Proof/Laws/HostAccess.lean ====
section
/-!
SUPPORT. What the host accesses do, in the terms of Safety.lean: which buffer an address belongs to, and what
a buffer read and a buffer write give there.
-/

namespace Sys2Proof.Machine

/-- The ranges of the buffers written out (20_memory.md R70). -/
theorem bufferOf_eq (cap a : Nat) :
    bufferOf cap a =
      if a < cap then some .ibuf
      else if 0x40000000 ≤ a ∧ a < 0x40000000 + cap then some .abuf
      else if 0x80000000 ≤ a ∧ a < 0x80000000 + cap then some .obuf
      else none := by
  unfold bufferOf Buffer.holds Buffer.base
  by_cases h1 : a < cap
  · simp [h1]
  · by_cases h2 : 0x40000000 ≤ a ∧ a < 0x40000000 + cap <;> simp [h1, h2]

/-- The addresses of IBUF and ABUF (20_memory.md R70). -/
theorem bufferOf_operands {cap a : Nat} :
    inOperands cap a ↔ bufferOf cap a = some .ibuf ∨ bufferOf cap a = some .abuf := by
  rw [bufferOf_eq]
  unfold inOperands
  split
  · simp [*]
  · split
    · simp [*]
    · split <;> simp [*]

/-- An address of OBUF (R70). -/
theorem bufferOf_output {cap a : Nat} (h : ¬inOperands cap a) (ho : inOutput cap a) : bufferOf cap a = some .obuf := by
  obtain ⟨h1, h2⟩ := not_or.1 h
  rw [bufferOf_eq, if_neg h1, if_neg h2]
  exact if_pos ho

/-- An address of no buffer (R70). -/
theorem bufferOf_none {cap a : Nat} (h : ¬inOperands cap a) (ho : ¬inOutput cap a) : bufferOf cap a = none := by
  obtain ⟨h1, h2⟩ := not_or.1 h
  rw [bufferOf_eq, if_neg h1, if_neg h2]
  exact if_neg ho

/-- A host read of IBUF or ABUF (20_memory.md R71, R77). -/
theorem bufRead_operand {s : State} {a : Word} (h : inOperands s.cap a.toNat) :
    bufRead s a = operandByte s a.toNat := by
  rcases bufferOf_operands.1 h with h | h <;> simp only [bufRead, h]

/-- A host read of OBUF (20_memory.md R73). -/
theorem bufRead_output {s : State} {a : Word} (h : ¬inOperands s.cap a.toNat) (ho : inOutput s.cap a.toNat) :
    bufRead s a = outputByte s a.toNat := by simp only [bufRead, bufferOf_output h ho]

/-- A host read outside the buffers (R70). -/
theorem bufRead_outside {s : State} {a : Word} (h : ¬inOperands s.cap a.toNat) (ho : ¬inOutput s.cap a.toNat) :
    bufRead s a = 0 := by simp only [bufRead, bufferOf_none h ho]

/-- A host read draws a free value only of an OBUF byte that holds no specified value (R73, R77). -/
theorem bufReadDraws_eq {s : State} {a : Word}
    (h : inOperands s.cap a.toNat ∨ ¬inOutput s.cap a.toNat ∨ (s.mem.read a.toNat).isSome = true) :
    bufReadDraws s a = s.draws := by
  by_cases hi : inOperands s.cap a.toNat
  · rcases bufferOf_operands.1 hi with hb | hb <;> simp only [bufReadDraws, hb]
  · by_cases ho : inOutput s.cap a.toNat
    · simp only [bufReadDraws, bufferOf_output hi ho, if_pos ((h.resolve_left hi).resolve_left fun hn => hn ho)]
    · simp only [bufReadDraws, bufferOf_none hi ho]

/-- What a host read depends on: memory, the capacity and, of an IBUF or ABUF byte, the last reset; the draws
only of an OBUF byte that holds no specified value (R73, R77). -/
theorem bufRead_congr {s t : State} {a : Word} (hc : t.cap = s.cap) (hm : t.mem = s.mem) (hr : t.resets = s.resets)
    (h : inOperands s.cap a.toNat ∨ ¬inOutput s.cap a.toNat ∨ (s.mem.read a.toNat).isSome = true) :
    bufRead t a = bufRead s a := by
  by_cases hi : inOperands s.cap a.toNat
  · rw [bufRead_operand hi, bufRead_operand (hc ▸ hi), operandByte, operandByte, hm, hr]
  · by_cases ho : inOutput s.cap a.toNat
    · obtain ⟨v, hv⟩ := Option.isSome_iff_exists.1 ((h.resolve_left hi).resolve_left fun hn => hn ho)
      rw [bufRead_output hi ho, bufRead_output (hc ▸ hi) (hc ▸ ho), outputByte, outputByte, hm, hv]
      rfl
    · rw [bufRead_outside hi ho, bufRead_outside (hc ▸ hi) (hc ▸ ho)]

/-- A host write into IBUF or ABUF (R71). -/
theorem bufWrite_operand {s : State} {a : Word} (v : Byte) (h : inOperands s.cap a.toNat) :
    bufWrite s a v = { s with mem := s.mem.write a.toNat v } := by
  rcases bufferOf_operands.1 h with h | h <;> simp only [bufWrite, h]

/-- A host write elsewhere (R70, R71). -/
theorem bufWrite_elsewhere {s : State} {a : Word} (v : Byte) (h : ¬inOperands s.cap a.toNat) : bufWrite s a v = s := by
  by_cases ho : inOutput s.cap a.toNat
  · simp only [bufWrite, bufferOf_output h ho]
  · simp only [bufWrite, bufferOf_none h ho]

end Sys2Proof.Machine
end

