-- ==== Sys2Proof/Laws/PerInstr.lean ====
section
/-!
SUPPORT. Statements made instruction by instruction. `EncodedRow`: the word of a command is a word of the
row of spec/opcode_table.json that bears its mnemonic, and a legal command's word is admitted there
(30_encoding.md R98).
-/

namespace Sys2Proof.Laws

/-- The row of `opcodeTable` of a command, by its place in the table. -/
def rowOf : Instr → Nat
  | .nop => 0
  | .keyLoad => 1
  | .nonceLoad => 2
  | .sessionReset => 3
  | .kdf34 => 4
  | .kdf35 => 5
  | .aesEncBlock _ => 6
  | .aesDecBlock _ => 7
  | .pkcs7Pad => 8
  | .pkcs7Unpad _ => 9
  | .ecbEnc _ => 10
  | .ecbDec _ _ => 11
  | .gcmEnc _ _ => 12
  | .gcmDec _ _ => 13
  | .crc32 => 14
  | .hmacSha256 _ => 15
  | .hmacVerify _ => 16
  | .frameScan => 17
  | .pack55 _ _ _ => 18
  | .unpack55 _ _ _ => 19
  | .pack66 _ _ => 20
  | .unpack66 _ _ => 21
  | .msgEncode => 22
  | .msgDecode _ _ => 23

/-- The mnemonic of a command (spec/opcode_table.json). -/
def mnemonicOf : Instr → String
  | .nop => "NOP"
  | .keyLoad => "KEY_LOAD"
  | .nonceLoad => "NONCE_LOAD"
  | .sessionReset => "SESSION_RESET"
  | .kdf34 => "KDF34"
  | .kdf35 => "KDF35"
  | .aesEncBlock _ => "AES_ENC_BLOCK"
  | .aesDecBlock _ => "AES_DEC_BLOCK"
  | .pkcs7Pad => "PKCS7_PAD"
  | .pkcs7Unpad _ => "PKCS7_UNPAD"
  | .ecbEnc _ => "ECB_ENC"
  | .ecbDec _ _ => "ECB_DEC"
  | .gcmEnc _ _ => "GCM_ENC"
  | .gcmDec _ _ => "GCM_DEC"
  | .crc32 => "CRC32"
  | .hmacSha256 _ => "HMAC_SHA256"
  | .hmacVerify _ => "HMAC_VERIFY"
  | .frameScan => "FRAME_SCAN"
  | .pack55 _ _ _ => "PACK55"
  | .unpack55 _ _ _ => "UNPACK55"
  | .pack66 _ _ => "PACK66"
  | .unpack66 _ _ => "UNPACK66"
  | .msgEncode => "MSG_ENCODE"
  | .msgDecode _ _ => "MSG_DECODE"

/-- The row at the command's place bears its mnemonic, matches its word, and admits the word of a legal
command. -/
def EncodedRow.Statement (i : Instr) : Prop :=
  ∃ e, opcodeTable[rowOf i]? = some e ∧ e.mnemonic = mnemonicOf i ∧ encode i &&& e.mask = e.matchBits ∧
    (i.wellFormed = true → e.admits (encode i) = true)

theorem EncodedRow.nop : EncodedRow.Statement .nop := ⟨_, rfl, rfl, by decide, by decide⟩
theorem EncodedRow.keyLoad : EncodedRow.Statement .keyLoad := ⟨_, rfl, rfl, by decide, by decide⟩
theorem EncodedRow.nonceLoad : EncodedRow.Statement .nonceLoad := ⟨_, rfl, rfl, by decide, by decide⟩
theorem EncodedRow.sessionReset : EncodedRow.Statement .sessionReset := ⟨_, rfl, rfl, by decide, by decide⟩
theorem EncodedRow.kdf34 : EncodedRow.Statement .kdf34 := ⟨_, rfl, rfl, by decide, by decide⟩
theorem EncodedRow.kdf35 : EncodedRow.Statement .kdf35 := ⟨_, rfl, rfl, by decide, by decide⟩
theorem EncodedRow.aesEncBlock (ksel : Ksel) : EncodedRow.Statement (.aesEncBlock ksel) := by
  cases ksel <;> exact ⟨_, rfl, rfl, by decide, by decide⟩
theorem EncodedRow.aesDecBlock (ksel : Ksel) : EncodedRow.Statement (.aesDecBlock ksel) := by
  cases ksel <;> exact ⟨_, rfl, rfl, by decide, by decide⟩
theorem EncodedRow.pkcs7Pad : EncodedRow.Statement .pkcs7Pad := ⟨_, rfl, rfl, by decide, by decide⟩
theorem EncodedRow.pkcs7Unpad (vfy : Bool) : EncodedRow.Statement (.pkcs7Unpad vfy) := by
  cases vfy <;> exact ⟨_, rfl, rfl, by decide, by decide⟩
theorem EncodedRow.ecbEnc (ksel : Ksel) : EncodedRow.Statement (.ecbEnc ksel) := by
  cases ksel <;> exact ⟨_, rfl, rfl, by decide, by decide⟩
theorem EncodedRow.ecbDec (ksel : Ksel) (vfy : Bool) : EncodedRow.Statement (.ecbDec ksel vfy) := by
  cases ksel <;> cases vfy <;> exact ⟨_, rfl, rfl, by decide, by decide⟩
theorem EncodedRow.gcmEnc (ksel : Ksel) (nx : Bool) : EncodedRow.Statement (.gcmEnc ksel nx) := by
  cases ksel <;> cases nx <;> exact ⟨_, rfl, rfl, by decide, by decide⟩
theorem EncodedRow.gcmDec (ksel : Ksel) (nx : Bool) : EncodedRow.Statement (.gcmDec ksel nx) := by
  cases ksel <;> cases nx <;> exact ⟨_, rfl, rfl, by decide, by decide⟩
theorem EncodedRow.crc32 : EncodedRow.Statement .crc32 := ⟨_, rfl, rfl, by decide, by decide⟩
theorem EncodedRow.hmacSha256 (ksel : Ksel) : EncodedRow.Statement (.hmacSha256 ksel) := by
  cases ksel <;> exact ⟨_, rfl, rfl, by decide, by decide⟩
theorem EncodedRow.hmacVerify (ksel : Ksel) : EncodedRow.Statement (.hmacVerify ksel) := by
  cases ksel <;> exact ⟨_, rfl, rfl, by decide, by decide⟩
theorem EncodedRow.frameScan : EncodedRow.Statement .frameScan := ⟨_, rfl, rfl, by decide, by decide⟩
theorem EncodedRow.pack55 (ksel : Ksel) (hm : TrailerKind) (rc : RcMode) : EncodedRow.Statement (.pack55 ksel hm rc) := by
  cases ksel <;> cases hm <;> cases rc <;> exact ⟨_, rfl, rfl, by decide, by decide⟩
theorem EncodedRow.unpack55 (ksel : Ksel) (hm : TrailerKind) (rc : RcMode) : EncodedRow.Statement (.unpack55 ksel hm rc) := by
  cases ksel <;> cases hm <;> cases rc <;> exact ⟨_, rfl, rfl, by decide, by decide⟩
theorem EncodedRow.pack66 (ksel : Ksel) (rc : RcMode) : EncodedRow.Statement (.pack66 ksel rc) := by
  cases ksel <;> cases rc <;> exact ⟨_, rfl, rfl, by decide, by decide⟩
theorem EncodedRow.unpack66 (ksel : Ksel) (rc : RcMode) : EncodedRow.Statement (.unpack66 ksel rc) := by
  cases ksel <;> cases rc <;> exact ⟨_, rfl, rfl, by decide, by decide⟩
theorem EncodedRow.msgEncode : EncodedRow.Statement .msgEncode := ⟨_, rfl, rfl, by decide, by decide⟩
theorem EncodedRow.msgDecode (vfy : Bool) (rc : RcMode) : EncodedRow.Statement (.msgDecode vfy rc) := by
  cases vfy <;> cases rc <;> exact ⟨_, rfl, rfl, by decide, by decide⟩

end Sys2Proof.Laws
end

