-- ==== Sys2Proof/Laws/Step.lean ====
section
/-!
SUPPORT. What one step can do, said once: wait, serve an access that starts no command, run the command a
write to CMD starts, or end an illegal one.
-/

namespace Sys2Proof.Machine

/-- A write to CMD stores the word and nothing else (10_state.md R32). -/
theorem regWrite_cmd (s : State) (w : Word) : regWrite s 0x00 w = { s with cmd := w } := rfl

/-- The accesses that start a command are the writes to CMD (10_state.md R32). -/
theorem Access.commandWord_eq_some {a : Access} {w : Word} : a.commandWord = some w ↔ a = .regWrite 0x00 w := by
  cases a with
  | regWrite n v =>
    by_cases h : n = 0 <;> simp [Access.commandWord, h]
  | regRead n => simp [Access.commandWord]
  | bufRead a => simp [Access.commandWord]
  | bufWrite a v => simp [Access.commandWord]
  | reset => simp [Access.commandWord]

/-- A step with nothing pending (70_reset_and_hazards.md R442). -/
theorem step_idle {s : State} (h : s.inputs = []) : step s = .next s := by simp [step, nextAction, h]

/-- A step that serves an access that starts no command. -/
theorem step_served {s : State} {a : Access} {rest : List Access} (h : s.inputs = a :: rest)
    (hc : a.commandWord = none) : step s = .next (serve { s with inputs := rest } a) := by
  simp [step, nextAction, h, hc]

/-- What one step can do (20_memory.md R79; 10_state.md R32; 30_encoding.md R97). -/
theorem step_cases (s : State) :
    (s.inputs = [] ∧ step s = .next s) ∨
      (∃ a rest, s.inputs = a :: rest ∧ a.commandWord = none ∧ step s = .next (serve { s with inputs := rest } a)) ∨
      ∃ w rest, s.inputs = .regWrite 0x00 w :: rest ∧
        ((∃ i, decode w = .ok i ∧ step s = exec i { s with inputs := rest, cmd := w }) ∨
          ∃ e, decode w = .error e ∧ step s = .next (({ s with inputs := rest, cmd := w } : State).fail .illegalCmd)) := by
  cases hi : s.inputs with
  | nil => exact .inl ⟨rfl, step_idle hi⟩
  | cons a rest =>
    cases hc : a.commandWord with
    | none => exact .inr (.inl ⟨a, rest, rfl, hc, step_served hi hc⟩)
    | some w =>
      obtain rfl := Access.commandWord_eq_some.1 hc
      refine .inr (.inr ⟨w, rest, rfl, ?_⟩)
      cases hd : decode w with
      | ok i => exact .inl ⟨i, rfl, by simp only [step, nextAction, hi, hc, hd]; rfl⟩
      | error e => exact .inr ⟨e, rfl, by simp only [step, nextAction, hi, hc, hd]; rfl⟩

end Sys2Proof.Machine
end

