-- ==== Sys2Proof/Machine/Assembler.lean ====
section
/-!
DEFINITION. The host's side of the command interface: the assembler lines and pseudo-instructions of
spec/30_encoding.md R102 and R103, as the accesses they stand for, and the printed form of a command
word.
-/

namespace Sys2Proof.Machine

/-- The register names of 10_state.md R31, by number from 0x00. -/
def registerNames : List String :=
  ["CMD", "STATUS", "VERSION", "SEQ_IN", "CMD_IN", "RETCODE_IN", "R_SEQ", "R_CMD", "R_RETCODE", "R_LEN",
   "R_OFFSET", "R_FRAMELEN", "R_CRC", "IBUF_LEN", "ABUF_LEN", "OBUF_LEN", "ID", "CFG", "MAXLEN", "BUFCAP"]

/-- The number of a named register. -/
def registerNumber (name : String) : Option (BitVec 8) := (registerNames.idxOf? name).map (BitVec.ofNat 8)

/-- The options of an `op` line (R102): `ksel=`, `vfy`, `hmac`, `rc=` and `nx`, each given or omitted. -/
structure OpOptions where
  ksel : Option Ksel := none
  vfy : Bool := false
  hmac : Bool := false
  rc : Option RcMode := none
  nx : Bool := false
deriving DecidableEq, Repr

/-- The fields a row of the opcode table leaves free, which are the fields its command takes (R98). -/
def takesOf (e : OpcodeEntry) : Takes where
  ksel := kselBits e.mask == 0
  vfy := !vfyField e.mask
  hm := !hmBit e.mask
  rc := rcBits e.mask == 0
  nx := !nxField e.mask

/-- Every option given is one the command takes, and names a field value with a name (R102). -/
def OpOptions.allowed (o : OpOptions) (t : Takes) : Bool :=
  (o.ksel == none || t.ksel) && (!o.vfy || t.vfy) && (!o.hmac || t.hm) && (o.rc == none || t.rc)
    && (!o.nx || t.nx) && o.ksel != some .reserved && o.rc != some .reserved

/-- The command word of an `op` line; `none` is an assembly error (R102). -/
def assembleOp (mnemonic : String) (o : OpOptions) : Option Word :=
  (opcodeTable.find? (·.mnemonic == mnemonic)).bind fun e =>
    if o.allowed (takesOf e) then
      some (commandWord (opField e.matchBits) ((o.ksel.getD .localKey).bits) o.vfy o.hmac
        ((o.rc.getD .auto).bits) o.nx)
    else none

/-- The bytes a quoted operand stands for: its ASCII bytes (R103); `none` where a character is not ASCII. -/
def textOperand (text : String) : Option Bytes :=
  text.toList.mapM fun c => if c.toNat < 128 then some (BitVec.ofNat 8 c.toNat) else none

/-- The value of a hexadecimal digit. -/
def hexDigit (c : Char) : Option Nat :=
  if 48 ≤ c.toNat ∧ c.toNat ≤ 57 then some (c.toNat - 48)
  else if 65 ≤ c.toNat ∧ c.toNat ≤ 70 then some (c.toNat - 55)
  else if 97 ≤ c.toNat ∧ c.toNat ≤ 102 then some (c.toNat - 87)
  else none

/-- The bytes that pairs of hexadecimal digits stand for; `none` for another character or an odd number. -/
def hexPairs : List Char → Option Bytes
  | [] => some []
  | [_] => none
  | a :: b :: rest =>
    (hexDigit a).bind fun h => (hexDigit b).bind fun l =>
      (hexPairs rest).map (BitVec.ofNat 8 (16 * h + l) :: ·)

/-- The bytes of a `hex:HH..` operand, from the digits after the colon (R103). -/
def hexOperand (digits : String) : Option Bytes := hexPairs digits.toList

/-- A line of a host program (R102), or a pseudo-instruction (R103) with its text already as bytes. -/
inductive AsmLine where
  /-- `wr REG, imm`. -/
  | wr (reg : BitVec 8) (imm : Word)
  /-- `rd REG`. -/
  | rd (reg : BitVec 8)
  /-- `wrb BUF+i, byte`. -/
  | wrb (buf : Buffer) (i : Nat) (v : Byte)
  /-- `op MNEMONIC {, opt}`. -/
  | op (mnemonic : String) (opts : OpOptions)
  /-- `ibuf`. -/
  | ibuf (b : Bytes)
  /-- `abuf`. -/
  | abuf (b : Bytes)
  /-- `key`. -/
  | key (b : Bytes)
  /-- `nonce hex:..` of 12 bytes. -/
  | nonce (b : Bytes)
  /-- `setver 3.m`. -/
  | setver (m : Nat)
  /-- `hdr seq, cmd`. -/
  | hdr (seq cmd : Word)
deriving DecidableEq, Repr

/-- The byte writes `wrb BUF+i, b[i]` from index `i` on (R103). -/
def bufWrites (buf : Buffer) (i : Nat) : Bytes → List Access
  | [] => []
  | v :: rest => .bufWrite (BitVec.ofNat 32 (buf.base + i)) v :: bufWrites buf (i + 1) rest

/-- `ibuf` and `abuf`: the bytes, then the length register `lenReg` (R103). -/
def fillBuffer (buf : Buffer) (lenReg : BitVec 8) (b : Bytes) : List Access :=
  bufWrites buf 0 b ++ [.regWrite lenReg (BitVec.ofNat 32 b.length)]

/-- The accesses of a line; `none` is an assembly error (R102, R103). -/
def assemble : AsmLine → Option (List Access)
  | .wr reg imm => some [.regWrite reg imm]
  | .rd reg => some [.regRead reg]
  | .wrb buf i v => if buf = .obuf then none else some [.bufWrite (BitVec.ofNat 32 (buf.base + i)) v]
  | .op mnemonic opts => (assembleOp mnemonic opts).map fun w => [.regWrite 0x00 w]
  | .ibuf b => some (fillBuffer .ibuf 0x0D b)
  | .abuf b => some (fillBuffer .abuf 0x0E b)
  | .key b => some (fillBuffer .ibuf 0x0D b ++ [.regWrite 0x00 0x00000001])
  | .nonce b => if b.length = 12 then some (fillBuffer .ibuf 0x0D b ++ [.regWrite 0x00 0x00000002]) else none
  | .setver m => some [.regWrite 0x02 (BitVec.ofNat 32 (0x30 + m))]
  | .hdr seq cmd => some [.regWrite 0x03 seq, .regWrite 0x04 cmd]

/-- The accesses of a host program, in order; `none` if one of its lines is an assembly error. -/
def assembleAll : List AsmLine → Option (List Access)
  | [] => some []
  | l :: rest => (assemble l).bind fun a => (assembleAll rest).map (a ++ ·)

/-- The printed form of each nonzero field, in the order KSEL, VFY, HM, RC, NX (R102). -/
def printedFields (w : Word) : List String :=
  (match kselOf (kselBits w) with
    | .localKey => []
    | .sessionKey => ["ksel=session"]
    | .udpKey => ["ksel=udp"]
    | .reserved => [])
  ++ (if vfyField w then ["vfy"] else [])
  ++ (if hmBit w then ["hmac"] else [])
  ++ (match rcOf (rcBits w) with
    | .auto => []
    | .absent => ["rc=absent"]
    | .present => ["rc=present"]
    | .reserved => [])
  ++ (if nxField w then ["nx"] else [])

/-- The printed form of a command word; an illegal word has none (R102). -/
def printCommand (w : Word) : Option String :=
  (opcodeTable.find? (·.admits w)).map fun e => "op " ++ ", ".intercalate (e.mnemonic :: printedFields w)

/-- The source's sequence counter after one pack, a duty of the host (10_state.md R53). -/
def nextSequence (seq : Word) : Word := seq + 1

end Sys2Proof.Machine
end

