-- ==== Sys2Proof/Tests/Slice0.lean ====
section
/-!
SUPPORT. Tests: what WellFormed refuses, the decoding of words written out from spec/30_encoding.md R90 and
R91, single steps on the vectors of spec/95_test_vectors.md, and a witness for the hypotheses of every
statement that has any.
-/

namespace Sys2Proof.Machine

/- One theorem after another: kernel evaluations side by side would need a thread and its stack each. -/
set_option Elab.async false

/-! ### WellFormed refuses ill-formed terms -/

theorem test_wellFormed_reserved_ksel :
    Ksel.reserved.legal = false ∧ Instr.wellFormed (.aesEncBlock .reserved) = false ∧
      Instr.wellFormed (.aesDecBlock .reserved) = false ∧ Instr.wellFormed (.ecbEnc .reserved) = false ∧
      Instr.wellFormed (.ecbDec .reserved true) = false ∧ Instr.wellFormed (.gcmEnc .reserved false) = false ∧
      Instr.wellFormed (.gcmDec .reserved true) = false ∧ Instr.wellFormed (.hmacSha256 .reserved) = false ∧
      Instr.wellFormed (.hmacVerify .reserved) = false ∧ Instr.wellFormed (.pack55 .reserved .crc .auto) = false ∧
      Instr.wellFormed (.unpack55 .reserved .hmac .auto) = false ∧
      Instr.wellFormed (.pack66 .reserved .present) = false ∧
      Instr.wellFormed (.unpack66 .reserved .absent) = false := by decide

theorem test_wellFormed_reserved_rc :
    RcMode.reserved.legal = false ∧ Instr.wellFormed (.pack55 .localKey .crc .reserved) = false ∧
      Instr.wellFormed (.unpack55 .localKey .crc .reserved) = false ∧
      Instr.wellFormed (.pack66 .udpKey .reserved) = false ∧
      Instr.wellFormed (.unpack66 .udpKey .reserved) = false ∧
      Instr.wellFormed (.msgDecode false .reserved) = false := by decide

/-! ### Decoding: OP in [7:0], KSEL in [9:8], VFY 10, HM 11, RC in [13:12], NX 14 (R90, R91) -/

theorem test_decode_plain :
    decode 0b00000000000000000000000000000000#32 = .ok .nop ∧
      decode 0b00000000000000000000000000000001#32 = .ok .keyLoad ∧
      decode 0b00000000000000000000000000000010#32 = .ok .nonceLoad ∧
      decode 0b00000000000000000000000000000011#32 = .ok .sessionReset ∧
      decode 0b00000000000000000000000000000100#32 = .ok .kdf34 ∧
      decode 0b00000000000000000000000000000101#32 = .ok .kdf35 ∧
      decode 0b00000000000000000000000000010010#32 = .ok .pkcs7Pad ∧
      decode 0b00000000000000000000000000100000#32 = .ok .crc32 ∧
      decode 0b00000000000000000000000000110000#32 = .ok .frameScan ∧
      decode 0b00000000000000000000000001000000#32 = .ok .msgEncode := by decide

theorem test_decode_fields :
    decode 0b00000000000000000000000100010000#32 = .ok (.aesEncBlock .sessionKey) ∧
      decode 0b00000000000000000000001000010001#32 = .ok (.aesDecBlock .udpKey) ∧
      decode 0b00000000000000000000010000010011#32 = .ok (.pkcs7Unpad true) ∧
      decode 0b00000000000000000000000000010100#32 = .ok (.ecbEnc .localKey) ∧
      decode 0b00000000000000000000011000010101#32 = .ok (.ecbDec .udpKey true) ∧
      decode 0b00000000000000000100000100011000#32 = .ok (.gcmEnc .sessionKey true) ∧
      decode 0b00000000000000000000000000011001#32 = .ok (.gcmDec .localKey false) ∧
      decode 0b00000000000000000000001000100001#32 = .ok (.hmacSha256 .udpKey) ∧
      decode 0b00000000000000000000000100100010#32 = .ok (.hmacVerify .sessionKey) := by decide

theorem test_decode_frames :
    decode 0b00000000000000000010100000110001#32 = .ok (.pack55 .localKey .hmac .present) ∧
      decode 0b00000000000000000001001000110010#32 = .ok (.unpack55 .udpKey .crc .absent) ∧
      decode 0b00000000000000000010000100110011#32 = .ok (.pack66 .sessionKey .present) ∧
      decode 0b00000000000000000001001000110100#32 = .ok (.unpack66 .udpKey .absent) ∧
      decode 0b00000000000000000001010001000001#32 = .ok (.msgDecode true .absent) := by decide

/-- One word for each check of R97. -/
theorem test_decode_refuses :
    decode 0x00000006#32 = .error .unassignedOp ∧ decode 0x80000000#32 = .error .reservedBits ∧
      decode 0x00000112#32 = .error .untakenKsel ∧ decode 0x00000414#32 = .error .untakenVfy ∧
      decode 0x00000833#32 = .error .untakenHm ∧ decode 0x00001014#32 = .error .untakenRc ∧
      decode 0x00004014#32 = .error .untakenNx ∧ decode 0x00000310#32 = .error .reservedKsel ∧
      decode 0x00003032#32 = .error .reservedRc := by decide

/-- The assembler lines of R102 and R103. -/
theorem test_assemble :
    assembleOp "GCM_ENC" { ksel := some .udpKey, nx := true } = some 0x4218#32 ∧
      assembleOp "GCM_ENC" { vfy := true } = none ∧
      assemble (.setver 5) = some [.regWrite 0x02 0x35] ∧
      hexOperand "30fE" = some [0x30, 0xFE] ∧ textOperand "abc" = some [0x61, 0x62, 0x63] := by decide +kernel

/-! ### Single steps on the vectors of 95_test_vectors.md -/

/-- The `n` bytes of a hexadecimal numeral, first byte leftmost. -/
def hexBytes (n v : Nat) : Bytes := (List.range n).map fun i => BitVec.ofNat 8 (v >>> (8 * (n - 1 - i)))

/-- LK and N of 95_test_vectors.md. -/
def keyLK : Bytes := hexBytes 16 0x30313233343536373839616263646566
def nonceN : Bytes := hexBytes 12 0x303132333435363738396162

/-- The reset state with IN and AD written. -/
def loaded (inp ad : Bytes) : State :=
  { State.reset with
    mem := (Memory.writeBytes [] 0 inp).writeBytes 0x40000000 ad
    ibufLen := BitVec.ofNat 32 inp.length
    abufLen := BitVec.ofNat 32 ad.length }

/-- The same with a local key loaded. -/
def keyed (k inp ad : Bytes) : State := { loaded inp ad with keyLocal := k, keySrclen := 16, keyValid := true }

/-- The same with LK and N loaded. -/
def ready (inp ad : Bytes) : State := { keyed keyLK inp ad with nonce := nonceN, nonceValid := true }

/-- The command ends with this STATUS and this output, and with an empty FAULTS. -/
def gives (i : Instr) (s : State) (status : Nat) (out : Bytes) : Bool :=
  match exec i s with
  | .next t => t.status.toNat == status && t.readString .obuf t.obufLen.toNat == out && t.faults == { nonceReuse := false, unwrittenRead := false }
  | .fault _ => false
  | .refused _ => false

/-- What the state after the command shows. -/
def after {α : Type} (i : Instr) (s : State) (f : State → α) : Option α :=
  match exec i s with
  | .next t => some (f t)
  | .fault _ => none
  | .refused _ => none

/-- FRAME of V-F55-1 and V-F66-1. -/
def frame55 : Bytes := hexBytes 26 0x000055AA0000000100000007000000067B7D968D594C0000AA55
def frame66 : Bytes :=
  hexBytes 52 0x00006699000000000001_0000000D_0000001E_303132333435363738396162_193F_97C7AAAA9A8A8865C291CB4C341660C3_00009966

/-- V-CTL-1. -/
theorem test_nop : gives .nop State.reset 0 [] = true := by decide +kernel

/-- V-KEY-1: a short key is padded. -/
theorem test_keyLoad_pads :
    after .keyLoad (loaded [0x61, 0x62, 0x63] []) (fun t => (t.keyLocal, t.keySrclen, t.status)) =
      some ([0x61, 0x62, 0x63] ++ zeros 13, 3, 0x10000) := by decide +kernel

/-- V-KEY-2: a long key is truncated. -/
theorem test_keyLoad_truncates :
    after .keyLoad (loaded (keyLK ++ [0x47, 0x48, 0x49, 0x4A]) []) (fun t => (t.keyLocal, t.keySrclen)) =
      some (keyLK, 20) := by decide +kernel

/-- V-NONCE-1 and V-NONCE-2. -/
theorem test_nonceLoad :
    after .nonceLoad (loaded nonceN []) (fun t => (t.nonce, t.status)) = some (nonceN, 0x20000) ∧
      gives .nonceLoad (loaded (nonceN.take 11) []) 6 [] = true := by decide +kernel

/-- The session of V-KDF-1 ends (V-SR-1). -/
theorem test_sessionReset :
    after .sessionReset { keyed keyLK [] [] with negotiated := true, keySession := keyLK }
      (fun t => (t.keySession, t.keyLocal, t.status)) = some (zeros 16, keyLK, 0x10000) := by decide +kernel

/-- IN of the derivations: cn and dn of 95_test_vectors.md. -/
def nonces : Bytes := keyLK ++ hexBytes 16 0x66656463626139383736353433323130

/-- V-KDF-1. -/
theorem test_kdf34 :
    after .kdf34 (keyed keyLK nonces []) (fun t => (t.keySession, t.status)) =
      some (hexBytes 16 0x6575CF6B37479D9215337FF9767FE786, 0x50000) := by decide +kernel

/-- V-KDF-4. -/
theorem test_kdf34_unset : gives .kdf34 (loaded nonces []) 3 [] = true := by decide +kernel

/-- V-KDF-2. -/
theorem test_kdf35 :
    after .kdf35 (keyed keyLK nonces []) (fun t => (t.keySession, t.status)) =
      some (hexBytes 16 0x34165BAB783422860C0C23B2D48CF7A5, 0x50000) := by decide +kernel

/-- V-AES-1, published in FIPS-197. -/
theorem test_aesEncBlock :
    gives (.aesEncBlock .localKey)
      (keyed (hexBytes 16 0x000102030405060708090A0B0C0D0E0F) (hexBytes 16 0x00112233445566778899AABBCCDDEEFF) [])
      0x10000 (hexBytes 16 0x69C4E0D86A7B0430D8CDB78070B4C55A) = true := by decide +kernel

/-- V-AES-3. -/
theorem test_aesDecBlock :
    gives (.aesDecBlock .localKey)
      (keyed (hexBytes 16 0x000102030405060708090A0B0C0D0E0F) (hexBytes 16 0x69C4E0D86A7B0430D8CDB78070B4C55A) [])
      0x10000 (hexBytes 16 0x00112233445566778899AABBCCDDEEFF) = true := by decide +kernel

/-- V-PAD-1 and V-PAD-2. -/
theorem test_pkcs7Pad :
    gives .pkcs7Pad (loaded [] []) 0 (rep 0x10 16) = true ∧
      gives .pkcs7Pad (loaded [0x61, 0x62, 0x63] []) 0 ([0x61, 0x62, 0x63] ++ rep 13 13) = true := by decide +kernel

/-- V-UNPAD-2: the last byte counts, and VFY looks at the others. -/
theorem test_pkcs7Unpad :
    gives (.pkcs7Unpad false) (loaded (rep 0x41 14 ++ [1, 2]) []) 0 (rep 0x41 14) = true ∧
      gives (.pkcs7Unpad true) (loaded (rep 0x41 14 ++ [1, 2]) []) 7 [] = true := by decide +kernel

/-- V-UNPAD-1. -/
theorem test_pkcs7Unpad_block : gives (.pkcs7Unpad true) (loaded (rep 0x10 16) []) 0 [] = true := by decide +kernel

/-- V-ECB-1. -/
theorem test_ecbEnc :
    gives (.ecbEnc .localKey) (ready [0x7B, 0x7D] []) 0x30000 (hexBytes 16 0xCB70DDC25A2A2045B4C13084418A9ABB) = true := by
  decide +kernel

/-- V-ECB-8 and V-ECB-6. -/
theorem test_ecbDec :
    gives (.ecbDec .localKey true) (ready (hexBytes 16 0xCB70DDC25A2A2045B4C13084418A9ABB) []) 0x30000 [0x7B, 0x7D] = true ∧
      gives (.ecbDec .localKey false) (ready (zeros 15) []) 0x30006 [] = true := by decide +kernel

/-- V-GCM-3's output, and IN of V-GCM-7. -/
def sealed : Bytes := hexBytes 21 0x0A2761974188F3515A2D20913B64EC8065BA71DB05

/-- V-GCM-4: the nonce goes first, NONCE is consumed and the pair is logged. -/
theorem test_gcmEnc :
    after (.gcmEnc .localKey true) (ready (hexBytes 5 0x68656C6C6F) [0x61, 0x64])
      (fun t => (t.readString .obuf t.obufLen.toNat, t.status, t.nlog)) =
      some (nonceN ++ sealed, 0x10000, [(keyLK, nonceN)]) := by decide +kernel

/-- V-GCM-7. -/
theorem test_gcmDec :
    gives (.gcmDec .localKey false) (ready sealed [0x61, 0x64]) 0x30000 (hexBytes 5 0x68656C6C6F) = true := by
  decide +kernel

/-- V-GCM-7 with other additional data: nothing is released. -/
theorem test_gcmDec_mismatch : gives (.gcmDec .localKey false) (ready sealed [0x61, 0x65]) 0x30008 [] = true := by
  decide +kernel

/-- V-CRC-3, the check value of CRC-32. -/
theorem test_crc32 :
    after .crc32 (loaded (hexBytes 9 0x313233343536373839) [])
      (fun t => (t.rCrc, t.readString .obuf t.obufLen.toNat)) =
      some (0xCBF43926, hexBytes 4 0xCBF43926) := by decide +kernel

/-- V-HMAC-2's MAC. -/
def macLK : Bytes := hexBytes 32 0xFB5B26229C20B7ED866706A2FBFAE67E3F404BB6ABE77FF45063A459A42924A4

/-- V-HMAC-2. -/
theorem test_hmacSha256 : gives (.hmacSha256 .localKey) (ready keyLK []) 0x30000 macLK = true := by decide +kernel

/-- V-HMAC-6, with the right MAC and with one byte wrong. -/
theorem test_hmacVerify :
    gives (.hmacVerify .localKey) (ready keyLK macLK) 0x30000 [] = true ∧
      gives (.hmacVerify .localKey) (ready keyLK (macLK.set 31 0xA5)) 0x30009 [] = true := by decide +kernel

/-- V-SCAN-1: junk before the tag. -/
theorem test_frameScan :
    after .frameScan (loaded ([0x11, 0x22] ++ frame55) []) (fun t => (t.rOffset, t.rFramelen, t.status)) =
      some (2, 26, 0) := by decide +kernel

/-- V-SCAN-3: a partial tag at the end. -/
theorem test_frameScan_partial :
    after .frameScan (loaded [0x11, 0x22, 0x00, 0x00, 0x55] []) (fun t => (t.rOffset, t.rFramelen, t.status)) =
      some (2, 0, 0x800) := by decide +kernel

/-- V-F55-1. -/
theorem test_pack55 :
    gives (.pack55 .localKey .crc .auto) { loaded [0x7B, 0x7D] [] with seqIn := 1, cmdIn := 7 } 0 frame55 = true := by
  decide +kernel

/-- V-F55-1, unpacked, and V-F55-5: a wrong CRC is no error. -/
theorem test_unpack55 :
    gives (.unpack55 .localKey .crc .auto) (loaded frame55 []) 0x100 [0x7B, 0x7D] = true ∧
      gives (.unpack55 .localKey .crc .auto) (loaded (frame55.set 18 0x97) []) 0 [0x7B, 0x7D] = true := by
  decide +kernel

/-- V-F66-1. -/
theorem test_pack66 :
    gives (.pack66 .localKey .auto) { ready [0x7B, 0x7D] [] with seqIn := 1, cmdIn := 13 } 0x11000 frame66 = true := by
  decide +kernel

/-- V-F66-1, unpacked. -/
theorem test_unpack66 :
    after (.unpack66 .localKey .auto) (keyed keyLK frame66 [])
      (fun t => (t.readString .obuf t.obufLen.toNat, t.status, t.rSeq, t.rCmd, t.rLen, t.rFramelen)) =
      some ([0x7B, 0x7D], 0x11100, 1, 13, 30, 52) := by decide +kernel

/-- V-MSG-10, a header-exempt 3.3 frame. -/
def frame33 : Bytes :=
  hexBytes 40 0x000055AA_00000002_00000009_00000014_CB70DDC25A2A2045B4C13084418A9ABB_E8459FAB_0000AA55

theorem test_msgEncode :
    gives .msgEncode { keyed keyLK [0x7B, 0x7D] [] with version := 0x33, seqIn := 2, cmdIn := 9 } 0x10000 frame33 = true := by
  decide +kernel

/-- V-MSG-10, decoded. -/
theorem test_msgDecode :
    gives (.msgDecode false .absent) { keyed keyLK frame33 [] with version := 0x33 } 0x10100 [0x7B, 0x7D] = true := by
  decide +kernel

/-- V-MSG-4's frame, whose payload is empty. -/
def frameAck : Bytes := hexBytes 28 0x000055AA_00000009_00000007_00000008_00000000_0A86DCB9_0000AA55

/-- V-MSG-4: an empty payload with a retcode. -/
theorem test_msgDecode_empty :
    gives (.msgDecode false .auto)
      { ready frameAck [] with version := 0x33 }
      0x32300 [] = true := by decide +kernel

/-- The S-box is the affine map over the inverse that R173 defines. -/
theorem test_sbox_inverse : ∀ a : Byte, invSbox (sbox a) = a := invSbox_sbox

/-! ### Host accesses -/

/-- What the state after one step shows. -/
def stepped {α : Type} (s : State) (f : State → α) : Option α :=
  match step s with
  | .next t => some (f t)
  | .fault _ => none
  | .refused _ => none

/-- The accesses take effect one by one, in the host's order (20_memory.md R71, R79). -/
theorem test_host_order :
    stepped { State.reset with inputs := [.bufWrite 0 0x61, .regWrite 0x0D 1] } (fun t => (t.mem, t.inputs)) =
      some ([(0, 0x61)], [.regWrite 0x0D 1]) := by decide +kernel

/-- An IBUF byte that no host write has set reads the same twice (20_memory.md R77). -/
theorem test_host_reads_agree :
    ∃ t, step { State.reset with inputs := [.bufRead 3] } = .next t ∧ bufRead t 3 = bufRead State.reset 3 ∧
      t.draws = 0 := ⟨_, rfl, rfl, rfl⟩

/-- A table word placed by `withFetchWord` runs as the first command after reset: CRC32 of nothing. -/
theorem test_withFetchWord :
    stepped (State.reset.withFetchWord 32 0x20) (fun t => (t.cmd, t.obufLen, t.inputs)) = some (0x20, 4, []) ∧
      decodeTableWord 32 0x20 = some .crc32 := by decide +kernel

/-- VERSION keeps its low byte, and unlisted registers read 0 (10_state.md R31, R36). -/
theorem test_registers :
    regRead (regWrite State.reset 0x02 0x12345) 0x02 = 0x45 ∧ regRead State.reset 0x13 = 4096 ∧
      regRead State.reset 0x77 = 0 ∧ regWrite State.reset 0x01 5 = State.reset := by decide

/-! ### Witnesses: states and operands that meet the hypotheses of each statement -/

/-- The reset state with these operand lengths and nothing written. -/
def sized (n m : Nat) : State := { State.reset with ibufLen := BitVec.ofNat 32 n, abufLen := BitVec.ofNat 32 m }

theorem test_witness_OperandBytes :
    (0 < (loaded [0x61] []).ibufLen.toNat ∧ (loaded [0x61] []).mem.read 0 = some 0x61) ∧
      (0 < (loaded [] [0x62]).abufLen.toNat ∧ (loaded [] [0x62]).mem.read 0x40000000 = some 0x62) ∧
      (∀ i, i < (loaded [0x61] []).ibufLen.toNat → (loaded [0x61] []).mem.read i ≠ none) ∧
      ∀ i, i < (loaded [] [0x62]).abufLen.toNat → (loaded [] [0x62]).mem.read (0x40000000 + i) ≠ none := by
  refine ⟨by decide, by decide, fun i hi => ?_, fun i hi => ?_⟩
  · have h : i < 1 := hi
    obtain rfl : i = 0 := by omega
    decide
  · have h : i < 1 := hi
    obtain rfl : i = 0 := by omega
    decide

/-- An operand of no byte, and one that fills the buffer. -/
theorem test_witness_KeyLoadCompletes :
    (sized 0 0).ibufLen.toNat ≤ (sized 0 0).cap ∧ (sized 4096 0).ibufLen.toNat ≤ (sized 4096 0).cap := by decide

theorem test_witness_NonceLoadCompletes :
    (sized 12 0).ibufLen = 12 ∧ (sized 12 0).ibufLen.toNat ≤ (sized 12 0).cap := by decide

theorem test_witness_DerivationsComplete :
    (keyed keyLK nonces []).keyValid = true ∧ (keyed keyLK nonces []).ibufLen = 32 ∧
      (keyed keyLK nonces []).ibufLen.toNat ≤ (keyed keyLK nonces []).cap ∧
      (keyed keyLK nonces []).inBytes = keyLK ++ nonces.drop 16 ∧ keyLK.length = 16 := by decide +kernel

theorem test_witness_AesBlocksComplete :
    workingKey (ready keyLK []) .localKey = .ok keyLK ∧ (ready keyLK []).ibufLen = 16 ∧
      (ready keyLK []).ibufLen.toNat ≤ (ready keyLK []).cap := ⟨rfl, by decide, by decide⟩

/-- The longest operand whose padded form fits. -/
theorem test_witness_PadCompletes :
    (sized 4095 0).ibufLen.toNat ≤ (sized 4095 0).cap ∧ paddedLength (sized 4095 0).ibufLen.toNat ≤ (sized 4095 0).cap ∧
      1 = 16 - (sized 4095 0).ibufLen.toNat % 16 := by decide

theorem test_witness_UnpadCompletes :
    (loaded [0x61, 2, 2] []).ibufLen.toNat ≤ (loaded [0x61, 2, 2] []).cap ∧
      (loaded [0x61, 2, 2] []).inBytes = [0x61] ++ [2, 2] ∧ [2, 2].length = (2 : Byte).toNat ∧ 1 ≤ (2 : Byte).toNat ∧
      (2 : Byte).toNat ≤ 16 ∧ [2, 2].getLast? = some (2 : Byte) ∧ ∀ b ∈ [2, 2], b = (2 : Byte) := by decide +kernel

theorem test_witness_EcbEncCompletes :
    workingKey (keyed keyLK [] []) .localKey = .ok keyLK ∧
      (keyed keyLK [] []).ibufLen.toNat ≤ (keyed keyLK [] []).cap ∧
      paddedLength (keyed keyLK [] []).ibufLen.toNat ≤ (keyed keyLK [] []).cap := ⟨rfl, by decide, by decide⟩

/-- The ciphertext of V-ECB-1. -/
def cipherECB : Bytes := hexBytes 16 0xCB70DDC25A2A2045B4C13084418A9ABB

theorem test_witness_EcbDecCompletes :
    workingKey (keyed keyLK cipherECB []) .localKey = .ok keyLK ∧
      (keyed keyLK cipherECB []).ibufLen.toNat ≤ (keyed keyLK cipherECB []).cap ∧
      (keyed keyLK cipherECB []).ibufLen ≠ 0 ∧ (keyed keyLK cipherECB []).ibufLen.toNat % 16 = 0 ∧
      (unpad ((chunks 16 (keyed keyLK cipherECB []).inBytes).flatMap (aesDec keyLK)) true).toOption =
        some [0x7B, 0x7D] := ⟨rfl, by decide, by decide, by decide, by decide +kernel⟩

/-- Both forms, each with the longest plaintext whose output fits. -/
theorem test_witness_GcmEncCompletes :
    (∀ s ∈ [{ ready [] [] with ibufLen := 4080 }, { ready [] [] with ibufLen := 4068, abufLen := 4096 }],
      workingKey s .udpKey = .ok keyUdp ∧ s.ibufLen.toNat ≤ s.cap ∧ s.abufLen.toNat ≤ s.cap ∧ s.nonceValid = true ∧
        s.nonce.length = 12) ∧
      4080 + 16 + (if false then 12 else 0) ≤ State.reset.cap ∧ 4068 + 16 + (if true then 12 else 0) ≤ State.reset.cap := by
  refine ⟨fun s hs => ?_, by decide, by decide⟩
  rcases List.mem_cons.1 hs with rfl | hs
  · exact ⟨rfl, by decide, by decide, rfl, by decide⟩
  · obtain rfl := List.mem_singleton.1 hs
    exact ⟨rfl, by decide, by decide, rfl, by decide⟩

/-- NX = 0 and NX = 1, with the right tag and with another. -/
theorem test_witness_GcmDecDecides :
    workingKey (ready sealed [0x61, 0x64]) .localKey = .ok keyLK ∧
      (ready sealed [0x61, 0x64]).ibufLen.toNat ≤ (ready sealed [0x61, 0x64]).cap ∧
      (ready sealed [0x61, 0x64]).abufLen.toNat ≤ (ready sealed [0x61, 0x64]).cap ∧ nonceN.length = 12 ∧
      (sealed.drop 5).length = 16 ∧
      ((ready sealed [0x61, 0x64]).nonceValid = true ∧ nonceN = (ready sealed [0x61, 0x64]).nonce ∧
        (ready sealed [0x61, 0x64]).inBytes = sealed.take 5 ++ sealed.drop 5) ∧
      (keyed keyLK (nonceN ++ sealed) [0x61, 0x64]).inBytes = nonceN ++ sealed.take 5 ++ sealed.drop 5 ∧
      gcmTag keyLK nonceN (sealed.take 5) (ready sealed [0x61, 0x64]).afterIn.adBytes = sealed.drop 5 ∧
      gcmTag keyLK nonceN (sealed.take 5) (ready sealed [0x61, 0x65]).afterIn.adBytes ≠ sealed.drop 5 :=
  ⟨rfl, by decide, by decide, by decide, by decide, ⟨rfl, rfl, by decide +kernel⟩, by decide +kernel, by decide +kernel,
    by decide +kernel⟩

theorem test_witness_Crc32Completes :
    (sized 4096 0).params.legal = true ∧ (sized 4096 0).ibufLen.toNat ≤ (sized 4096 0).cap := by decide

theorem test_witness_HmacCompletes :
    workingKey (ready keyLK []) .sessionKey = .ok keyLK ∧ (ready keyLK []).params.legal = true ∧
      (ready keyLK []).ibufLen.toNat ≤ (ready keyLK []).cap := ⟨rfl, by decide, by decide⟩

/-- The right MAC, and another. -/
theorem test_witness_HmacVerifyDecides :
    workingKey (ready keyLK macLK) .localKey = .ok keyLK ∧
      (ready keyLK macLK).ibufLen.toNat ≤ (ready keyLK macLK).cap ∧
      (ready keyLK macLK).abufLen.toNat ≤ (ready keyLK macLK).cap ∧ (ready keyLK macLK).abufLen = 32 ∧
      (ready keyLK macLK).afterIn.adBytes = hmac keyLK (ready keyLK macLK).inBytes ∧
      (ready keyLK (zeros 32)).afterIn.adBytes ≠ hmac keyLK (ready keyLK (zeros 32)).inBytes :=
  ⟨rfl, by decide, by decide, by decide, by decide +kernel, by decide +kernel⟩

theorem test_witness_FrameScanCompletes :
    (loaded frame55 []).ibufLen.toNat ≤ (loaded frame55 []).cap ∧
      (scanFrame (loaded frame55 []).params (loaded frame55 []).inBytes).toOption =
        some { offset := 0, frameLen := 26, incomplete := false, is66 := false } := by decide +kernel

/-- A whole tag with a short header (15 bytes), with a length field of 1001, of 3, and of 4 (the least), and no
tag at all. -/
theorem test_witness_ScanFindsFirstTag :
    tagAt (frame55.take 15) 0 = some false ∧ (frame55.take 15).length < 0 + headerSize false ∧
      tagAt frame55 0 = some false ∧ 0 + headerSize false ≤ (frame55.take 16).length ∧
      maxLen Params.defaults < (beWord (slice ((frame55.set 14 3).set 15 0xE9) 12 16)).toNat ∧
      (beWord (slice (frame55.set 15 3) 12 16)).toNat < 4 + suffixOf Params.defaults false ∧
      (beWord (slice (frame55.set 15 4) 12 16)).toNat = 4 + suffixOf Params.defaults false ∧
      4 ≤ maxLen Params.defaults ∧ ∀ i, tagAt [] i = none := by
  refine ⟨by decide +kernel, by decide +kernel, by decide +kernel, by decide +kernel, by decide +kernel,
    by decide +kernel, by decide +kernel, by decide, fun i => ?_⟩
  simp [tagAt, slice, tagP55, tagP66]

/-- Both trailers, the output just fitting: 4096 = 20 + 4 + 4068 + 4 = 20 + 0 + 4044 + 32. -/
theorem test_witness_Pack55Completes :
    Ksel.localKey ≠ .reserved ∧ RcMode.present ≠ .reserved ∧ (sized 4068 0).ibufLen.toNat ≤ (sized 4068 0).cap ∧
      20 + retcodeLength .present + (sized 4068 0).ibufLen.toNat + trailerLength .crc ≤ (sized 4068 0).cap ∧
      (∃ k, workingKey (sized 4044 0) .udpKey = .ok k ∧ Trailer.hmacTrailer keyUdp = .hmacTrailer k) ∧
      20 + retcodeLength .auto + (sized 4044 0).ibufLen.toNat + trailerLength .hmac ≤ (sized 4044 0).cap :=
  ⟨by decide, by decide, by decide, by decide, ⟨keyUdp, rfl, rfl⟩, by decide⟩

theorem test_witness_Pack66Completes :
    workingKey (ready [0x7B, 0x7D] []) .localKey = .ok keyLK ∧ RcMode.present ≠ .reserved ∧
      (ready [0x7B, 0x7D] []).ibufLen.toNat ≤ (ready [0x7B, 0x7D] []).cap ∧
      (ready [0x7B, 0x7D] []).nonceValid = true ∧ (ready [0x7B, 0x7D] []).nonce.length = 12 ∧ keyLK.length = 16 ∧
      50 + retcodeLength .present + (ready [0x7B, 0x7D] []).ibufLen.toNat ≤ (ready [0x7B, 0x7D] []).cap :=
  ⟨rfl, by decide, by decide, rfl, by decide, by decide, by decide⟩

/-- V-F55-3's frame: LK and the HMAC trailer. -/
def frame55h : Bytes :=
  hexBytes 54
    0x000055AA_00000002_0000000A_00000022_7B7D_0EBBFB195B313749B1886793FE27612CEC6CAFA9E94703FA2D70E04022F1CD8B_0000AA55

/-- A frame that each of the three parsers accepts. -/
theorem test_witness_UnpackersComplete :
    (parse55 (loaded frame55 []).params (loaded frame55 []).inBytes .crcTrailer .auto).toOption.isSome = true ∧
      workingKey (keyed keyLK frame55h []) .localKey = .ok keyLK ∧
      (parse55 (keyed keyLK frame55h []).params (keyed keyLK frame55h []).inBytes (.hmacTrailer keyLK)
        .auto).toOption.isSome = true ∧
      (parse66 (keyed keyLK frame66 []).params (keyed keyLK frame66 []).inBytes keyLK .auto).toOption.isSome = true ∧
      (loaded frame55 []).ibufLen.toNat ≤ (loaded frame55 []).cap ∧
      (keyed keyLK frame55h []).ibufLen.toNat ≤ (keyed keyLK frame55h []).cap ∧
      (keyed keyLK frame66 []).ibufLen.toNat ≤ (keyed keyLK frame66 []).cap :=
  ⟨by decide +kernel, rfl, by decide +kernel, by decide +kernel, by decide, by decide, by decide⟩

/-- The state at a protocol version, with a command code for the frame. -/
def versioned (v : BitVec 8) (cmd : Word) (s : State) : State := { s with version := v, cmdIn := cmd }

/-- 3.3 with a header and 3.4 with an exempt code. -/
theorem test_witness_MsgEncode55Completes :
    (∀ s ∈ [versioned 0x33 7 (keyed keyLK [] []), versioned 0x34 9 (keyed keyLK [] [])],
      workingKey s .sessionKey = .ok keyLK ∧ ¬(s.keyValid = true ∧ s.keySrclen.toNat < 16) ∧
        s.ibufLen.toNat ≤ s.cap) ∧
      (versioned 0x33 7 (keyed keyLK [] [])).version = 0x33 ∧ 7 ∉ ([3, 4, 5, 9, 10, 16, 18, 64] : List Word) ∧
      20 + (([0x33, 0x2E, 0x33] ++ List.replicate 12 0) ++ ecbEnc keyLK (keyed keyLK [] []).inBytes).length
        + Trailer.crcTrailer.size ≤ (keyed keyLK [] []).cap ∧
      (versioned 0x34 9 (keyed keyLK [] [])).version = 0x34 ∧ 9 ∈ ([3, 4, 5, 9, 10, 16, 18, 64] : List Word) ∧
      20 + (ecbEnc keyLK ([] ++ (keyed keyLK [] []).inBytes)).length + (Trailer.hmacTrailer keyLK).size
        ≤ (keyed keyLK [] []).cap := by
  refine ⟨fun s hs => ?_, rfl, by decide, by decide +kernel, rfl, by decide, by decide +kernel⟩
  rcases List.mem_cons.1 hs with rfl | hs
  · exact ⟨rfl, by decide, by decide⟩
  · obtain rfl := List.mem_singleton.1 hs
    exact ⟨rfl, by decide, by decide⟩

theorem test_witness_MsgEncode66Completes :
    workingKey (versioned 0x35 13 (ready [] [])) .sessionKey = .ok keyLK ∧
      ¬((versioned 0x35 13 (ready [] [])).keyValid = true ∧ (versioned 0x35 13 (ready [] [])).keySrclen.toNat < 16) ∧
      (versioned 0x35 13 (ready [] [])).ibufLen.toNat ≤ (versioned 0x35 13 (ready [] [])).cap ∧
      (versioned 0x35 13 (ready [] [])).version = 0x35 ∧ (versioned 0x35 13 (ready [] [])).nonceValid = true ∧
      (versioned 0x35 13 (ready [] [])).nonce.length = 12 ∧ keyLK.length = 16 ∧
      13 ∉ ([3, 4, 5, 9, 10, 16, 18, 64] : List Word) ∧
      50 + (([0x33, 0x2E, 0x35] ++ List.replicate 12 0) ++ (versioned 0x35 13 (ready [] [])).inBytes).length
        ≤ (versioned 0x35 13 (ready [] [])).cap :=
  ⟨rfl, by decide, by decide, rfl, rfl, by decide, by decide, by decide, by decide +kernel⟩

/-- A payload with bytes other than 0, an empty one, and one that is exactly a version header; and an ECB string
that does not decrypt. -/
theorem test_witness_MsgDecodeCompletes :
    (RcMode.absent ≠ .reserved ∧ (versioned 0x33 0 (keyed keyLK frame33 [])).version = PipeVersion.v33.code ∧
      ¬((versioned 0x33 0 (keyed keyLK frame33 [])).keyValid = true ∧
        (versioned 0x33 0 (keyed keyLK frame33 [])).keySrclen.toNat < 16) ∧
      workingKey (versioned 0x33 0 (keyed keyLK frame33 [])) .sessionKey = .ok keyLK ∧
      (versioned 0x33 0 (keyed keyLK frame33 [])).ibufLen.toNat ≤ (versioned 0x33 0 (keyed keyLK frame33 [])).cap ∧
      (decodeMessage (versioned 0x33 0 (keyed keyLK frame33 [])).params .v33
        (versioned 0x33 0 (keyed keyLK frame33 [])).inBytes keyLK .absent false).toOption.isSome = true) ∧
    (parse55 Params.defaults frameAck .crcTrailer .auto).toOption.map Parsed.payload = some [] ∧
    (parse55 Params.defaults frame33 .crcTrailer .absent).toOption.map Parsed.payload = some cipherECB ∧
    (∃ b ∈ cipherECB, b ≠ 0) ∧ Strips [0x33, 0x2E, 0x33] cipherECB cipherECB false ∧
    Strips [0x33, 0x2E, 0x33] ([0x33, 0x2E, 0x33] ++ zeros 12) [] true ∧
    (ecbDec keyLK cipherECB false).toOption = some [0x7B, 0x7D] ∧ ecbDec keyLK (zeros 15) false = .error .operandLen := by
  refine ⟨⟨by decide, rfl, by decide, rfl, by decide, by decide +kernel⟩, by decide +kernel, by decide +kernel,
    by decide +kernel, .inr ⟨rfl, rfl, .inr (by decide +kernel)⟩,
    .inl ⟨rfl, [0x33, 0x2E, 0x33] ++ zeros 12, by decide, by decide, by decide⟩, by decide +kernel, rfl⟩

/-- One byte more than the buffer, in IBUF and in ABUF. -/
theorem test_witness_InputRangeError :
    (Instr.wellFormed .crc32 = true ∧ readsOf .crc32 ≠ .nothing ∧ (sized 4097 0).cap < (sized 4097 0).ibufLen.toNat) ∧
      Instr.wellFormed (.gcmDec .udpKey true) = true ∧ readsOf (.gcmDec .udpKey true) = .inAndAd ∧
      (sized 0 4097).cap < (sized 0 4097).abufLen.toNat := by decide

/-- No version, and a key of 15 bytes. -/
theorem test_witness_ConfigError :
    isMessage .msgEncode = true ∧ Instr.wellFormed .msgEncode = true ∧
      State.reset.ibufLen.toNat ≤ State.reset.cap ∧
      (State.reset.version ≠ 0x33 ∧ State.reset.version ≠ 0x34 ∧ State.reset.version ≠ 0x35) ∧
      isMessage (.msgDecode true .absent) = true ∧ Instr.wellFormed (.msgDecode true .absent) = true ∧
      ({ keyed keyLK [] [] with keySrclen := 15 }.keyValid = true ∧
        ({ keyed keyLK [] [] with keySrclen := 15 } : State).keySrclen.toNat < 16) := by decide

theorem test_witness_KeyUnsetError :
    Instr.wellFormed (.hmacSha256 .sessionKey) = true ∧ inRange (.hmacSha256 .sessionKey) State.reset ∧
      isMessage (.hmacSha256 .sessionKey) = false ∧ keyOf (.hmacSha256 .sessionKey) = some .sessionKey ∧
      State.reset.keyValid = false ∧ State.reset.negotiated = false ∧
      (isMessage .msgEncode = true ∧ keyOf .msgEncode = some .sessionKey ∧
        configured { State.reset with version := 0x33 }) :=
  ⟨rfl, Nat.zero_le _, rfl, rfl, rfl, rfl, rfl, rfl, by decide, by decide⟩

/-- A nonce that is not loaded, with NX = 0 and no tag; and a nonce of 11 bytes. -/
theorem test_witness_NonceAndLengthErrors :
    (PassesKey (.gcmDec .udpKey false) State.reset ∧ needsNonce (.gcmDec .udpKey false) State.reset = true ∧
      State.reset.nonceValid = false) ∧
      PassesKey .nonceLoad (sized 11 0) ∧ needsNonce .nonceLoad (sized 11 0) = false ∧
      badLength .nonceLoad (sized 11 0) = true := by
  refine ⟨⟨⟨rfl, ⟨Nat.zero_le _, Nat.zero_le _⟩, nofun, fun ksel h => ?_⟩, rfl, rfl⟩,
    ⟨rfl, show 11 ≤ 4096 by decide, nofun, nofun⟩, rfl, by decide⟩
  obtain rfl : Ksel.udpKey = ksel := Option.some.inj h
  rfl

/-- No byte; 15 bytes; last bytes 0, 17 and one more than there are; one padding byte wrong; and under LK two
blocks that decrypt to a block with no pad, and to one with one padding byte wrong. -/
theorem test_witness_PaddingErrors :
    (workingKey State.reset .udpKey = .ok keyUdp ∧ State.reset.ibufLen = 0 ∧
      (sized 15 0).ibufLen.toNat % 16 ≠ 0 ∧ (sized 15 0).ibufLen.toNat ≤ (sized 15 0).cap ∧
      (loaded [0] []).inBytes.getLast? = some 0 ∧ (loaded [17] []).inBytes.getLast? = some 17 ∧
      16 < (17 : Byte).toNat ∧ (loaded [2] []).inBytes.getLast? = some 2 ∧
      (loaded [2] []).ibufLen.toNat < (2 : Byte).toNat ∧ (loaded [1, 2] []).inBytes = [] ++ [1, 2] ∧
      [1, 2].length = (2 : Byte).toNat ∧ [1, 2].getLast? = some (2 : Byte) ∧ (1 : Byte) ∈ [1, 2] ∧ (1 : Byte) ≠ 2) ∧
    (∀ b ∈ [zeros 16, zeros 14 ++ [1, 2]],
      workingKey (keyed keyLK (aesEnc keyLK b) []) .localKey = .ok keyLK ∧
        (keyed keyLK (aesEnc keyLK b) []).ibufLen ≠ 0 ∧ (keyed keyLK (aesEnc keyLK b) []).ibufLen.toNat % 16 = 0 ∧
        (keyed keyLK (aesEnc keyLK b) []).ibufLen.toNat ≤ (keyed keyLK (aesEnc keyLK b) []).cap ∧
        b = (chunks 16 (keyed keyLK (aesEnc keyLK b) []).inBytes).flatMap (aesDec keyLK) ∧
        unpad b true = .error .badPadding) ∧
    (zeros 16).getLast? = some 0 ∧ zeros 14 ++ [1, 2] = zeros 14 ++ [1, 2] ∧ (zeros 14 ++ [1, 2]).getLast? = some 2 := by
  refine ⟨⟨rfl, rfl, by decide, by decide, by decide +kernel, by decide +kernel, by decide, by decide +kernel,
    by decide, by decide +kernel, by decide, by decide, by decide, by decide⟩, fun b hb => ?_, by decide, rfl, by decide⟩
  rcases List.mem_cons.1 hb with rfl | hb
  · exact ⟨rfl, by decide +kernel, by decide +kernel, by decide +kernel, by decide +kernel, rfl⟩
  · obtain rfl := List.mem_singleton.1 hb
    exact ⟨rfl, by decide +kernel, by decide +kernel, by decide +kernel, by decide +kernel, rfl⟩

/-- A wrong prefix byte; 15 bytes; length fields 1001, 3 and 4; a frame one byte short or with a wrong suffix; and
after a right suffix, a region of 2 bytes with a right trailer and with a wrong one. -/
theorem test_witness_ParserChecks :
    ([0x01].getD 0 0 ≠ 0x00 ∧ ([0x01] : Bytes)[0]? ≠ tagP55[0]?) ∧
      (∀ j, j < 4 → j < frame55.length → frame55[j]? = tagP55[j]?) ∧ (frame55.take 15).length < 16 ∧
      maxLen Params.defaults < (beWord (slice ((frame55.set 14 3).set 15 0xE9) 12 16)).toNat ∧
      (beWord (slice (frame55.set 15 3) 12 16)).toNat < Trailer.crcTrailer.size + suffix55 Params.defaults ∧
      (beWord (slice frame55 12 16)).toNat = 6 ∧ (frame55.take 25).length < 16 + 6 - suffix55 Params.defaults + 4 ∧
      slice (frame55.set 25 0) 22 26 ≠ tagS55 ∧
      (slice frame55 (26 - 4) 26 = tagS55 ∧ 26 ≤ frame55.length ∧ slice frame55 16 (26 - 4 - 4) = [0x7B, 0x7D] ∧
        RcMode.auto ≠ .reserved ∧
        (false = true ↔ RcMode.auto = .present ∨
          RcMode.auto = .auto ∧ 4 ≤ [0x7B, 0x7D].length ∧ ([0x7B, 0x7D] : Bytes).head? ≠ some 0x7B#8) ∧
        (true = true ↔ RcMode.present = .present ∨
          RcMode.present = .auto ∧ 4 ≤ [0x7B, 0x7D].length ∧ ([0x7B, 0x7D] : Bytes).head? ≠ some 0x7B#8) ∧
        be32 (crc32 (frame55.take 18)) = slice frame55 18 22) ∧
      slice (frame55.set 18 0x97) 22 26 = tagS55 ∧
      be32 (crc32 ((frame55.set 18 0x97).take 18)) ≠ slice (frame55.set 18 0x97) 18 22 := by decide +kernel

/-- The same of the 6699 parser: a wrong prefix byte; 17 bytes; length fields 1001, 27 and 28; a frame one byte
short, with a wrong suffix, with a wrong tag, and with the right one around a plaintext of 2 bytes. -/
theorem test_witness_ParserChecks66 :
    ([0x01] : Bytes)[0]? ≠ tagP66[0]? ∧
      (∀ j, j < 4 → j < frame66.length → frame66[j]? = tagP66[j]?) ∧ (frame66.take 17).length < 18 ∧
      maxLen Params.defaults < (beWord (slice ((frame66.set 16 3).set 17 0xE9) 14 18)).toNat ∧
      (beWord (slice (frame66.set 17 27) 14 18)).toNat < 28 + suffix66 Params.defaults ∧
      (beWord (slice (frame66.set 17 28) 14 18)).toNat = 28 + suffix66 Params.defaults ∧
      (beWord (slice frame66 14 18)).toNat = 30 ∧ (frame66.take 51).length < 18 + 30 - suffix66 Params.defaults + 4 ∧
      slice (frame66.set 51 0) 48 52 ≠ tagS66 ∧ slice frame66 48 52 = tagS66 ∧ frame66.length = 52 ∧
      gcmTag keyLK (slice frame66 18 30) (slice frame66 30 32) (slice frame66 4 18) = slice frame66 32 48 ∧
      gcmTag keyLK (slice frame66 18 30) (slice frame66 30 32) (slice frame66 4 18) ≠ slice (frame66.set 32 0) 32 48 ∧
      gctr keyLK (slice frame66 18 30 ++ [0, 0, 0, 2]) (slice frame66 30 32) = [0x7B, 0x7D] := by decide +kernel

/-- An empty input, which each parser refuses, under LOCAL with no key too (from reset, as V-F55-6); a frame the
scan refuses; and a 55AA frame at 3.5, which the 6699 parser refuses. -/
theorem test_witness_ParserErrorsEndCommands :
    (Ksel.localKey ≠ .reserved ∧ RcMode.auto ≠ .reserved ∧ State.reset.keyValid = false ∧
      State.reset.ibufLen.toNat ≤ State.reset.cap ∧ State.reset.inBytes = [] ∧
      parse55 State.reset.params [] .crcTrailer .auto = .error .short) ∧
    (workingKey (versioned 0x34 0 (keyed keyLK [] [])) .sessionKey = .ok keyLK ∧
      (versioned 0x34 0 (keyed keyLK [] [])).ibufLen.toNat ≤ (versioned 0x34 0 (keyed keyLK [] [])).cap ∧
      (versioned 0x34 0 (keyed keyLK [] [])).inBytes = [] ∧
      parse55 Params.defaults [] (.hmacTrailer keyLK) .auto = .error .short ∧
      parse66 Params.defaults [] keyLK .auto = .error .short ∧
      (versioned 0x34 0 (keyed keyLK [] [])).version = PipeVersion.v34.code ∧
      ¬((keyed keyLK [] []).keyValid = true ∧ (keyed keyLK [] []).keySrclen.toNat < 16) ∧
      decodeMessage Params.defaults .v34 [] keyLK .auto true = .error .short) ∧
    (loaded (frame55.set 15 3) []).inBytes = frame55.set 15 3 ∧
    scanFrame Params.defaults (frame55.set 15 3) = .error .short ∧
    parse66 Params.defaults frame55 keyLK .auto = .error .noPrefix :=
  ⟨⟨by decide, by decide, rfl, by decide, rfl, rfl⟩, ⟨rfl, by decide, rfl, rfl, rfl, rfl, by decide, rfl⟩,
    by decide +kernel, rfl, rfl⟩

/-- A full IBUF with nothing written, and PKCS7_PAD about to run. -/
def fullIbuf : State := { sized 4096 0 with inputs := [.regWrite 0x00 0x12] }

theorem test_inv_fullIbuf : Inv fullIbuf := by
  refine ⟨by decide, Memory.wf_nil, by simp [fullIbuf, sized, State.reset, State.resetOf], by decide,
    by simp [fullIbuf, sized, State.reset, State.resetOf], ⟨.ok, {}, by decide, nofun⟩, ?_, by decide, by decide,
    by decide, by decide, by decide, fun _ => rfl, fun _ => ⟨rfl, rfl⟩, List.nodup_nil, nofun⟩
  exact ⟨fun h => absurd h (by decide), fun h => absurd (show decode 0 = .ok .nop by decide) (h .nop)⟩

/-- A full IBUF: the padded form is 16 bytes too long. -/
theorem test_witness_OutputRangeError :
    Inv fullIbuf ∧ PassesChecks .pkcs7Pad fullIbuf ∧ outputLength .pkcs7Pad fullIbuf = some 4112 ∧
      fullIbuf.cap < 4112 :=
  ⟨test_inv_fullIbuf, ⟨⟨rfl, Nat.le_refl 4096, nofun, nofun⟩, nofun, rfl⟩, by decide, by decide⟩

/-- A command that ends with an error, and one with each of the kinds of writes the statements about
every command speak of: `exec` answers a next state whatever the command and the state. -/
theorem test_witness_every_command :
    (∃ t, exec .kdf34 State.reset = .next t ∧ errorField t ≠ 0) ∧
      (∃ t, exec .nop State.reset = .next t ∧ errorField t = 0 ∧ unpacks .nop = false ∧ packs .nop = false) ∧
      State.reset.params.legal = true := by
  refine ⟨⟨_, rfl, ?_⟩, ⟨_, rfl, ?_, rfl, rfl⟩, by decide⟩ <;> decide

/-- A nonce consumer, and the same with a pair already logged. -/
theorem test_witness_FaultsRecord :
    Instr.wellFormed (.gcmEnc .localKey false) = true ∧ inRange (.gcmEnc .localKey false) (ready [] []) ∧
      nonceKey (.gcmEnc .localKey false) (ready [] []) = some keyLK ∧
      (keyLK, (ready [] []).nonce) ∈ ({ ready [] [] with nlog := [(keyLK, nonceN)] } : State).nlog ∧
      ¬operandsWritten .crc32 (sized 1 0) :=
  ⟨rfl, ⟨Nat.zero_le _, Nat.zero_le _⟩, rfl, by decide,
    fun h => absurd (show (sized 1 0).allWritten .ibuf 1 = true from h) (by decide)⟩

theorem test_witness_HostDutiesKeepFaultsEmpty :
    Clean (ready [0x61] []) ∧ operandsWritten (.gcmEnc .localKey false) (ready [0x61] []) ∧
      nonceFresh (.gcmEnc .localKey false) (ready [0x61] []) := by
  refine ⟨rfl, ⟨by decide +kernel, by decide +kernel⟩, fun k _ => ?_⟩
  simp [ready, keyed, loaded, State.reset, State.resetOf]

theorem test_witness_StepRunsDecodedCommand :
    decode 0x18 = .ok (.gcmEnc .localKey false) ∧
      { State.reset with inputs := [.regWrite 0x00 0x18] }.inputs = .regWrite 0x00 0x18 :: [] := ⟨by decide, rfl⟩

/-- A row with free KSEL and RC bits: a word of it that is legal, and two that are not. -/
theorem test_witness_LegalityIsTheTable :
    ⟨"PACK66", 0x33, 0xFFFFCCFF⟩ ∈ opcodeTable ∧ (0x2233 : Word) &&& 0xFFFFCCFF = 0x33 ∧
      (0x0333 : Word) &&& 0xFFFFCCFF = 0x33 ∧ (0x3033 : Word) &&& 0xFFFFCCFF = 0x33 ∧
      kselBits 0xFFFFCCFF = 0 ∧ rcBits 0xFFFFCCFF = 0 := by decide +kernel

theorem test_witness_IllegalWordEnds :
    { State.reset with inputs := [.regWrite 0x00 0x06] }.inputs = .regWrite 0x00 0x06 :: [] ∧
      ∀ i, decode 0x06 ≠ .ok i := by
  refine ⟨rfl, fun i h => ?_⟩
  rw [show decode 0x06 = .error .unassignedOp by decide] at h
  cases h

/-- A command whose fields are all set, and its word. -/
theorem test_witness_DecodeEncodeAgree :
    Instr.wellFormed (.pack55 .udpKey .hmac .present) = true ∧
      decode 0x2A31 = .ok (.pack55 .udpKey .hmac .present) := by decide

/-- The least and the largest capacity. -/
theorem test_witness_InvHoldsAtReset :
    Params.defaults.legal = true ∧ Params.legal { Params.defaults with bufCap := 1100 } = true ∧
      Params.legal { Params.defaults with bufCap := 0x40000000 } = true := by decide

theorem test_witness_StepKeepsInv : Inv fullIbuf ∧ ∃ t, step fullIbuf = .next t := ⟨test_inv_fullIbuf, _, rfl⟩

/-- Two states that differ in ghost state, and two that differ in keys and in what NLOG holds, about to run a
command of each kind. -/
theorem test_witness_twins :
    SameButGhost { State.reset with inputs := [.regWrite 0x00 0x18] }
        { State.reset with inputs := [.regWrite 0x00 0x18], nlog := [(keyLK, nonceN)] } ∧
      SameButKeys { keyed keyLK [] [] with inputs := [.regWrite 0x00 0x20] }
        { keyed (zeros 16) [] [] with
          inputs := [.regWrite 0x00 0x20], nlog := [(keyLK, nonceN)]
          faults := { nonceReuse := true, unwrittenRead := false } } ∧
      (∃ u, nextAction { keyed keyLK [] [] with inputs := [.regWrite 0x00 0x20] } = .command .crc32 u) ∧
      keepsKeysInside .crc32 = true ∧
      (∃ u, nextAction { ready [] [] with inputs := [.regWrite 0x00 0x218] } = .command (.gcmEnc .udpKey false) u) ∧
      keepsKeysInside (.gcmEnc .udpKey false) = true ∧ keepsKeysInside (.pack66 .udpKey .present) = true :=
  ⟨rfl, rfl, ⟨_, rfl⟩, rfl, ⟨_, rfl⟩, rfl, rfl⟩

/-- OBUF with one byte of output. -/
def emitted61 : State := { State.reset with mem := Memory.writeBytes [] 0x80000000 [0x61], obufLen := 1 }

/-- The first and the last byte of each buffer and the first address past it, a pending write, and a byte of
output. -/
theorem test_witness_BufferAccess :
    (inOperands State.reset.cap (0 : Word).toNat ∧ inOperands State.reset.cap (0xFFF : Word).toNat ∧
      inOperands State.reset.cap (0x40000000 : Word).toNat ∧ inOperands State.reset.cap (0x40000FFF : Word).toNat ∧
      inOutput State.reset.cap (0x80000000 : Word).toNat ∧ inOutput State.reset.cap (0x80000FFF : Word).toNat) ∧
    (∀ a ∈ [0x1000, 0x40001000, 0x80001000, (0xFFFFFFFF : Word)],
      ¬inOperands State.reset.cap a.toNat ∧ ¬inOutput State.reset.cap a.toNat) ∧
    { State.reset with inputs := [.bufWrite 0x40000000 0x61] }.inputs = .bufWrite 0x40000000 0x61 :: [] ∧
    emitted61.mem.read (0x80000000 : Word).toNat = some 0x61 ∧ (0x40000FFF : Word) ≠ 0x40000000 := by
  have hc : State.reset.cap = 4096 := by decide
  refine ⟨?_, ?_, rfl, by decide, by decide⟩ <;> simp [inOperands, inOutput, hc]

/-- Register 0x02 is the host's, 0x01 is not, 0x14 is the first that does not exist. -/
theorem test_witness_RegisterAccess :
    (0x02 : BitVec 8) ≠ 0x00 ∧ hostWritable 0x02 = true ∧ hostWritable 0x01 = false ∧ 0x14 ≤ (0x14 : BitVec 8).toNat ∧
      { State.reset with inputs := [.regWrite 0x02 0x33] }.inputs = .regWrite 0x02 0x33 :: [] := by decide

theorem test_witness_reads :
    State.reset.inputs = [] ∧ { State.reset with inputs := [.regRead 0x01] }.inputs = .regRead 0x01 :: [] ∧
      { loaded [0x61] [] with inputs := [.bufRead 0] }.inputs = .bufRead 0 :: [] ∧
      ((loaded [0x61] []).mem.read (0 : Word).toNat).isSome = true ∧
      (inOperands State.reset.cap (0 : Word).toNat ∧ State.reset.mem.read (0 : Word).toNat = none) ∧
      (∃ t, step { State.reset with inputs := [.bufRead 0] } = .next t) ∧
      { State.reset with inputs := [.reset] }.inputs = .reset :: [] := by
  unfold inOperands
  exact ⟨rfl, rfl, rfl, by decide, by decide, ⟨_, rfl⟩, rfl⟩

theorem test_witness_LaterAccessesWait :
    { State.reset with inputs := [.regWrite 0x00 0x00] }.inputs ≠ [] ∧
      ∃ t, step { State.reset with inputs := [.regWrite 0x00 0x00] } = .next t := ⟨nofun, _, rfl⟩

theorem test_witness_round_trips : keyLK.length = 16 ∧ nonceN.length = 12 ∧ (zeros 16).length = 16 ∧
    zeros 16 ≠ (gcmAE keyLK nonceN [] []).2 := by decide +kernel

/-- The four cases of R304, and the largest length field that is accepted. -/
theorem test_witness_Frame55RoundTrip :
    (build55 Params.defaults 1 7 [] (zeros 996) .crcTrailer).2 = 1000 ∧ 1000 ≤ maxLen Params.defaults ∧
      ([0, 0, 0, 1] : Bytes).length = 4 ∧ ([0, 0, 0, 1] : Bytes).head? ≠ some 0x7B#8 ∧
      ([0x7B, 0x7D] : Bytes).head? = some 0x7B#8 := by decide +kernel

/-- The cases of R301, and the largest length field that is accepted. -/
theorem test_witness_Frame66RoundTrip :
    (build66 Params.defaults 1 13 [] (zeros 972) keyLK nonceN).2 = 1000 ∧ 1000 ≤ maxLen Params.defaults ∧
      ([0x33, 0x2E, 0x35, 0] : Bytes).take 3 = [0x33, 0x2E, 0x35] ∧
      slice ([0x7B, 0x7D] : Bytes) 4 7 ≠ [0x33, 0x2E, 0x35] ∧ ([0x7B, 0x7D] : Bytes).head? = some 0x7B#8 ∧
      ([0x61] : Bytes)[4]? ≠ some 0x7B#8 :=
  ⟨by simp [build66, length66, suffix66, Params.defaults], by decide, by decide, by decide, by decide, by decide⟩

/-- 3.3 with an exempt code, 3.4 and 3.5 with a header: the region is not all zero, and nothing that is
stripped looks like a header. -/
theorem test_witness_MessageRoundTrip :
    (encodeMessage Params.defaults .v33 2 9 [0x7B, 0x7D] keyLK nonceN).2 ≤ maxLen Params.defaults ∧
      isEmptyPayload (withHeader .v33 9 (ecbEnc keyLK [0x7B, 0x7D])) = false ∧
      (ecbEnc keyLK [0x7B, 0x7D]).take 3 ≠ PipeVersion.v33.string ∧
      (encodeMessage Params.defaults .v35 3 13 [0x7B, 0x7D] keyLK nonceN).2 ≤ maxLen Params.defaults ∧
      isEmptyPayload (withHeader .v35 13 [0x7B, 0x7D]) = false ∧ 9 ∈ ([3, 4, 5, 9, 10, 16, 18, 64] : List Word) ∧
      13 ∉ ([3, 4, 5, 9, 10, 16, 18, 64] : List Word) ∧
      (encodeMessage Params.defaults .v34 4 8 [0x7B, 0x7D] keyLK nonceN).2 ≤ maxLen Params.defaults ∧
      isEmptyPayload (ecbEnc keyLK (withHeader .v34 8 [0x7B, 0x7D])) = false ∧
      8 ∉ ([3, 4, 5, 9, 10, 16, 18, 64] : List Word) := by decide +kernel

end Sys2Proof.Machine
end

