-- ==== Sys2Proof/Proofs/Scope.lean ====
section
/-!
PROOFS. The operands of a command (spec/00_scope.md R12, 10_state.md R39 and R51): what a read of the
first bytes of any buffer answers and leaves unchanged, and from it the statement about IN and AD.
-/

namespace Sys2Proof.Machine

/-- A byte with a specified value is read as that value: no free value stands in for it. -/
theorem State.getElem?_readString_of_read {s : State} {b : Buffer} {n i : Nat} {v : Byte} (hi : i < n)
    (hv : s.mem.read (b.base + i) = some v) : (s.readString b n)[i]? = some v := by
  rw [State.getElem?_readString s b hi, hv, Option.getD_some]

/-- A byte is marked exactly if it holds a specified value (10_state.md R51). -/
theorem State.written_iff_read_ne_none {s : State} {b : Buffer} {i : Nat} :
    s.written b i = true ↔ s.mem.read (b.base + i) ≠ none :=
  Option.isSome_iff_ne_none

/-- A read of bytes that all hold specified values changes nothing. -/
theorem State.noteRead_of_read_ne_none {s : State} {b : Buffer} {n : Nat}
    (h : ∀ i, i < n → s.mem.read (b.base + i) ≠ none) : s.noteRead b n = s := by
  have marked : s.allWritten b n = true :=
    (s.allWritten_iff b n).2 fun i hi => State.written_iff_read_ne_none.2 (h i hi)
  exact State.noteRead_of_allWritten marked

/-- R12, R39, R51 for any buffer and length: the string read has the length asked for, holds each
specified byte, and costs nothing where every byte is specified. -/
theorem State.readString_spec (s : State) (b : Buffer) (n : Nat) :
    (s.readString b n).length = n ∧
      (∀ (i : Nat) (v : Byte), i < n → s.mem.read (b.base + i) = some v → (s.readString b n)[i]? = some v) ∧
      ((∀ i, i < n → s.mem.read (b.base + i) ≠ none) → s.noteRead b n = s) :=
  ⟨s.length_readString b n, fun _ _ => State.getElem?_readString_of_read, State.noteRead_of_read_ne_none⟩

/-- Settles O1: IN is the read of IBUF, whose base is 0, and AD the read of ABUF. -/
theorem operandBytes : Obligations.OperandBytes := by
  intro s
  have hin := s.readString_spec .ibuf s.ibufLen.toNat
  have had := s.readString_spec .abuf s.abufLen.toNat
  simp only [Buffer.base, Nat.zero_add] at hin had
  exact ⟨hin, had⟩

end Sys2Proof.Machine
end

/-!
PROOFS. The invariant (10_state.md R33 to R44, 20_memory.md R73, 60_exceptions.md R402). It is kept in two parts,
the buffer space and the key state, which commands and accesses keep each on its own; the commit at the end of a
command then completes it.
-/

namespace Sys2Proof.Machine

/-! ### What `exec` answers, by what STATUS says -/

/-- The two ways a command can end: an error, on the state before or after the operand reads, or an effect. -/
theorem exec_next_cases {i : Instr} {s t : State} (h : exec i s = .next t) :
    (∃ v e, e ≠ .ok ∧ (e = .illegalCmd → i.wellFormed = false) ∧ t = v.fail e ∧
        (v = s ∧ ¬(i.wellFormed = true ∧ inRange i s) ∨ v = afterReads i s)) ∨
      (i.wellFormed = true ∧ inRange i s ∧
        ∃ u f out, Effect i s u f out ∧ t = (u.emit out).setStatus .ok f) := by
  obtain ⟨t', h', hc⟩ := exec_cases i s
  obtain rfl : t = t' := by rw [h] at h'; exact Host.Outcome.next.inj h'
  rcases hc with ⟨hw, rfl⟩ | ⟨_, hr, rfl⟩ | ⟨_, _, e, hok, hill, rfl⟩ | heff
  · exact .inl ⟨s, _, by decide, fun _ => hw, rfl, .inl ⟨rfl, by simp [hw]⟩⟩
  · exact .inl ⟨s, .bufRange, by decide, (by intro he; cases he), rfl, .inl ⟨rfl, fun ⟨_, hr'⟩ => hr hr'⟩⟩
  · exact .inl ⟨_, e, hok, fun he => absurd he hill, rfl, .inr rfl⟩
  · exact .inr heff

/-- A row of the opcode map is a legal command where neither KSEL nor RC is 11 (30_encoding.md R91, R97). -/
theorem opcodeRow_wellFormed {w : Word} {tk : Takes} {i : Instr} (hrow : opcodeRow w = some (tk, i))
    (hksel : tk.ksel = true → kselBits w ≠ 3) (hrc : tk.rc = true → rcBits w ≠ 3) : i.wellFormed = true := by
  unfold opcodeRow at hrow
  dsimp only at hrow
  split at hrow <;> cases hrow <;>
    simp_all only [Instr.wellFormed, Ksel.legal_kselOf, RcMode.legal_rcOf, Bool.and_eq_true, forall_const, ne_eq,
      not_false_eq_true, and_self]

/-- The decoder answers legal commands only (30_encoding.md R97). -/
theorem decode_wellFormed {w : Word} {i : Instr} (h : decode w = .ok i) : i.wellFormed = true := by
  obtain ⟨tk, hrow, -, -, -, -, -, -, hksel, hrc⟩ := decode_ok h
  exact opcodeRow_wellFormed hrow hksel hrc

/-! ### The invariant in parts -/

/-- The part of the invariant about the buffer space. -/
structure BuffersInv (s : State) : Prop where
  legal : s.params.legal = true
  canonical : s.mem.wf
  inBuffers : ∀ a, (s.mem.read a).isSome = true → (bufferOf s.cap a).isSome = true

/-- The part of the invariant about keys, nonce and log. -/
structure KeysInv (s : State) : Prop where
  keyLocalSize : s.keyLocal.length = 16
  keySessionSize : s.keySession.length = 16
  nonceSize : s.nonce.length = 12
  sourceFits : s.keySrclen.toNat ≤ s.cap
  sessionNeedsKey : s.negotiated = true → s.keyValid = true
  noSessionKey : s.negotiated = false → s.keySession = zeros 16
  noLocalKey : s.keyValid = false → s.keyLocal = zeros 16 ∧ s.keySrclen = 0
  logSet : s.nlog.Nodup
  logSizes : ∀ p ∈ s.nlog, p.1.length = 16 ∧ p.2.length = 12

theorem Inv.buffers {s : State} (h : Inv s) : BuffersInv s := { __ := h }
theorem Inv.keys {s : State} (h : Inv s) : KeysInv s := { __ := h }

/-- The buffers' part speaks of the parameters and memory alone. -/
theorem BuffersInv.congr {s u : State} (h : BuffersInv s) (hp : u.params = s.params) (hm : u.mem = s.mem) :
    BuffersInv u := by
  obtain ⟨legal, canonical, inBuffers⟩ := h
  constructor
  · rwa [hp]
  · rwa [hm]
  · rwa [hm, State.cap, hp]

/-- An address that reads after an output is in the output or read before it. -/
theorem BuffersInv.emit {u : State} (h : BuffersInv u) {out : Bytes} (ho : out.length ≤ u.cap) :
    BuffersInv (u.emit out) where
  legal := h.legal
  canonical := Memory.wf_writeBytes (Memory.wf_clear h.canonical _ _) _ _
  inBuffers a ha := by
    rw [State.read_emit] at ha
    split at ha
    · next hin =>
      simp only [Buffer.base] at hin
      have hobuf : 0x80000000 ≤ a ∧ a < 0x80000000 + u.cap := by omega
      rw [State.emit_cap, bufferOf_eq, if_pos hobuf]
      split_ifs <;> rfl
    · split at ha
      · cases ha
      · exact h.inBuffers a ha

theorem ErrCode.code_eq_illegalCmd {e : ErrCode} : e.code = ErrCode.illegalCmd.code ↔ e = .illegalCmd := by
  cases e <;> decide

/-- The commit of STATUS and the output completes the invariant. -/
theorem inv_commit {u : State} {e : ErrCode} {f : ResultFlags} {out : Bytes} (hb : BuffersInv u) (hk : KeysInv u)
    (ho : out.length ≤ u.cap) (hf : e ≠ .ok → f = {}) (hi : e = .illegalCmd ↔ ∀ i, decode u.cmd ≠ .ok i) :
    Inv ((u.emit out).setStatus e f) := by
  obtain ⟨hlen, hbytes⟩ := u.outputIs_emit ho
  exact
    { __ := hb.emit ho
      __ := hk
      outputFits := hlen.le.trans ho
      outputBytes := fun i hi => by
        rw [State.setStatus_mem, hbytes i hi, State.setStatus_obufLen, hlen]
        simp
      statusForm := ⟨e, f, rfl, hf⟩
      illegalWord := by
        have hcode := errorField_setStatus (u.emit out) e f
        rw [errorField] at hcode
        rw [hcode, ErrCode.code_eq_illegalCmd]
        exact hi }

/-- An error completes the invariant. -/
theorem inv_fail {u : State} {e : ErrCode} (hb : BuffersInv u) (hk : KeysInv u)
    (hi : e = .illegalCmd ↔ ∀ i, decode u.cmd ≠ .ok i) : Inv (u.fail e) :=
  inv_commit (out := []) hb hk (Nat.zero_le _) (fun _ => rfl) hi

/-! ### Commands keep the keys' part -/

/-- The operand reads touch FAULTS and the draws alone (10_state.md R51). -/
theorem KeysInv.afterReads {s : State} (h : KeysInv s) (i : Instr) : KeysInv (afterReads i s) := by
  obtain ⟨n, heq⟩ := afterReads_eq i s
  rw [heq]
  exact { __ := h }

/-- The log gains a pair of the right widths (10_state.md R50). -/
theorem KeysInv.useNonce {s : State} (h : KeysInv s) {k : Bytes} (hk : k.length = 16) : KeysInv (s.useNonce k) :=
  { __ := h
    logSet := h.logSet.insert
    logSizes := fun p hp => by
      rcases List.mem_insert_iff.1 hp with rfl | hp
      · exact ⟨hk, h.nonceSize⟩
      · exact h.logSizes p hp }

/-- A success under the two derivations, of a key of 16 bytes, while a key is loaded (40_control.md R144, R145). -/
theorem KeysInv.session {s : State} (h : KeysInv s) {key : Bytes} (hk : key.length = 16) (hv : s.keyValid = true) :
    KeysInv { s with keySession := key, negotiated := true } :=
  { __ := h
    keySessionSize := hk
    sessionNeedsKey := fun _ => hv
    noSessionKey := nofun }

/-- The end of a session (10_state.md R42, R43). -/
theorem KeysInv.endSession {s : State} (h : KeysInv s) :
    KeysInv { s with negotiated := false, keySession := zeros 16 } :=
  { __ := h
    keySessionSize := length_zeros 16
    sessionNeedsKey := nofun
    noSessionKey := fun _ => rfl }

/-- Every working key has 16 bytes (10_state.md R46). -/
theorem KeysInv.length_key {s : State} (h : KeysInv s) {ksel : Ksel} {k : Bytes} (hk : workingKey s ksel = .ok k) :
    k.length = 16 := length_workingKey h.keyLocalSize h.keySessionSize hk

/-- Of the successes, the key and nonce loads, the derivations, SESSION_RESET and the encryptions under NONCE
write the key state; the others leave it. -/
theorem Effect.keysInv {i : Instr} {s u : State} {f : ResultFlags} {out : Bytes} (he : Effect i s u f out)
    (h : KeysInv s) (hr : inRange i s) : KeysInv u := by
  have hin : KeysInv s.afterIn := { __ := h }
  have had : KeysInv s.afterIn.afterAd := { __ := h }
  cases he with
  | keyLoad =>
    exact
      { __ := hin.endSession
        keyLocalSize := by simp
        sourceFits := by
          simp only [State.length_inBytes, BitVec.ofNat_toNat, BitVec.setWidth_eq]
          exact hr
        sessionNeedsKey := nofun
        noLocalKey := nofun }
  | nonceLoad _ hl => exact { __ := hin, nonceSize := hl }
  | sessionReset => exact h.endSession
  | kdf34 _ hv hl =>
    exact hin.session (length_aesEnc h.keyLocalSize (by simp [hl])) hv
  | kdf35 _ hv hl =>
    refine hin.session ?_ hv
    rw [length_gcmAE_fst h.keyLocalSize (by simp [hl])]
    simp [hl]
  | gcmEnc _ ksel nx k hk => exact had.useNonce (h.length_key hk)
  | pack66 _ ksel rc k hk => exact { __ := hin.useNonce (h.length_key hk) }
  | msgEncode66 _ k hv hc hk => exact { __ := hin.useNonce (h.length_key hk) }
  | nop => exact h
  | aesEncBlock | aesDecBlock | pkcs7Pad | pkcs7Unpad | ecbEnc | ecbDec | crc32 | hmacSha256 | frameScan | pack55
  | unpack55 | unpack66 | msgEncode55 | msgDecode => exact { __ := hin }
  | gcmDec | hmacVerify => exact { __ := had }

/-- The command that CMD's word decodes to ends in the invariant: its error is not ERR_ILLEGAL_CMD, since the
decoder answers legal commands only. -/
theorem exec_keeps_inv {i : Instr} {s t : State} (hb : BuffersInv s) (hk : KeysInv s) (hd : decode s.cmd = .ok i)
    (h : exec i s = .next t) : Inv t := by
  have hnot : ∀ c, decode c = .ok i → ∀ e : ErrCode, e ≠ .illegalCmd →
      (e = .illegalCmd ↔ ∀ j, decode c ≠ .ok j) :=
    fun c hc e he => ⟨fun h' => absurd h' he, fun h' => absurd hc (h' i)⟩
  rcases exec_next_cases h with ⟨v, e, -, hill, rfl, hv⟩ | ⟨-, hr, u, f, out, heff, rfl⟩
  · have he : e ≠ .illegalCmd := fun h' => by simpa [decode_wellFormed hd] using hill h'
    rcases hv with ⟨rfl, -⟩ | rfl
    · exact inv_fail hb hk (hnot _ hd e he)
    · have hs := afterReads_sameInputs i s
      exact inv_fail (hb.congr hs.params hs.mem) (hk.afterReads i) (hnot _ (hs.cmd ▸ hd) e he)
  · have hs := heff.sameInputs
    have ho : out.length ≤ u.cap := by
      rw [State.cap, hs.params]
      exact heff.length_out hb.legal hr
    exact inv_commit (hb.congr hs.params hs.mem) (heff.keysInv hk hr) ho (by simp) (hnot _ (hs.cmd ▸ hd) .ok nofun)

/-! ### Host accesses keep the invariant -/

/-- Right after a reset the invariant holds (70_reset_and_hazards.md R441). -/
theorem inv_resetOf {p : Params} (h : p.legal = true) : Inv (State.resetOf p) where
  legal := h
  canonical := Memory.wf_nil
  inBuffers := by simp
  outputFits := Nat.zero_le _
  outputBytes := by simp [State.resetOf]
  statusForm := ⟨.ok, {}, (by decide : (0 : Word) = statusWord .ok {} false false false), fun _ => rfl⟩
  illegalWord := by
    have h0 : decode 0 = .ok .nop := by decide
    exact ⟨fun hs => absurd hs (by simp [State.resetOf, ErrCode.code]), fun hd => absurd h0 (hd .nop)⟩
  keyLocalSize := rfl
  keySessionSize := rfl
  nonceSize := rfl
  sourceFits := Nat.zero_le _
  sessionNeedsKey := nofun
  noSessionKey := fun _ => rfl
  noLocalKey := fun _ => ⟨rfl, rfl⟩
  logSet := List.nodup_nil
  logSizes := nofun

/-- A host write to a register other than CMD writes one of the host's registers or nothing (10_state.md R31). -/
theorem Inv.regWrite {s : State} (h : Inv s) {n : BitVec 8} (hn : n ≠ 0) (v : Word) : Inv (regWrite s n v) := by
  unfold Machine.regWrite
  split
  · next h0 => exact absurd (BitVec.eq_of_toNat_eq h0) hn
  all_goals exact { __ := h }

/-- A host write to IBUF or ABUF reaches no byte of OBUF (20_memory.md R70). -/
theorem Inv.bufWrite {s : State} (h : Inv s) (a : Word) (v : Byte) : Inv (bufWrite s a v) := by
  by_cases ha : inOperands s.cap a.toNat
  · rw [bufWrite_operand v ha]
    have hcap : s.cap ≤ 2 ^ 30 := (Params.legal_iff.1 h.legal).2
    exact
      { __ := h
        canonical := Memory.wf_write h.canonical _ _
        inBuffers := fun b hb => by
          rw [Memory.read_write] at hb
          split at hb
          · next hab =>
            rw [hab]
            show (bufferOf s.cap a.toNat).isSome = true
            rcases bufferOf_operands.1 ha with hbuf | hbuf <;> rw [hbuf] <;> rfl
          · exact h.inBuffers b hb
        outputBytes := fun i hi => by
          have hne : Buffer.obuf.base + i ≠ a.toNat := by
            unfold inOperands at ha
            simp only [Buffer.base]
            omega
          rw [Memory.read_write, if_neg hne]
          exact h.outputBytes i hi }
  · rwa [bufWrite_elsewhere v ha]

/-- An access that starts no command keeps the invariant. -/
theorem Inv.serve {s : State} (h : Inv s) {a : Access} (hc : a.commandWord = none) : Inv (serve s a) := by
  cases a with
  | regRead n => exact { __ := h }
  | regWrite n v =>
    refine h.regWrite (fun hn => ?_) v
    simp [Access.commandWord, hn] at hc
  | bufRead a => exact { __ := h }
  | bufWrite a v => exact h.bufWrite a v
  | reset => exact { __ := inv_resetOf h.legal }

/-- Settles O46, by what a step can do: wait, serve an access, run a command or refuse its word. -/
theorem stepKeepsInv : Obligations.StepKeepsInv := by
  intro s t h hstep
  rcases step_cases s with ⟨-, hs⟩ | ⟨a, rest, -, hc, hs⟩ | ⟨w, rest, -, ⟨i, hd, hs⟩ | ⟨e, hd, hs⟩⟩
  · rw [hs] at hstep
    cases hstep
    exact h
  · rw [hs] at hstep
    cases hstep
    exact Inv.serve (s := { s with inputs := rest }) { __ := h } hc
  · rw [hs] at hstep
    exact exec_keeps_inv (s := { s with inputs := rest, cmd := w }) { __ := h } { __ := h } hd hstep
  · rw [hs] at hstep
    cases hstep
    exact inv_fail { __ := h } { __ := h } ⟨fun _ i => by simp [hd], fun _ => rfl⟩

end Sys2Proof.Machine

/-!
PROOFS. What every command writes and leaves: STATUS, the result registers, the host's inputs, the key and nonce
state and the ghost record (10_state.md R33 to R52). Each statement splits a command's outcome by STATUS.ERR and
asks of a success what its `Effect` says.
-/

namespace Sys2Proof.Machine

/-! ### A command's outcome, told apart by STATUS.ERR -/

theorem errorField_fail_ne_zero (v : State) {e : ErrCode} (h : e ≠ .ok) : errorField (v.fail e) ≠ 0 := by
  rwa [errorField_fail, Ne, ErrCode.code_eq_zero]

/-- After an error nothing but STATUS, the output, UNWRITTEN_READ and the draws may differ; after ERR = OK the
command has had its effect (60_exceptions.md R402). -/
theorem exec_error_or_effect {i : Instr} {s t : State} (h : exec i s = .next t) :
    (errorField t ≠ 0 ∧ ∃ w n e,
        t = ({ s with faults := { s.faults with unwrittenRead := w }, draws := n } : State).fail e) ∨
      (errorField t = 0 ∧ inRange i s ∧ ∃ u f out, Effect i s u f out ∧ t = (u.emit out).setStatus .ok f) := by
  rcases exec_next_cases h with ⟨v, e, hok, -, rfl, hv⟩ | ⟨-, hr, u, f, out, heff, rfl⟩
  · have herr := errorField_fail_ne_zero v hok
    rcases hv with ⟨rfl, -⟩ | rfl
    · exact .inl ⟨herr, _, _, e, rfl⟩
    · obtain ⟨n, heq⟩ := afterReads_eq i s
      exact .inl ⟨herr, _, n, e, congrArg (State.fail · e) heq⟩
  · exact .inr ⟨errorField_ok .., hr, u, f, out, heff, rfl⟩

/-! ### STATUS -/

theorem ResultFlags.empty_le (g : ResultFlags) : ResultFlags.le {} g := ⟨nofun, nofun, nofun, nofun, nofun, nofun⟩

/-- A success raises only flags its rule names (10_state.md R34). -/
theorem Effect.flags_le {i : Instr} {s u : State} {f : ResultFlags} {out : Bytes} (h : Effect i s u f out) :
    f.le (flagsNamed i) := by
  cases h <;> simp [ResultFlags.le, flagsNamed]

/-- Every command ends by writing STATUS (10_state.md R34). -/
theorem exec_setStatus (i : Instr) (s : State) :
    ∃ (v : State) (e : ErrCode) (f : ResultFlags),
      exec i s = .next (v.setStatus e f) ∧ f.le (flagsNamed i) ∧ (e ≠ .ok → f = {}) := by
  obtain ⟨t, h, -⟩ := exec_cases i s
  rcases exec_next_cases h with ⟨v, e, -, -, rfl, -⟩ | ⟨-, -, u, f, out, heff, rfl⟩
  · exact ⟨_, e, {}, h, ResultFlags.empty_le _, fun _ => rfl⟩
  · exact ⟨_, .ok, f, h, heff.flags_le, fun hne => absurd rfl hne⟩

/-- Settles O34: STATUS is the word every command ends by writing, read field by field. -/
theorem statusAfterEveryCommand : Obligations.StatusAfterEveryCommand := by
  intro i s
  obtain ⟨v, e, f, h, hle, hf⟩ := exec_setStatus i s
  obtain ⟨hcode, h8, h9, h10, h11, h12, h13, h16, h17, h18, h14, h19⟩ :=
    statusWord_fields e f v.keyValid v.nonceValid v.negotiated
  exact ⟨_, e, f, h, rfl, hcode, hle, hf, ⟨h8, h9, h10, h11, h12, h13⟩, ⟨h16, h17, h18⟩, h14, h19⟩

/-! ### What a success writes -/

/-- The result registers a success leaves alone (10_state.md R38). -/
theorem Effect.resultRegisters {i : Instr} {s u : State} {f : ResultFlags} {out : Bytes} (h : Effect i s u f out) :
    (unpacks i = false → u.rSeq = s.rSeq ∧ u.rCmd = s.rCmd ∧ u.rRetcode = s.rRetcode) ∧
      (unpacks i = false ∧ packs i = false → u.rLen = s.rLen) ∧
      (unpacks i = false ∧ packs i = false ∧ i ≠ .frameScan → u.rFramelen = s.rFramelen) ∧
      (i ≠ .frameScan → u.rOffset = s.rOffset) ∧ (i ≠ .crc32 → u.rCrc = s.rCrc) := by
  cases h <;> simp [unpacks, packs]

/-- Settles O35: an error writes no result register, and a success those its effect names. -/
theorem resultRegistersWrittenByName : Obligations.ResultRegistersWrittenByName := by
  intro i s t h
  rcases exec_error_or_effect h with ⟨-, w, n, e, rfl⟩ | ⟨hok, -, u, f, out, heff, rfl⟩
  · exact ⟨fun _ => ⟨rfl, rfl, rfl⟩, fun _ => rfl, fun _ => rfl, fun _ => rfl, fun _ => rfl⟩
  · obtain ⟨hseq, hlen, hframe, hoff, hcrc⟩ := heff.resultRegisters
    simp only [hok, ne_eq, not_true_eq_false, or_false]
    exact ⟨hseq, hlen, hframe, hoff, hcrc⟩

/-- Settles O36: neither an effect nor an error writes those fields, and the output stays inside OBUF. -/
theorem commandsKeepInputs : Obligations.CommandsKeepInputs := by
  intro i s t hl h
  rcases exec_error_or_effect h with ⟨-, w, n, e, rfl⟩ | ⟨-, hr, u, f, out, heff, rfl⟩
  · exact ⟨rfl, rfl, rfl, rfl, rfl, rfl, rfl, rfl, rfl, rfl,
      State.keepsOutside_emit _ (v := []) (Nat.zero_le _)⟩
  · obtain ⟨params, cmd, version, seqIn, cmdIn, retcodeIn, ibufLen, abufLen, mem, inputs, replies⟩ := heff.sameInputs
    have hcap : u.cap = s.cap := by rw [State.cap, params, State.cap]
    have hout : out.length ≤ u.cap := hcap ▸ heff.length_out hl hr
    refine ⟨params, cmd, version, seqIn, cmdIn, retcodeIn, ibufLen, abufLen, inputs, replies, fun a ha => ?_⟩
    exact (u.keepsOutside_emit hout a (hcap ▸ ha)).trans (by rw [mem])

/-! ### The key and nonce state -/

/-- What the key and nonce loads, the derivations and SESSION_RESET write, and that no other success writes it
(10_state.md R41 to R44). -/
theorem Effect.keyState {i : Instr} {s u : State} {f : ResultFlags} {out : Bytes} (h : Effect i s u f out) :
    (i ≠ .keyLoad → u.keyLocal = s.keyLocal ∧ u.keySrclen = s.keySrclen ∧ u.keyValid = s.keyValid) ∧
      (i ≠ .keyLoad → i ≠ .sessionReset → i ≠ .kdf34 → i ≠ .kdf35 →
        u.keySession = s.keySession ∧ u.negotiated = s.negotiated) ∧
      (i = .kdf34 ∨ i = .kdf35 → u.negotiated = true) ∧
      (i = .keyLoad ∨ i = .sessionReset → u.negotiated = false) ∧
      (i ≠ .nonceLoad → u.nonce = s.nonce) ∧ (i = .nonceLoad → u.nonceValid = true) := by
  cases h <;> simp

/-- The pipeline of 3.5 is that of VER = 0x35 (45_message_pipeline.md R350). -/
theorem pipeVersion_eq_v35 {ver : BitVec 8} : pipeVersion ver = some .v35 ↔ ver = 0x35 := by
  unfold pipeVersion
  split_ifs <;> simp_all

/-- MSG_ENCODE encrypts under NONCE at 3.5, and at no other version (10_state.md R44). -/
theorem nonceKey_msgEncode_v35 {s : State} (hv : pipeVersion s.version = some .v35) :
    nonceKey .msgEncode s = (workingKey s .sessionKey).toOption := if_pos (pipeVersion_eq_v35.1 hv)

theorem nonceKey_msgEncode_ne {s : State} {v : PipeVersion} (hv : pipeVersion s.version = some v) (h : v ≠ .v35) :
    nonceKey .msgEncode s = none := by
  refine if_neg fun h35 => h ?_
  rw [pipeVersion_eq_v35.2 h35] at hv
  exact (Option.some.inj hv).symm

/-- A success under NONCE consumes it and logs the pair; every other success leaves NLOG, and NONCE_VALID but
for NONCE_LOAD (10_state.md R44, R50). -/
theorem Effect.nonce_cases {i : Instr} {s u : State} {f : ResultFlags} {out : Bytes} (h : Effect i s u f out) :
    (nonceKey i s = none ∧ (i ≠ .nonceLoad → u.nonceValid = s.nonceValid) ∧ u.nlog = s.nlog ∧
        u.faults = (afterReads i s).faults) ∨
      ∃ k, nonceKey i s = some k ∧ u.nonceValid = false ∧ u.nlog = s.nlog.insert (k, s.nonce) ∧
        u.faults =
          { (afterReads i s).faults with
            nonceReuse := s.faults.nonceReuse || s.nlog.contains (k, s.nonce) } := by
  cases h with
  | gcmEnc _ ksel nx k hk => exact .inr ⟨k, by simp only [nonceKey, hk]; rfl, rfl, rfl, rfl⟩
  | pack66 _ ksel rc k hk => exact .inr ⟨k, by simp only [nonceKey, hk]; rfl, rfl, rfl, rfl⟩
  | msgEncode66 _ k hv hc hk => exact .inr ⟨k, by rw [nonceKey_msgEncode_v35 hv, hk]; rfl, rfl, rfl, rfl⟩
  | msgEncode55 _ v k hv h35 => exact .inl ⟨nonceKey_msgEncode_ne hv h35, fun _ => rfl, rfl, rfl⟩
  | nonceLoad => exact .inl ⟨rfl, fun hne => absurd rfl hne, rfl, rfl⟩
  | nop | keyLoad | sessionReset | kdf34 | kdf35 | aesEncBlock | aesDecBlock | pkcs7Pad | pkcs7Unpad | ecbEnc | ecbDec
  | gcmDec | crc32 | hmacSha256 | hmacVerify | frameScan | pack55 | unpack55 | unpack66 | msgDecode =>
    exact .inl ⟨rfl, fun _ => rfl, rfl, rfl⟩

/-- Settles O37: an error writes no key or nonce state, and a success what its effect says. -/
theorem keyStateWriters : Obligations.KeyStateWriters := by
  intro i s t h
  rcases exec_error_or_effect h with ⟨herr, w, n, e, rfl⟩ | ⟨hok, -, u, f, out, heff, rfl⟩
  · exact ⟨fun _ => ⟨rfl, rfl, rfl⟩, fun _ _ _ _ => ⟨rfl, rfl⟩, fun _ h0 => absurd h0 herr, fun _ h0 => absurd h0 herr,
      fun _ => rfl, fun _ h0 => absurd h0 herr, fun _ h0 => absurd h0.2 herr, fun _ _ => rfl⟩
  · obtain ⟨hlocal, hsession, hkdf, hreset, hnonce, hload⟩ := heff.keyState
    refine ⟨hlocal, hsession, fun hi _ => hkdf hi, fun hi _ => hreset hi, hnonce, fun hi _ => hload hi, ?_⟩
    rcases heff.nonce_cases with ⟨hnone, hkeep, -, -⟩ | ⟨k, hsome, hvalid, -, -⟩
    · exact ⟨fun _ hk => absurd hnone hk.1, fun hi _ => hkeep hi⟩
    · refine ⟨fun _ _ => hvalid, fun _ hk => ?_⟩
      rcases hk with hk | hk
      · rw [hsome] at hk
        cases hk
      · exact absurd hok hk

/-! ### The ghost record -/

@[simp] theorem State.fail_faults (s : State) (e : ErrCode) : (s.fail e).faults = s.faults := rfl
@[simp] theorem State.fail_nlog (s : State) (e : ErrCode) : (s.fail e).nlog = s.nlog := rfl

/-- The operand reads add UNWRITTEN_READ exactly where a byte read is unmarked (10_state.md R51). -/
theorem afterReads_faults (i : Instr) (s : State) :
    (afterReads i s).faults =
      { s.faults with unwrittenRead := s.faults.unwrittenRead || !operandsMarked i s } := by
  obtain ⟨n, heq⟩ := afterReads_eq i s
  rw [heq]

theorem afterReads_unwrittenRead (i : Instr) (s : State) :
    (afterReads i s).faults.unwrittenRead = true ↔ s.faults.unwrittenRead = true ∨ ¬operandsWritten i s := by
  rw [afterReads_faults, ← operandsMarked_iff]
  simp

theorem afterReads_nlog (i : Instr) (s : State) : (afterReads i s).nlog = s.nlog := by
  obtain ⟨n, heq⟩ := afterReads_eq i s
  rw [heq]

/-- Settles O38: the reads record UNWRITTEN_READ, and of the outcomes only a success under NONCE adds to the
log, or a reuse. -/
theorem faultsRecord : Obligations.FaultsRecord := by
  intro i s t hw hr h
  rcases exec_next_cases h with ⟨v, e, hok, -, rfl, ⟨-, hv⟩ | rfl⟩ | ⟨-, -, u, f, out, heff, rfl⟩
  · exact absurd ⟨hw, hr⟩ hv
  · have herr := errorField_fail_ne_zero (afterReads i s) hok
    refine ⟨afterReads_unwrittenRead i s, ?_, fun p => ?_⟩
    · rw [or_iff_left fun h0 => herr h0.1, State.fail_faults, afterReads_faults]
    · rw [or_iff_left fun h0 => herr h0.1, State.fail_nlog, afterReads_nlog]
  · show (u.faults.unwrittenRead = true ↔ _) ∧ (u.faults.nonceReuse = true ↔ _) ∧ ∀ p, p ∈ u.nlog ↔ _
    rcases heff.nonce_cases with ⟨hnone, -, hlog, hfaults⟩ | ⟨k, hsome, -, hlog, hfaults⟩
    · rw [hfaults, hlog]
      refine ⟨afterReads_unwrittenRead i s, ?_, fun p => ?_⟩ <;> simp [afterReads_faults, hnone]
    · rw [hfaults, hlog]
      refine ⟨afterReads_unwrittenRead i s, ?_, fun p => ?_⟩
      · simp [errorField_ok, hsome]
      · simp [errorField_ok, hsome, or_comm]

end Sys2Proof.Machine

/-!
PROOFS. The errors of the operand range and of the working key (10_state.md R39, R46), the command a write to CMD
runs (R32), and the registers (R31, R36).
-/

namespace Sys2Proof.Machine

/-! ### The errors of the operand and key checks -/

/-- Settles O25: an operand that is read and too long takes the command out of range. -/
theorem inputRangeError : Obligations.InputRangeError := by
  intro i s hw hlong
  refine raises_of_exec (exec_range i s hw fun hr => ?_)
  rcases hlong with ⟨hne, hlong⟩ | ⟨hreads, hlong⟩
  · cases hreads : readsOf i with
    | nothing => exact hne hreads
    | inOnly =>
      rw [inRange, hreads] at hr
      exact absurd hr (Nat.not_le_of_lt hlong)
    | inAndAd =>
      rw [inRange, hreads] at hr
      exact absurd hr.1 (Nat.not_le_of_lt hlong)
  · rw [inRange, hreads] at hr
    exact absurd hr.2 (Nat.not_le_of_lt hlong)

/-- Settles O2: the cases of R46, with the constant of R45 for KEY_UDP. -/
theorem workingKeySelection : Obligations.WorkingKeySelection := by
  intro s
  refine ⟨?_, ?_, rfl⟩
  · cases hv : s.keyValid <;> simp [workingKey, hv]
  · cases hn : s.negotiated <;> cases hv : s.keyValid <;> simp [workingKey, hn, hv]

/-- While no local key is loaded there is none for LOCAL, nor for SESSION without a session (10_state.md R46). -/
theorem workingKey_unset {s : State} {ksel : Ksel} (hv : s.keyValid = false)
    (hk : ksel = .localKey ∨ ksel = .sessionKey ∧ s.negotiated = false) : workingKey s ksel = .error .keyUnset := by
  rcases hk with rfl | ⟨rfl, hn⟩
  · simp [workingKey, hv]
  · simp [workingKey, hv, hn]

/-- A rule whose first part raises, raises that. -/
theorem error_bind {α β : Type} (e : ErrCode) (f : α → Except ErrCode β) : (Except.error e >>= f) = .error e := rfl

/-- A rule whose first part answers goes on with the answer. -/
theorem ok_bind {α β : Type} (a : α) (f : α → Except ErrCode β) : (Except.ok a >>= f) = f a := rfl

/-- A command whose rule raises an error on IN. -/
theorem commandIn_error {i : Instr} {s : State} {body : Bytes → State → Except ErrCode Done} {e : ErrCode}
    (hw : i.wellFormed = true) (hr : s.ibufLen.toNat ≤ s.cap) (h : body s.inBytes s.afterIn = .error e) :
    commandIn i s body = .next (s.afterIn.fail e) := by
  rw [commandIn_run hw hr, h, State.finish_error]

/-- A command whose rule raises an error on IN and AD. -/
theorem commandInAd_error {i : Instr} {s : State} {body : Bytes → Bytes → State → Except ErrCode Done} {e : ErrCode}
    (hw : i.wellFormed = true) (hr : s.ibufLen.toNat ≤ s.cap ∧ s.abufLen.toNat ≤ s.cap)
    (h : body s.inBytes s.afterIn.adBytes s.afterIn.afterAd = .error e) :
    commandInAd i s body = .next (s.afterIn.afterAd.fail e) := by
  rw [commandInAd_run hw hr, h, State.finish_error]

/-- A rule that starts with a working key there is none of. -/
theorem key_bind_unset {s : State} {ksel : Ksel} (h : workingKey s ksel = .error .keyUnset)
    (g : Bytes → Except ErrCode Done) : (workingKey s.afterIn ksel >>= g) = .error .keyUnset := by
  rw [workingKey_afterIn, h, error_bind]

theorem key_bind_unset_inAd {s : State} {ksel : Ksel} (h : workingKey s ksel = .error .keyUnset)
    (g : Bytes → Except ErrCode Done) : (workingKey s.afterIn.afterAd ksel >>= g) = .error .keyUnset := by
  rw [workingKey_afterAd, key_bind_unset h]

theorem trailer_bind_unset {s : State} {ksel : Ksel} (h : workingKey s ksel = .error .keyUnset)
    (g : Trailer → Except ErrCode Done) : (trailerOperand s.afterIn ksel .hmac >>= g) = .error .keyUnset := by
  rw [trailerOperand_afterIn, trailerOperand, h, error_bind, error_bind]

/-- The derivations check for the local key first (40_control.md R144, R145). -/
theorem derive_unset {s : State} (hv : s.keyValid = false) (inp : Bytes) (d : Bytes → Bytes → Bytes) :
    deriveSession inp s.afterIn d = .error .keyUnset := by
  have hnot : ¬s.afterIn.keyValid = true := by simp [hv]
  rw [deriveSession, require_of_not hnot, error_bind]

/-- What a pipeline command does past its configuration checks (45_message_pipeline.md R350, R353). -/
theorem pipeline_unset {s : State} (hc : configured s) (h : workingKey s .sessionKey = .error .keyUnset)
    (g : PipeVersion → Bytes → Except ErrCode Done) :
    (do
      let v ← pipeOperand s.afterIn
      keyLengthCheck s.afterIn
      let k ← workingKey s.afterIn .sessionKey
      g v k) = .error .keyUnset := by
  obtain ⟨hsome, hlen⟩ := hc
  obtain ⟨v, hv⟩ := Option.isSome_iff_exists.1 hsome
  have hv' : pipeOperand s.afterIn = .ok v := pipeOperand_ok.2 hv
  have hl' : keyLengthCheck s.afterIn = .ok () := require_of hlen
  rw [hv', ok_bind, hl', ok_bind, key_bind_unset h]

/-- Settles O27, command by command: the key is the first thing each rule asks for, past the configuration
checks of the pipeline. -/
theorem keyUnsetError : Obligations.KeyUnsetError := by
  intro i s ksel hw hr hc hkey hv hsel
  have hwk := workingKey_unset hv hsel
  refine raises_of_exec ?_
  cases i with
  | kdf34 | kdf35 =>
    unfold exec
    exact commandIn_error hw hr (derive_unset hv _ _)
  | aesEncBlock k | aesDecBlock k | ecbEnc k | ecbDec k | hmacSha256 k | pack66 k | unpack66 k =>
    cases hkey
    unfold exec
    exact commandIn_error hw hr (key_bind_unset hwk _)
  | gcmEnc k | gcmDec k | hmacVerify k =>
    cases hkey
    unfold exec
    exact commandInAd_error hw hr (key_bind_unset_inAd hwk _)
  | pack55 k hm | unpack55 k hm =>
    cases hm with
    | crc => cases hkey
    | hmac =>
      cases hkey
      unfold exec
      exact commandIn_error hw hr (trailer_bind_unset hwk _)
  | msgEncode | msgDecode =>
    cases hkey
    unfold exec
    exact commandIn_error hw hr (pipeline_unset (hc rfl) hwk _)
  | nop | keyLoad | nonceLoad | sessionReset | pkcs7Pad | pkcs7Unpad | crc32 | frameScan => cases hkey

/-! ### Writes to CMD -/

/-- A write to CMD of a word that decodes fetches the command, with CMD written (10_state.md R32). -/
theorem nextAction_command {s : State} {w : Word} {i : Instr} {rest : List Access} (hd : decode w = .ok i)
    (h : s.inputs = .regWrite 0x00 w :: rest) : nextAction s = .command i { s with inputs := rest, cmd := w } := by
  simp only [nextAction, h, Access.commandWord_eq_some.2 rfl, hd]
  rfl

theorem step_command {s : State} {w : Word} {i : Instr} {rest : List Access} (hd : decode w = .ok i)
    (h : s.inputs = .regWrite 0x00 w :: rest) : step s = exec i { s with inputs := rest, cmd := w } := by
  simp only [step, nextAction_command hd h]

/-- A write to CMD of an illegal word ends with ERR_ILLEGAL_CMD (30_encoding.md R97). -/
theorem step_illegal {s : State} {w : Word} {r : DecodeRefusal} {rest : List Access} (hd : decode w = .error r)
    (h : s.inputs = .regWrite 0x00 w :: rest) :
    step s = .next (({ s with inputs := rest, cmd := w } : State).fail .illegalCmd) := by
  simp only [step, nextAction, h, Access.commandWord_eq_some.2 rfl, hd]
  rfl

/-- The access `withFetchWord` places for a word is the write of that word to CMD. -/
theorem commandAccess_word (w : Word) : commandAccess 32 w.toNat = .regWrite 0x00 w := by
  rw [commandAccess, Nat.mod_eq_of_lt w.isLt, BitVec.ofNat_toNat, BitVec.setWidth_eq]

/-- Settles O40: a pending write to CMD runs its command, and `withFetchWord` puts one in front. -/
theorem stepRunsDecodedCommand : Obligations.StepRunsDecodedCommand := by
  intro s w i hd
  refine ⟨fun rest h => step_command hd h, ?_⟩
  have hfront : (s.withFetchWord 32 w.toNat).inputs = .regWrite 0x00 w :: s.inputs := by
    rw [State.withFetchWord, commandAccess_word]
  exact step_command hd hfront

/-! ### Registers -/

/-- The registers the host may write (10_state.md R31). -/
theorem hostWritable_iff {n : BitVec 8} :
    hostWritable n = true ↔ n = 0x02 ∨ n = 0x03 ∨ n = 0x04 ∨ n = 0x05 ∨ n = 0x0D ∨ n = 0x0E := by
  simp [hostWritable]

/-- A write to a register of the other kinds is ignored (10_state.md R31). -/
theorem regWrite_of_not_writable (s : State) {n : BitVec 8} (v : Word) (h0 : n ≠ 0x00) (hn : hostWritable n = false) :
    regWrite s n v = s := by
  have hne : ¬(n = 0x02 ∨ n = 0x03 ∨ n = 0x04 ∨ n = 0x05 ∨ n = 0x0D ∨ n = 0x0E) := by
    rw [← hostWritable_iff, hn]
    exact Bool.false_ne_true
  simp only [← BitVec.toNat_inj, BitVec.reduceToNat, ne_eq] at h0 hne
  unfold regWrite
  split
  on_goal 8 => rfl
  all_goals omega

/-- A register write leaves every other register (10_state.md R31). -/
theorem regRead_regWrite_ne (s : State) {n m : BitVec 8} (v : Word) (h : m ≠ n) :
    regRead (regWrite s n v) m = regRead s m := by
  have hne : m.toNat ≠ n.toNat := mt BitVec.eq_of_toNat_eq h
  unfold regWrite
  split <;> unfold regRead <;> split
  any_goals rfl
  all_goals omega

/-- The low byte of a word, as VERSION stores it (10_state.md R36). -/
theorem setWidth_low_byte (v : Word) : (v.setWidth 8).setWidth 32 = v &&& 0xFF := by
  apply BitVec.eq_of_toNat_eq
  have hmask : v.toNat &&& 255 = v.toNat % 256 := Nat.and_two_pow_sub_one_eq_mod v.toNat 8
  simp only [BitVec.toNat_setWidth, BitVec.toNat_and, BitVec.reduceToNat, hmask]
  omega

/-- A register of the host reads back what was written (10_state.md R31, R36). -/
theorem regRead_regWrite_same (s : State) {n : BitVec 8} (v : Word) (hn : hostWritable n = true) :
    regRead (regWrite s n v) n = if n = 0x02 then v &&& 0xFF else v := by
  rcases hostWritable_iff.1 hn with rfl | rfl | rfl | rfl | rfl | rfl
  · exact setWidth_low_byte v
  all_goals rfl

/-- CFG tells the two suffix parameters in its bits 0 and 1 (10_state.md R31). -/
theorem cfgWord_eq (p : Params) :
    cfgWord p = (if p.suffix55Counted then 1 else 0) + (if p.suffix66Counted then 2 else 0) := by
  unfold cfgWord
  cases p.suffix55Counted <;> cases p.suffix66Counted <;> decide

/-- Registers 0x14 to 0xFF do not exist and read 0 (10_state.md R31). -/
theorem regRead_reserved (s : State) {m : BitVec 8} (h : 0x14 ≤ m.toNat) : regRead s m = 0 := by
  unfold regRead
  split
  on_goal 21 => rfl
  all_goals omega

/-- A pending write to a register other than CMD is performed by the step (20_memory.md R71). -/
theorem step_regWrite {s : State} {n : BitVec 8} {v : Word} {rest : List Access} (h0 : n ≠ 0x00)
    (h : s.inputs = .regWrite n v :: rest) : step s = .next (regWrite { s with inputs := rest } n v) :=
  step_served h (if_neg h0)

/-- Settles O49: the step, the fields of the writes, the fields of the reads, the constants, and what reads
back. -/
theorem registerAccess : Obligations.RegisterAccess := by
  intro s n m v
  refine ⟨fun h0 rest h => step_regWrite h0 h, ⟨rfl, rfl, rfl, rfl, rfl, rfl, regWrite_of_not_writable s v⟩,
    ⟨rfl, rfl, rfl, rfl, rfl, rfl, rfl, rfl, rfl, rfl, rfl, rfl, rfl, rfl, rfl, rfl⟩,
    ⟨rfl, cfgWord_eq s.params, rfl, rfl, regRead_reserved s⟩, fun h0 => ?_⟩
  by_cases hm : m = n
  · subst hm
    cases hw : hostWritable m with
    | false => simp [regWrite_of_not_writable s v h0 hw]
    | true => simp [regRead_regWrite_same s v hw]
  · rw [if_neg fun h => hm h.1, regRead_regWrite_ne s v hm]

end Sys2Proof.Machine

/-!
PROOFS. Key material stays inside (10_state.md R41, R42; 60_exceptions.md R420): two runs from states that differ
in it alone, side by side.
-/

namespace Sys2Proof.Machine

/-! ### Two runs side by side -/

/-- A state with other key material: KEY_LOCAL, KEY_SESSION, NLOG and NONCE_REUSE replaced. -/
def State.rekey (s : State) (kl ks : Bytes) (nl : List (Bytes × Bytes)) (nr : Bool) : State :=
  { s with keyLocal := kl, keySession := ks, nlog := nl, faults := { s.faults with nonceReuse := nr } }

theorem State.sameButKeys_rekey (s : State) {kl ks : Bytes} {nl : List (Bytes × Bytes)} {nr : Bool} :
    SameButKeys s (s.rekey kl ks nl nr) := rfl

theorem sameButKeys_iff {s s' : State} : SameButKeys s s' ↔ ∃ kl ks nl nr, s' = s.rekey kl ks nl nr := by
  constructor
  · exact fun h => ⟨_, _, _, _, h⟩
  · rintro ⟨kl, ks, nl, nr, rfl⟩
    rfl

/-- Two rules that answer alike: the same error, or the same flags and states that differ in key material
alone. -/
inductive Twins : Except ErrCode Done → Except ErrCode Done → Prop
  | error (e : ErrCode) : Twins (.error e) (.error e)
  | ok {u u' : State} (f : ResultFlags) (h : SameButKeys u u') :
    Twins (.ok { state := u, flags := f }) (.ok { state := u', flags := f })

/-- Two rules that start alike. -/
theorem Twins.bind {α : Type} {x x' : Except ErrCode α} {g g' : α → Except ErrCode Done} (hx : x = x')
    (h : ∀ a, Twins (g a) (g' a)) : Twins (x >>= g) (x' >>= g') := by
  subst hx
  cases x with
  | error e => exact .error e
  | ok a => exact h a

/-- Two commands that answer next states which differ in key material alone. -/
def TwinResults (r r' : Result) : Prop := ∃ t t', r = .next t ∧ r' = .next t' ∧ SameButKeys t t'

section
variable {s s' : State}

theorem SameButKeys.setStatus (h : SameButKeys s s') (e : ErrCode) (f : ResultFlags) :
    SameButKeys (s.setStatus e f) (s'.setStatus e f) := by
  obtain ⟨kl, ks, nl, nr, rfl⟩ := sameButKeys_iff.1 h
  rfl

theorem SameButKeys.emit (h : SameButKeys s s') (v : Bytes) : SameButKeys (s.emit v) (s'.emit v) := by
  obtain ⟨kl, ks, nl, nr, rfl⟩ := sameButKeys_iff.1 h
  rfl

theorem SameButKeys.setCrc (h : SameButKeys s s') {v : Word} :
    SameButKeys { s with rCrc := v } { s' with rCrc := v } := by
  obtain ⟨kl, ks, nl, nr, rfl⟩ := sameButKeys_iff.1 h
  rfl

theorem SameButKeys.fail (h : SameButKeys s s') (e : ErrCode) : SameButKeys (s.fail e) (s'.fail e) :=
  (h.emit []).setStatus e {}

theorem SameButKeys.noteRead (h : SameButKeys s s') (b : Buffer) (n : Nat) :
    SameButKeys (s.noteRead b n) (s'.noteRead b n) := by
  obtain ⟨kl, ks, nl, nr, rfl⟩ := sameButKeys_iff.1 h
  rfl

theorem SameButKeys.useNonce (h : SameButKeys s s') (k k' : Bytes) :
    SameButKeys (s.useNonce k) (s'.useNonce k') := by
  obtain ⟨kl, ks, nl, nr, rfl⟩ := sameButKeys_iff.1 h
  rfl

theorem SameButKeys.packed (h : SameButKeys s s') (f : Bytes × Nat) : SameButKeys (s.packed f) (s'.packed f) := by
  obtain ⟨kl, ks, nl, nr, rfl⟩ := sameButKeys_iff.1 h
  rfl

theorem SameButKeys.unpacked (h : SameButKeys s s') (f : Parsed) (v : Bytes) :
    SameButKeys (s.unpacked f v) (s'.unpacked f v) := by
  obtain ⟨kl, ks, nl, nr, rfl⟩ := sameButKeys_iff.1 h
  rfl

theorem SameButKeys.negotiate (h : SameButKeys s s') (k k' : Bytes) :
    SameButKeys (s.negotiate k) (s'.negotiate k') := by
  obtain ⟨kl, ks, nl, nr, rfl⟩ := sameButKeys_iff.1 h
  rfl

/-- The end of a command. -/
theorem SameButKeys.finish (h : SameButKeys s s') {r r' : Except ErrCode Done} (hr : Twins r r') :
    SameButKeys (s.finish r) (s'.finish r') := by
  cases hr with
  | error e => exact h.fail e
  | ok f hu => exact hu.setStatus .ok f

end

/-- What both states share and the shared part of every command looks at. -/
theorem SameButKeys.operands {s s' : State} (h : SameButKeys s s') :
    s'.cap = s.cap ∧ s'.ibufLen = s.ibufLen ∧ s'.abufLen = s.abufLen ∧ s'.inBytes = s.inBytes ∧
      s'.adBytes = s.adBytes := by
  obtain ⟨kl, ks, nl, nr, rfl⟩ := sameButKeys_iff.1 h
  exact ⟨rfl, rfl, rfl, rfl, rfl⟩

theorem SameButKeys.afterIn {s s' : State} (h : SameButKeys s s') : SameButKeys s.afterIn s'.afterIn := by
  obtain ⟨-, hi, -⟩ := h.operands
  rw [State.afterIn, State.afterIn, hi]
  exact h.noteRead .ibuf _

theorem SameButKeys.afterAd {s s' : State} (h : SameButKeys s s') : SameButKeys s.afterAd s'.afterAd := by
  obtain ⟨-, -, ha, -⟩ := h.operands
  rw [State.afterAd, State.afterAd, ha]
  exact h.noteRead .abuf _

/-! ### The commands -/

theorem command_twins {s s' : State} (h : SameButKeys s s') {i : Instr} {body : State → Except ErrCode Done}
    (hb : ∀ u kl ks nl nr, Twins (body u) (body (u.rekey kl ks nl nr))) :
    TwinResults (command i s body) (command i s' body) := by
  cases hw : i.wellFormed with
  | false => exact ⟨_, _, command_illegal hw, command_illegal hw, h.fail _⟩
  | true =>
    refine ⟨_, _, command_run hw, command_run hw, h.finish ?_⟩
    obtain ⟨kl, ks, nl, nr, rfl⟩ := sameButKeys_iff.1 h
    exact hb s kl ks nl nr

theorem commandIn_twins {s s' : State} (h : SameButKeys s s') {i : Instr}
    {body : Bytes → State → Except ErrCode Done}
    (hb : ∀ inp u kl ks nl nr, Twins (body inp u) (body inp (u.rekey kl ks nl nr))) :
    TwinResults (commandIn i s body) (commandIn i s' body) := by
  obtain ⟨hcap, hi, -, hin, -⟩ := h.operands
  cases hw : i.wellFormed with
  | false => exact ⟨_, _, commandIn_illegal hw, commandIn_illegal hw, h.fail _⟩
  | true =>
    by_cases hr : s.ibufLen.toNat ≤ s.cap
    · refine ⟨_, _, commandIn_run hw hr, commandIn_run hw (by rwa [hi, hcap]), h.afterIn.finish ?_⟩
      obtain ⟨kl, ks, nl, nr, hu⟩ := sameButKeys_iff.1 h.afterIn
      rw [hin, hu]
      exact hb s.inBytes s.afterIn kl ks nl nr
    · have hr := Nat.lt_of_not_le hr
      exact ⟨_, _, commandIn_range hw hr, commandIn_range hw (by rwa [hi, hcap]), h.fail _⟩

theorem commandInAd_twins {s s' : State} (h : SameButKeys s s') {i : Instr}
    {body : Bytes → Bytes → State → Except ErrCode Done}
    (hb : ∀ inp ad u kl ks nl nr, Twins (body inp ad u) (body inp ad (u.rekey kl ks nl nr))) :
    TwinResults (commandInAd i s body) (commandInAd i s' body) := by
  obtain ⟨hcap, hi, ha, hin, -⟩ := h.operands
  obtain ⟨-, -, -, -, had⟩ := h.afterIn.operands
  cases hw : i.wellFormed with
  | false => exact ⟨_, _, commandInAd_illegal hw, commandInAd_illegal hw, h.fail _⟩
  | true =>
    by_cases hr : s.ibufLen.toNat ≤ s.cap ∧ s.abufLen.toNat ≤ s.cap
    · refine ⟨_, _, commandInAd_run hw hr, commandInAd_run hw (by rwa [hi, ha, hcap]), h.afterIn.afterAd.finish ?_⟩
      obtain ⟨kl, ks, nl, nr, hu⟩ := sameButKeys_iff.1 h.afterIn.afterAd
      rw [hin, had, hu]
      exact hb s.inBytes s.afterIn.adBytes s.afterIn.afterAd kl ks nl nr
    · have hr : s.cap < s.ibufLen.toNat ∨ s.cap < s.abufLen.toNat := by omega
      exact ⟨_, _, commandInAd_range hw hr, commandInAd_range hw (by rwa [hi, ha, hcap]), h.fail _⟩

/-- A trailer that takes no key, or the constant one, does not depend on key material (10_state.md R45). -/
theorem trailerOperand_rekey (u : State) {kl ks : Bytes} {nl : List (Bytes × Bytes)} {nr : Bool} {k : Ksel}
    {hm : TrailerKind} (hk : hm = .hmac → k = .udpKey) :
    trailerOperand u k hm = trailerOperand (u.rekey kl ks nl nr) k hm := by
  cases hm with
  | crc => rfl
  | hmac =>
    rw [hk rfl]
    rfl

/-- Every command that keeps keys inside, by the number of its rule's parts: each part asks nothing of the key
state but what both states share (KEY_UDP is a constant), and the writes differ in key material alone. -/
theorem exec_twins {s s' : State} (h : SameButKeys s s') {i : Instr} (hi : keepsKeysInside i = true) :
    TwinResults (exec i s) (exec i s') := by
  have hudp : ∀ {k : Ksel}, (k == Ksel.udpKey) = true → k = .udpKey := eq_of_beq
  cases i with
  | nop =>
    unfold exec
    exact command_twins h fun u kl ks nl nr => .ok _ (u.sameButKeys_rekey.emit [])
  | sessionReset =>
    unfold exec
    exact command_twins h fun u kl ks nl nr => .ok _ rfl
  | keyLoad =>
    unfold exec
    exact commandIn_twins h fun inp u kl ks nl nr => .ok _ rfl
  | crc32 =>
    unfold exec
    exact commandIn_twins h fun inp u kl ks nl nr => .ok _ (u.sameButKeys_rekey.setCrc.emit _)
  | nonceLoad | frameScan =>
    unfold exec
    exact commandIn_twins h fun inp u kl ks nl nr => .bind rfl fun _ => .ok _ rfl
  | kdf34 | kdf35 =>
    unfold exec
    refine commandIn_twins h fun inp u kl ks nl nr => ?_
    unfold deriveSession
    exact .bind rfl fun _ => .bind rfl fun _ => .ok _ (u.sameButKeys_rekey.negotiate _ _)
  | pkcs7Pad | pkcs7Unpad =>
    unfold exec
    exact commandIn_twins h fun inp u kl ks nl nr => .bind rfl fun _ => .ok _ (u.sameButKeys_rekey.emit _)
  | hmacSha256 k =>
    cases hudp hi
    unfold exec
    exact commandIn_twins h fun inp u kl ks nl nr => .bind rfl fun _ => .ok _ (u.sameButKeys_rekey.emit _)
  | aesEncBlock k | aesDecBlock k | ecbEnc k | ecbDec k =>
    cases hudp hi
    unfold exec
    exact commandIn_twins h fun inp u kl ks nl nr =>
      .bind rfl fun _ => .bind rfl fun _ => .ok _ (u.sameButKeys_rekey.emit _)
  | unpack66 k =>
    cases hudp hi
    unfold exec
    exact commandIn_twins h fun inp u kl ks nl nr =>
      .bind rfl fun _ => .bind rfl fun f => .ok _ (u.sameButKeys_rekey.unpacked f f.payload)
  | pack66 k =>
    cases hudp hi
    unfold exec
    exact commandIn_twins h fun inp u kl ks nl nr =>
      .bind rfl fun k => .bind rfl fun _ => .bind rfl fun _ => .ok _ ((u.sameButKeys_rekey.packed _).useNonce k k)
  | gcmEnc k =>
    cases hudp hi
    unfold exec
    exact commandInAd_twins h fun inp ad u kl ks nl nr =>
      .bind rfl fun k => .bind rfl fun _ => .bind rfl fun _ => .ok _ ((u.sameButKeys_rekey.emit _).useNonce k k)
  | gcmDec k =>
    cases hudp hi
    unfold exec
    exact commandInAd_twins h fun inp ad u kl ks nl nr =>
      .bind rfl fun _ => .bind rfl fun _ => .bind rfl fun p => .ok _ (u.sameButKeys_rekey.emit p)
  | hmacVerify k =>
    cases hudp hi
    unfold exec
    exact commandInAd_twins h fun inp ad u kl ks nl nr =>
      .bind rfl fun _ => .bind rfl fun _ => .bind rfl fun _ => .ok _ (u.sameButKeys_rekey.emit [])
  | pack55 k hm =>
    have hk : hm = .hmac → k = .udpKey := by
      rintro rfl
      exact hudp hi
    unfold exec
    exact commandIn_twins h fun inp u kl ks nl nr =>
      .bind (trailerOperand_rekey u hk) fun _ => .bind rfl fun _ => .ok _ (u.sameButKeys_rekey.packed _)
  | unpack55 k hm =>
    have hk : hm = .hmac → k = .udpKey := by
      rintro rfl
      exact hudp hi
    unfold exec
    exact commandIn_twins h fun inp u kl ks nl nr =>
      .bind (trailerOperand_rekey u hk) fun _ => .bind rfl fun f => .ok _ (u.sameButKeys_rekey.unpacked f f.payload)
  | msgEncode | msgDecode => cases hi

/-! ### The host's accesses and the step -/

theorem SameButKeys.regWrite {s s' : State} (h : SameButKeys s s') (n : BitVec 8) (v : Word) :
    SameButKeys (regWrite s n v) (regWrite s' n v) := by
  obtain ⟨kl, ks, nl, nr, rfl⟩ := sameButKeys_iff.1 h
  unfold Machine.regWrite
  split <;> rfl

theorem SameButKeys.bufWrite {s s' : State} (h : SameButKeys s s') (a : Word) (v : Byte) :
    SameButKeys (bufWrite s a v) (bufWrite s' a v) := by
  obtain ⟨kl, ks, nl, nr, rfl⟩ := sameButKeys_iff.1 h
  by_cases ha : inOperands s.cap a.toNat
  · rw [bufWrite_operand v ha, bufWrite_operand v (show inOperands (s.rekey kl ks nl nr).cap a.toNat from ha)]
    rfl
  · rwa [bufWrite_elsewhere v ha, bufWrite_elsewhere v (show ¬inOperands (s.rekey kl ks nl nr).cap a.toNat from ha)]

theorem SameButKeys.reply {s s' : State} (h : SameButKeys s s') (r : Reply) : SameButKeys (s.reply r) (s'.reply r) := by
  obtain ⟨kl, ks, nl, nr, rfl⟩ := sameButKeys_iff.1 h
  rfl

/-- A host access does the same with both states and reads the same from both. -/
theorem SameButKeys.serve {s s' : State} (h : SameButKeys s s') (a : Access) :
    SameButKeys (serve s a) (serve s' a) := by
  cases a with
  | regRead n =>
    obtain ⟨kl, ks, nl, nr, rfl⟩ := sameButKeys_iff.1 h
    exact h.reply _
  | regWrite n v => exact h.regWrite n v
  | bufRead a =>
    obtain ⟨kl, ks, nl, nr, rfl⟩ := sameButKeys_iff.1 h
    rfl
  | bufWrite a v => exact h.bufWrite a v
  | reset =>
    obtain ⟨kl, ks, nl, nr, rfl⟩ := sameButKeys_iff.1 h
    rfl

/-- Settles O48, by what a step can do with two such states. -/
theorem keysStayInside : Obligations.KeysStayInside := by
  intro s s' t h hin hstep
  obtain ⟨kl, ks, nl, nr, rfl⟩ := sameButKeys_iff.1 h
  have hrun : ∀ w rest,
      SameButKeys { s with inputs := rest, cmd := w } { s.rekey kl ks nl nr with inputs := rest, cmd := w } :=
    fun _ _ => rfl
  rcases step_cases s with ⟨hi, hs⟩ | ⟨a, rest, hi, hc, hs⟩ | ⟨w, rest, hi, ⟨i, hd, hs⟩ | ⟨e, hd, hs⟩⟩
  · rw [hs] at hstep
    cases hstep
    exact ⟨_, step_idle hi, h⟩
  · rw [hs] at hstep
    cases hstep
    have hrest : SameButKeys { s with inputs := rest } { s.rekey kl ks nl nr with inputs := rest } := rfl
    exact ⟨_, step_served hi hc, hrest.serve a⟩
  · obtain ⟨u, u', hu, hu', hsame⟩ := exec_twins (hrun w rest) (hin i _ (nextAction_command hd hi))
    rw [hs, hu] at hstep
    cases hstep
    exact ⟨u', (step_command (s := s.rekey kl ks nl nr) hd hi).trans hu', hsame⟩
  · rw [hs] at hstep
    cases hstep
    exact ⟨_, step_illegal hd hi, (hrun w rest).fail .illegalCmd⟩

end Sys2Proof.Machine

/-!
PROOFS. The host's accesses to the buffer space (20_memory.md R70 to R79): what writes and reads do, the order in
which they take effect, and the duties that keep FAULTS empty (R83).
-/

namespace Sys2Proof.Machine

/-! ### Later accesses -/

/-- More accesses pending behind those of the state (20_memory.md R79). -/
def State.enqueue (s : State) (later : List Access) : State := { s with inputs := s.inputs ++ later }

/-- A rule's answer with the later accesses in the state it has staged. -/
def Done.enqueue (d : Done) (later : List Access) : Done := { d with state := d.state.enqueue later }

theorem State.finish_enqueue (s : State) (later : List Access) (r : Except ErrCode Done) :
    (s.enqueue later).finish ((·.enqueue later) <$> r) = (s.finish r).enqueue later := by
  cases r <;> rfl

section
variable {i : Instr} {s t : State} {later : List Access}

/-- A command passes the later accesses on if its rule does: neither its checks nor its end looks at what is
pending (20_memory.md R76). -/
theorem command_enqueue {body : State → Except ErrCode Done} (h : command i s body = .next t)
    (hb : ∀ u, body (u.enqueue later) = (·.enqueue later) <$> body u) :
    command i (s.enqueue later) body = .next (t.enqueue later) := by
  cases hw : i.wellFormed with
  | false =>
    rw [command_illegal hw] at h ⊢
    cases h
    rfl
  | true =>
    rw [command_run hw] at h ⊢
    cases h
    rw [hb, State.finish_enqueue]

theorem commandIn_enqueue {body : Bytes → State → Except ErrCode Done} (h : commandIn i s body = .next t)
    (hb : ∀ inp u, body inp (u.enqueue later) = (·.enqueue later) <$> body inp u) :
    commandIn i (s.enqueue later) body = .next (t.enqueue later) := by
  cases hw : i.wellFormed with
  | false =>
    rw [commandIn_illegal hw] at h ⊢
    cases h
    rfl
  | true =>
    by_cases hr : s.ibufLen.toNat ≤ s.cap
    · rw [commandIn_run hw hr] at h
      cases h
      rw [commandIn_run (s := s.enqueue later) hw hr, ← State.finish_enqueue, ← hb]
      rfl
    · have hr := Nat.lt_of_not_le hr
      rw [commandIn_range hw hr] at h
      cases h
      exact commandIn_range (s := s.enqueue later) hw hr

theorem commandInAd_enqueue {body : Bytes → Bytes → State → Except ErrCode Done}
    (h : commandInAd i s body = .next t)
    (hb : ∀ inp ad u, body inp ad (u.enqueue later) = (·.enqueue later) <$> body inp ad u) :
    commandInAd i (s.enqueue later) body = .next (t.enqueue later) := by
  cases hw : i.wellFormed with
  | false =>
    rw [commandInAd_illegal hw] at h ⊢
    cases h
    rfl
  | true =>
    by_cases hr : s.ibufLen.toNat ≤ s.cap ∧ s.abufLen.toNat ≤ s.cap
    · rw [commandInAd_run hw hr] at h
      cases h
      rw [commandInAd_run (s := s.enqueue later) hw hr, ← State.finish_enqueue, ← hb]
      rfl
    · have hr : s.cap < s.ibufLen.toNat ∨ s.cap < s.abufLen.toNat := by omega
      rw [commandInAd_range hw hr] at h
      cases h
      exact commandInAd_range (s := s.enqueue later) hw hr

end

/-- A rule whose first part does not depend on the pending accesses, and whose rest passes the later ones on. -/
theorem bind_enqueue {α : Type} {later : List Access} {x x' : Except ErrCode α} {g g' : α → Except ErrCode Done}
    (hx : x' = x) (h : ∀ a, g' a = (·.enqueue later) <$> g a) :
    (x' >>= g') = (·.enqueue later) <$> (x >>= g) := by
  rw [hx, map_bind, funext h]

/-- A rule that ends, passing the later accesses on in the state it stages. -/
theorem ok_enqueue {later : List Access} {u u' : State} (h : u' = u.enqueue later) (f : ResultFlags) :
    (.ok { state := u', flags := f } : Except ErrCode Done) =
      (Done.enqueue · later) <$> .ok { state := u, flags := f } := by
  rw [h]
  rfl

section
variable (s : State) (later : List Access)

theorem emitted_enqueue (v : Bytes) : emitted (s.enqueue later) v = (·.enqueue later) <$> emitted s v := rfl

theorem State.packed_enqueue (f : Bytes × Nat) : (s.enqueue later).packed f = (s.packed f).enqueue later := rfl

theorem State.unpacked_enqueue (f : Parsed) (out : Bytes) :
    (s.enqueue later).unpacked f out = (s.unpacked f out).enqueue later := rfl

theorem State.emit_useNonce_enqueue (v k : Bytes) :
    ((s.enqueue later).emit v).useNonce k = ((s.emit v).useNonce k).enqueue later := rfl

theorem State.packed_useNonce_enqueue (f : Bytes × Nat) (k : Bytes) :
    ((s.enqueue later).packed f).useNonce k = ((s.packed f).useNonce k).enqueue later := rfl

theorem deriveSession_enqueue (inp : Bytes) (derive : Bytes → Bytes → Bytes) :
    deriveSession inp (s.enqueue later) derive = (·.enqueue later) <$> deriveSession inp s derive :=
  bind_enqueue rfl fun _ => bind_enqueue rfl fun _ => rfl

end

/-- No rule depends on the pending accesses: none of its parts looks at them, and its writes leave them. -/
theorem exec_enqueue {i : Instr} {s t : State} (later : List Access) (h : exec i s = .next t) :
    exec i (s.enqueue later) = .next (t.enqueue later) := by
  cases i with
  | nop | sessionReset =>
    unfold exec at h ⊢
    exact command_enqueue h fun u => rfl
  | keyLoad | crc32 =>
    unfold exec at h ⊢
    exact commandIn_enqueue h fun inp u => rfl
  | nonceLoad | frameScan =>
    unfold exec at h ⊢
    exact commandIn_enqueue h fun inp u => bind_enqueue rfl fun _ => rfl
  | kdf34 | kdf35 =>
    unfold exec at h ⊢
    exact commandIn_enqueue h fun inp u => deriveSession_enqueue ..
  | pkcs7Pad | pkcs7Unpad | hmacSha256 =>
    unfold exec at h ⊢
    exact commandIn_enqueue h fun inp u => bind_enqueue rfl fun _ => emitted_enqueue ..
  | aesEncBlock | aesDecBlock | ecbEnc | ecbDec =>
    unfold exec at h ⊢
    exact commandIn_enqueue h fun inp u => bind_enqueue rfl fun _ => bind_enqueue rfl fun _ => emitted_enqueue ..
  | pack55 =>
    unfold exec at h ⊢
    exact commandIn_enqueue h fun inp u =>
      bind_enqueue rfl fun _ => bind_enqueue rfl fun _ => ok_enqueue (State.packed_enqueue ..) _
  | unpack55 | unpack66 =>
    unfold exec at h ⊢
    exact commandIn_enqueue h fun inp u =>
      bind_enqueue rfl fun _ => bind_enqueue rfl fun _ => ok_enqueue (State.unpacked_enqueue ..) _
  | pack66 =>
    unfold exec at h ⊢
    exact commandIn_enqueue h fun inp u => bind_enqueue rfl fun _ => bind_enqueue rfl fun _ =>
      bind_enqueue rfl fun _ => ok_enqueue (State.packed_useNonce_enqueue ..) _
  | gcmEnc =>
    unfold exec at h ⊢
    exact commandInAd_enqueue h fun inp ad u => bind_enqueue rfl fun _ => bind_enqueue rfl fun _ =>
      bind_enqueue rfl fun _ => ok_enqueue (State.emit_useNonce_enqueue ..) _
  | gcmDec =>
    unfold exec at h ⊢
    exact commandInAd_enqueue h fun inp ad u => bind_enqueue rfl fun _ => bind_enqueue rfl fun _ =>
      bind_enqueue rfl fun _ => emitted_enqueue ..
  | hmacVerify =>
    unfold exec at h ⊢
    exact commandInAd_enqueue h fun inp ad u => bind_enqueue rfl fun _ => bind_enqueue rfl fun _ =>
      bind_enqueue rfl fun _ => rfl
  | msgDecode =>
    unfold exec at h ⊢
    exact commandIn_enqueue h fun inp u => bind_enqueue rfl fun _ => bind_enqueue rfl fun _ =>
      bind_enqueue rfl fun _ => bind_enqueue rfl fun _ => ok_enqueue (State.unpacked_enqueue ..) _
  | msgEncode =>
    unfold exec at h ⊢
    refine commandIn_enqueue h fun inp u => bind_enqueue rfl fun v => bind_enqueue rfl fun _ =>
      bind_enqueue rfl fun _ => bind_enqueue rfl fun _ => bind_enqueue rfl fun _ => ?_
    cases v with
    | v33 | v34 => exact ok_enqueue (State.packed_enqueue ..) _
    | v35 => exact ok_enqueue (State.packed_useNonce_enqueue ..) _

/-- An access that starts no command leaves the ones behind it pending, and does the same whatever they are. -/
theorem serve_enqueue (s : State) (a : Access) (later : List Access) :
    serve (s.enqueue later) a = (serve s a).enqueue later := by
  cases a with
  | regRead | bufRead | reset => rfl
  | regWrite n v =>
    show regWrite (s.enqueue later) n v = (regWrite s n v).enqueue later
    unfold regWrite
    split <;> rfl
  | bufWrite a v =>
    show bufWrite (s.enqueue later) a v = (bufWrite s a v).enqueue later
    by_cases ha : inOperands s.cap a.toNat
    · rw [bufWrite_operand v ha, bufWrite_operand (s := s.enqueue later) v ha]
      rfl
    · rw [bufWrite_elsewhere v ha, bufWrite_elsewhere (s := s.enqueue later) v ha]

/-- Settles O53, by what the next access is: one that starts no command, a command, or an illegal word. -/
theorem laterAccessesWait : Obligations.LaterAccessesWait := by
  intro s t later hne hstep
  show step (s.enqueue later) = .next (t.enqueue later)
  have hinputs : ∀ {a rest}, s.inputs = a :: rest → (s.enqueue later).inputs = a :: (rest ++ later) := fun hi => by
    rw [State.enqueue, hi, List.cons_append]
  rcases step_cases s with ⟨hi, -⟩ | ⟨a, rest, hi, hc, hs⟩ | ⟨w, rest, hi, ⟨i, hd, hs⟩ | ⟨e, hd, hs⟩⟩
  · exact absurd hi hne
  · rw [hs] at hstep
    cases hstep
    rw [step_served (hinputs hi) hc, ← serve_enqueue]
    rfl
  · rw [hs] at hstep
    rw [step_command hd (hinputs hi)]
    exact exec_enqueue later hstep
  · rw [hs] at hstep
    cases hstep
    exact step_illegal hd (hinputs hi)

/-! ### Buffer accesses -/

/-- A host write into IBUF or ABUF is what every later read of memory finds (20_memory.md R71). -/
theorem read_bufWrite {s : State} {a : Word} (v : Byte) (ha : inOperands s.cap a.toNat) (b : Nat) :
    (bufWrite s a v).mem.read b = if b = a.toNat then some v else s.mem.read b := by
  rw [bufWrite_operand v ha]
  exact Memory.read_write ..

/-- It marks the byte written and no other (10_state.md R51). -/
theorem written_bufWrite {s : State} {a : Word} (v : Byte) (ha : inOperands s.cap a.toNat) (buf : Buffer) (i : Nat) :
    (bufWrite s a v).written buf i = (s.written buf i || decide (buf.base + i = a.toNat)) := by
  unfold State.written
  rw [read_bufWrite v ha]
  by_cases h : buf.base + i = a.toNat <;> simp [h]

/-- A host read of a byte that holds a specified value gives it, in each of the three buffers (R71, R73). -/
theorem bufRead_of_read {s : State} {a : Word} {v : Byte}
    (ha : inOperands s.cap a.toNat ∨ inOutput s.cap a.toNat) (hv : s.mem.read a.toNat = some v) : bufRead s a = v := by
  by_cases hi : inOperands s.cap a.toNat
  · rw [bufRead_operand hi, operandByte, hv, Option.getD_some]
  · rw [bufRead_output hi (ha.resolve_left hi), outputByte, hv, Option.getD_some]

/-- What a host write to IBUF or ABUF writes, a host read there gives back (R71). -/
theorem bufRead_bufWrite_same {s : State} {a : Word} (v : Byte) (ha : inOperands s.cap a.toNat) :
    bufRead (bufWrite s a v) a = v := by
  have hcap : (bufWrite s a v).cap = s.cap := by rw [bufWrite_operand v ha]; rfl
  refine bufRead_of_read (.inl (hcap ▸ ha)) ?_
  rw [read_bufWrite v ha, if_pos rfl]

/-- Settles O50: the step, a write into IBUF or ABUF, a write elsewhere, and the reads. -/
theorem bufferAccess : Obligations.BufferAccess := by
  intro s a b v
  refine ⟨fun rest hi => step_served hi rfl, fun ha => ⟨bufRead_bufWrite_same v ha, ?_, fun hb => ?_,
    written_bufWrite v ha⟩, bufWrite_elsewhere v, bufRead_of_read, bufRead_outside⟩
  · rw [bufWrite_operand v ha]
  · rw [read_bufWrite v ha, if_neg (mt BitVec.eq_of_toNat_eq hb)]

/-! ### Reads -/

/-- A host read changes the pending accesses, the replies and the draws only. -/
def AfterRead (s t : State) : Prop :=
  t = { s with inputs := t.inputs, replies := t.replies, draws := t.draws }

/-- After a host read every register reads as before (20_memory.md R77). -/
theorem AfterRead.regRead {s t : State} (h : AfterRead s t) (m : BitVec 8) : regRead t m = regRead s m := by
  rw [h]
  rfl

/-- So does every byte but an OBUF byte that holds no specified value (R73, R77). -/
theorem AfterRead.bufRead {s t : State} (h : AfterRead s t) {b : Word}
    (hb : inOperands s.cap b.toNat ∨ ¬inOutput s.cap b.toNat ∨ (s.mem.read b.toNat).isSome = true) :
    bufRead t b = bufRead s b := by
  rw [h]
  exact bufRead_congr rfl rfl rfl hb

/-- Settles O51: each kind of read by the step that serves it, and what any read leaves. -/
theorem readsHaveNoSideEffect : Obligations.ReadsHaveNoSideEffect := by
  intro s rest
  refine ⟨step_idle, fun n hi => step_served hi rfl,
    fun a hi => ⟨bufReadDraws s a, step_served hi rfl, bufReadDraws_eq⟩, fun x t hx hi hstep => ?_⟩
  have hread : AfterRead s t := by
    rcases hx with ⟨n, rfl⟩ | ⟨a, rfl⟩
    all_goals
      rw [step_served hi rfl] at hstep
      cases hstep
      rfl
  exact ⟨hread.regRead, fun b => hread.bufRead⟩

/-! ### The duties of the host -/

theorem afterReads_clean {i : Instr} {s : State} (hs : Clean s) (hw : operandsWritten i s) :
    Clean (afterReads i s) := by
  rw [Clean, afterReads_faults, hs, (operandsMarked_iff i s).2 hw]
  rfl

/-- A success under a nonce that is fresh for its key reuses none (10_state.md R50). -/
theorem Effect.clean {i : Instr} {s u : State} {f : ResultFlags} {out : Bytes} (h : Effect i s u f out)
    (hs : Clean s) (hw : operandsWritten i s) (hn : nonceFresh i s) : Clean u := by
  have hreads := afterReads_clean hs hw
  rcases h.nonce_cases with ⟨-, -, -, hfaults⟩ | ⟨k, hk, -, -, hfaults⟩
  · exact hfaults.trans hreads
  · rw [Clean, hfaults, hreads, hs, List.contains_eq_mem, decide_eq_false (hn k hk)]
    rfl

/-- Settles O39: an error records nothing but what the reads do, a success no more than its nonce. -/
theorem hostDutiesKeepFaultsEmpty : Obligations.HostDutiesKeepFaultsEmpty := by
  intro i s t hs hw hn h
  rcases exec_next_cases h with ⟨v, e, -, -, rfl, ⟨rfl, -⟩ | rfl⟩ | ⟨-, -, u, f, out, heff, rfl⟩
  · exact hs
  · exact afterReads_clean hs hw
  · exact heff.clean hs hw hn

end Sys2Proof.Machine

/-!
PROOFS. The command word (30_encoding.md R90 to R99): the decoder, the encoder and the opcode table agree, and an
illegal word ends its command.
-/

namespace Sys2Proof

/-! ### Words by their fields -/

/-- Two words with the same fields are the same (30_encoding.md R90). -/
theorem word_ext_iff {w v : Word} :
    w = v ↔ opField w = opField v ∧ kselBits w = kselBits v ∧ vfyField w = vfyField v ∧ hmBit w = hmBit v ∧
      rcBits w = rcBits v ∧ nxField w = nxField v ∧ reservedBits w = reservedBits v := by
  refine ⟨by rintro rfl; simp, fun ⟨hop, hksel, hvfy, hhm, hrc, hnx, hres⟩ => ?_⟩
  rw [word_fields w, word_fields v, hop, hksel, hvfy, hhm, hrc, hnx, hres]

/-- The bits of a field of a word under a mask, given by the bits it clears. -/
theorem extract_masked (w m : Word) {start len : Nat} (h : start + len ≤ 32) :
    (w &&& ~~~m).extractLsb' start len = w.extractLsb' start len &&& ~~~m.extractLsb' start len := by
  ext i hi
  simp [show start + i < 32 by omega]

/-- The fields of a word under a mask, given by the bits it clears (R98). -/
theorem masked_fields (w m : Word) :
    opField (w &&& ~~~m) = opField w &&& ~~~opField m ∧ kselBits (w &&& ~~~m) = kselBits w &&& ~~~kselBits m ∧
      vfyField (w &&& ~~~m) = (vfyField w && !vfyField m) ∧ hmBit (w &&& ~~~m) = (hmBit w && !hmBit m) ∧
      rcBits (w &&& ~~~m) = rcBits w &&& ~~~rcBits m ∧ nxField (w &&& ~~~m) = (nxField w && !nxField m) ∧
      reservedBits (w &&& ~~~m) = reservedBits w &&& ~~~reservedBits m := by
  refine ⟨extract_masked w m (by decide), extract_masked w m (by decide), ?_, ?_, extract_masked w m (by decide), ?_,
    extract_masked w m (by decide)⟩ <;>
    simp [vfyField, hmBit, nxField]

/-- The fields of `w` that a command takes, every other field zero (R91). -/
def Takes.keep (tk : Takes) (w : Word) : Word :=
  commandWord (opField w) (if tk.ksel then kselBits w else 0) (tk.vfy && vfyField w) (tk.hm && hmBit w)
    (if tk.rc then rcBits w else 0) (tk.nx && nxField w)

/-- The bits of the fields a command takes. -/
def Takes.free (tk : Takes) : Word :=
  commandWord 0 (if tk.ksel then 3 else 0) tk.vfy tk.hm (if tk.rc then 3 else 0) tk.nx

/-- A word holds nothing but what the command takes: its reserved bits and its other fields are zero (R97). -/
theorem Takes.keep_eq_self_iff {tk : Takes} {w : Word} :
    tk.keep w = w ↔ reservedBits w = 0 ∧ (tk.ksel = false → kselBits w = 0) ∧ (tk.vfy = false → vfyField w = false) ∧
      (tk.hm = false → hmBit w = false) ∧ (tk.rc = false → rcBits w = 0) ∧ (tk.nx = false → nxField w = false) := by
  have hbits : ∀ (b : Bool) (x : BitVec 2), (if b then x else 0) = x ↔ (b = false → x = 0) := by decide
  have hbit : ∀ b x : Bool, (b && x) = x ↔ (b = false → x = false) := by decide
  simp only [word_ext_iff, Takes.keep, commandWord_fields, hbits, hbit, true_and]
  tauto

/-- A word that matches an OP outside the fields a command takes holds that OP and nothing but what it takes. -/
theorem Takes.keep_of_masked {tk : Takes} {w : Word} {op : BitVec 8} (h : w &&& ~~~tk.free = commandWord op) :
    opField w = op ∧ tk.keep w = w := by
  have hclear : ∀ {n : Nat} (x : BitVec n), x &&& ~~~0 = x := by simp
  simp only [word_ext_iff, masked_fields, Takes.free, commandWord_fields, hclear] at h
  obtain ⟨hop, hksel, hvfy, hhm, hrc, hnx, hres⟩ := h
  refine ⟨hop, Takes.keep_eq_self_iff.2 ⟨hres, fun ht => ?_, fun ht => ?_, fun ht => ?_, fun ht => ?_, fun ht => ?_⟩⟩
  · rwa [ht, if_neg Bool.false_ne_true, hclear] at hksel
  · rwa [ht, Bool.not_false, Bool.and_true] at hvfy
  · rwa [ht, Bool.not_false, Bool.and_true] at hhm
  · rwa [ht, if_neg Bool.false_ne_true, hclear] at hrc
  · rwa [ht, Bool.not_false, Bool.and_true] at hnx

/-! ### The opcode map and the encoder -/

theorem Ksel.kselOf_bits (k : Ksel) : kselOf k.bits = k := by cases k <;> rfl
theorem TrailerKind.hmOf_bit (t : TrailerKind) : hmOf t.bit = t := by cases t <;> rfl
theorem RcMode.rcOf_bits (m : RcMode) : rcOf m.bits = m := by cases m <;> rfl

/-- The opcode map reads the word of a command, legal or not, as that command (R91). -/
theorem opcodeRow_encode (i : Instr) : ∃ tk, opcodeRow (encode i) = some (tk, i) := by
  cases i <;>
    simp [encode, opcodeRow, commandWord_fields, Ksel.kselOf_bits, TrailerKind.hmOf_bit, RcMode.rcOf_bits]

/-- The word of the command a row of the opcode map gives: what the row takes, and zero elsewhere (R90, R91). -/
theorem encode_of_opcodeRow {w : Word} {tk : Takes} {i : Instr} (hrow : opcodeRow w = some (tk, i)) :
    encode i = tk.keep w := by
  have hop : opField w = BitVec.ofNat 8 (opField w).toNat := by simp
  unfold opcodeRow at hrow
  dsimp only at hrow
  split at hrow <;> cases hrow
  all_goals
    rw [‹(opField w).toNat = _›] at hop
    simp [encode, Takes.keep, hop]

/-- The KSEL and RC bits a legal command's row takes are not 11 (R97). -/
theorem opcodeRow_fields_of_wellFormed {w : Word} {tk : Takes} {i : Instr} (hrow : opcodeRow w = some (tk, i))
    (hw : i.wellFormed = true) : (tk.ksel = true → kselBits w ≠ 3) ∧ (tk.rc = true → rcBits w ≠ 3) := by
  unfold opcodeRow at hrow
  dsimp only at hrow
  split at hrow <;> cases hrow <;>
    simp_all [Instr.wellFormed, Ksel.legal_kselOf, RcMode.legal_rcOf]

/-- A word decodes to the command of its row of the opcode map if that command is legal and the word holds nothing but
what the row takes (R97). -/
theorem decode_of_opcodeRow {w : Word} {tk : Takes} {i : Instr} (hrow : opcodeRow w = some (tk, i))
    (hw : i.wellFormed = true) (hkeep : tk.keep w = w) : decode w = .ok i := by
  obtain ⟨hres, hksel, hvfy, hhm, hrc, hnx⟩ := Takes.keep_eq_self_iff.1 hkeep
  obtain ⟨hksel3, hrc3⟩ := opcodeRow_fields_of_wellFormed hrow hw
  simp only [decode, hrow]
  rw [if_neg (by simpa using hres), if_neg fun h => h.2 (hksel h.1), if_neg fun h => absurd (hvfy h.1) (by simp [h.2]),
    if_neg fun h => absurd (hhm h.1) (by simp [h.2]), if_neg fun h => h.2 (hrc h.1),
    if_neg fun h => absurd (hnx h.1) (by simp [h.2]), if_neg fun h => hksel3 h.1 h.2, if_neg fun h => hrc3 h.1 h.2]

/-- A word decodes to a command exactly if the command is legal and the word is its word (R90, R91, R97). -/
theorem decode_eq_ok_iff {w : Word} {i : Instr} : decode w = .ok i ↔ i.wellFormed = true ∧ encode i = w := by
  constructor
  · intro h
    obtain ⟨tk, hrow, hres, hksel, hvfy, hhm, hrc, hnx, -, -⟩ := decode_ok h
    exact ⟨Machine.decode_wellFormed h,
      (encode_of_opcodeRow hrow).trans (Takes.keep_eq_self_iff.2 ⟨hres, hksel, hvfy, hhm, hrc, hnx⟩)⟩
  · rintro ⟨hw, rfl⟩
    obtain ⟨tk, hrow⟩ := opcodeRow_encode i
    exact decode_of_opcodeRow hrow hw (encode_of_opcodeRow hrow).symm

/-- Settles O43: both directions are `decode_eq_ok_iff`. -/
theorem decodeEncodeAgree : Obligations.DecodeEncodeAgree :=
  ⟨fun _ hw => decode_eq_ok_iff.2 ⟨hw, rfl⟩, fun _ _ => decode_eq_ok_iff.1⟩

/-! ### The opcode table -/

/-- A row of the opcode table clears the fields its command takes and holds the OP alone (R98). -/
theorem opcodeTable_rows : ∀ e ∈ opcodeTable,
    e.mask = ~~~(Machine.takesOf e).free ∧ e.matchBits = commandWord (opField e.matchBits) := by
  decide

/-- No two rows of the opcode table have the same OP (R98). -/
theorem opcodeTable_ops_nodup : (opcodeTable.map fun e => opField e.matchBits).Nodup := by decide

/-- The opcode map has a row for the OP of each row of the opcode table, which takes the fields that one leaves free. -/
theorem opcodeRow_of_mem {e : OpcodeEntry} (he : e ∈ opcodeTable) {w : Word} (hop : opField w = opField e.matchBits) :
    ∃ i, opcodeRow w = some (Machine.takesOf e, i) := by
  unfold opcodeTable at he
  unfold opcodeRow
  rw [hop]
  fin_cases he <;> exact ⟨_, rfl⟩

/-- A word that matches a row of the opcode table holds the row's OP and nothing but what its command takes (R98). -/
theorem fields_of_match {e : OpcodeEntry} (he : e ∈ opcodeTable) {w : Word} (hm : w &&& e.mask = e.matchBits) :
    opField w = opField e.matchBits ∧ (Machine.takesOf e).keep w = w := by
  obtain ⟨hmask, hmatch⟩ := opcodeTable_rows e he
  rw [hmask, hmatch] at hm
  exact Takes.keep_of_masked hm

/-- `EncodedRow`, for every command at once. -/
theorem Laws.EncodedRow.all : ∀ i : Instr, EncodedRow.Statement i
  | .nop => EncodedRow.nop
  | .keyLoad => EncodedRow.keyLoad
  | .nonceLoad => EncodedRow.nonceLoad
  | .sessionReset => EncodedRow.sessionReset
  | .kdf34 => EncodedRow.kdf34
  | .kdf35 => EncodedRow.kdf35
  | .aesEncBlock a => EncodedRow.aesEncBlock a
  | .aesDecBlock a => EncodedRow.aesDecBlock a
  | .pkcs7Pad => EncodedRow.pkcs7Pad
  | .pkcs7Unpad a => EncodedRow.pkcs7Unpad a
  | .ecbEnc a => EncodedRow.ecbEnc a
  | .ecbDec a b => EncodedRow.ecbDec a b
  | .gcmEnc a b => EncodedRow.gcmEnc a b
  | .gcmDec a b => EncodedRow.gcmDec a b
  | .crc32 => EncodedRow.crc32
  | .hmacSha256 a => EncodedRow.hmacSha256 a
  | .hmacVerify a => EncodedRow.hmacVerify a
  | .frameScan => EncodedRow.frameScan
  | .pack55 a b c => EncodedRow.pack55 a b c
  | .unpack55 a b c => EncodedRow.unpack55 a b c
  | .pack66 a b => EncodedRow.pack66 a b
  | .unpack66 a b => EncodedRow.unpack66 a b
  | .msgEncode => EncodedRow.msgEncode
  | .msgDecode a b => EncodedRow.msgDecode a b

/-- The word of every command matches a row of the opcode table (R98). -/
theorem exists_mem_match_encode (i : Instr) : ∃ e ∈ opcodeTable, encode i &&& e.mask = e.matchBits := by
  obtain ⟨e, hget, -, hmatch, -⟩ := Laws.EncodedRow.all i
  exact ⟨e, List.mem_of_getElem? hget, hmatch⟩

/-- A word that matches a row of the opcode table is legal exactly if the row's free KSEL and RC are not 11 (R98). -/
theorem decodes_iff_of_match {e : OpcodeEntry} (he : e ∈ opcodeTable) {w : Word} (hm : w &&& e.mask = e.matchBits) :
    (∃ i, decode w = .ok i) ↔
      ¬(kselBits e.mask = 0 ∧ kselBits w = 3) ∧ ¬(rcBits e.mask = 0 ∧ rcBits w = 3) := by
  obtain ⟨hop, hkeep⟩ := fields_of_match he hm
  obtain ⟨i, hrow⟩ := opcodeRow_of_mem he hop
  have hksel : (Machine.takesOf e).ksel = true ↔ kselBits e.mask = 0 := by simp [Machine.takesOf]
  have hrc : (Machine.takesOf e).rc = true ↔ rcBits e.mask = 0 := by simp [Machine.takesOf]
  rw [not_and, not_and, ← hksel, ← hrc]
  constructor
  · rintro ⟨j, hj⟩
    obtain ⟨tk, hrow', -, -, -, -, -, -, hksel3, hrc3⟩ := decode_ok hj
    cases hrow.symm.trans hrow'
    exact ⟨hksel3, hrc3⟩
  · rintro ⟨hksel3, hrc3⟩
    exact ⟨i, decode_of_opcodeRow hrow (Machine.opcodeRow_wellFormed hrow hksel3 hrc3) hkeep⟩

/-- Settles O44: what the word of a row holds decides its legality, its OP the row, and a legal word is the word of a
command, which has its row. -/
theorem legalityIsTheTable : Obligations.LegalityIsTheTable := by
  refine ⟨fun e he w => decodes_iff_of_match he, fun e he e' he' w hm hm' => ?_, fun w i hd => ?_⟩
  · have hop := (fields_of_match he hm).1.symm.trans (fields_of_match he' hm').1
    exact List.inj_on_of_nodup_map opcodeTable_ops_nodup he he' hop
  · obtain ⟨-, rfl⟩ := decode_eq_ok_iff.1 hd
    exact exists_mem_match_encode i

/-! ### Words written out, and illegal words -/

/-- Settles O42: five words are the words of legal commands, and five break one rule each. -/
theorem wordsDecode : Obligations.WordsDecode := by
  have legal : ∀ {w : Word} {i : Instr}, i.wellFormed = true → encode i = w → decode w = .ok i :=
    fun hw he => decode_eq_ok_iff.2 ⟨hw, he⟩
  refine ⟨legal rfl ?_, legal rfl ?_, legal rfl ?_, legal rfl ?_, legal rfl ?_, ?_, ?_, ?_, ?_, ?_⟩ <;> decide

/-- Settles O41: an illegal word is refused for some reason, and whichever it is the step is the same failure. -/
theorem illegalWordEnds : Obligations.IllegalWordEnds := by
  intro s w rest hi hillegal
  cases hd : decode w with
  | ok i => exact absurd hd (hillegal i)
  | error r => exact ⟨_, Machine.step_illegal hd hi, Machine.State.endsWith_fail _ _⟩

end Sys2Proof

/-!
PROOFS. The control, key and nonce commands (spec/40_control.md R140 to R145): each completes with its effect, of
which the key KEY_LOAD stores and the session keys of the two derivations are the spec's by the lemmas below.
-/

namespace Sys2Proof.Machine

/-- An effect without output needs no room in OBUF to complete its command. -/
theorem completes_of_effect_nil {i : Instr} {s u : State} {f : ResultFlags} (h : Effect i s u f [])
    (hw : i.wellFormed = true) (hr : inRange i s) : Completes i s u f [] :=
  completes_of_effect h hw hr (Nat.zero_le _)

/-- Settles O3: neither command reads an operand, so both complete from every state. -/
theorem nopAndSessionResetComplete : Obligations.NopAndSessionResetComplete := fun s =>
  ⟨completes_of_effect_nil (.nop s) rfl trivial, completes_of_effect_nil (.sessionReset s) rfl trivial⟩

/-! ### Loads -/

/-- Zero bytes appended and the whole cut to `n`: a string padded where it is short, truncated where it is long
(40_control.md R141). -/
theorem take_append_zeros (b : Bytes) (n : Nat) :
    (b ++ zeros n).take n = b.take n ++ List.replicate (n - b.length) 0 := by
  rw [List.take_append, zeros, List.take_replicate, Nat.min_eq_left (Nat.sub_le ..)]

/-- Settles O4: KEY_LOCAL is IN padded or truncated, and the length of IN is IBUF_LEN. -/
theorem keyLoadCompletes : Obligations.KeyLoadCompletes := by
  intro s hr
  have hkey : (s.inBytes ++ zeros 16).take 16 =
      s.inBytes.take 16 ++ List.replicate (16 - s.ibufLen.toNat) 0 := by
    rw [take_append_zeros, State.length_inBytes]
  have hlen : BitVec.ofNat 32 s.inBytes.length = s.ibufLen := by
    rw [State.length_inBytes, BitVec.ofNat_toNat, BitVec.setWidth_eq]
  have heff := Effect.keyLoad s
  rw [hkey, hlen] at heff
  exact completes_of_effect_nil heff rfl hr

/-- Settles O5: IBUF_LEN = 12 is the length NONCE_LOAD asks for. -/
theorem nonceLoadCompletes : Obligations.NonceLoadCompletes := by
  intro s hlen hr
  have h12 : s.inBytes.length = 12 := by rw [State.length_inBytes, hlen]; rfl
  exact completes_of_effect_nil (.nonceLoad s h12) rfl hr

/-! ### Derivations -/

/-- A string of two blocks, taken apart by slices (40_control.md R144, R145). -/
theorem slices_of_two_blocks {b cn dn : Bytes} (hb : b = cn ++ dn) (hcn : cn.length = 16) (hdn : dn.length = 16) :
    slice b 0 16 = cn ∧ slice b 16 32 = dn := by
  subst hb
  refine ⟨slice_prefix hcn.symm, ?_⟩
  rw [slice_append_right (Nat.le_of_eq hcn), hcn]
  simpa [hdn] using slice_self dn

/-- The ciphertext of one block is the block under the first keystream block (40_control.md R145's corner case;
42_gcm.md R224). -/
theorem gcmAE_fst_block {k iv p : Bytes} (hiv : iv.length = 12) (hp : p.length = 16) (a : Bytes) :
    (gcmAE k iv p a).1 = xorBytes p (aesEnc k (iv ++ [0, 0, 0, 2])) := by
  rw [gcmAE, gctr_block hp, inc32_gcmJ0 hiv]

/-- Settles O6: IN is the two nonces of a block each, and GCM on their exclusive or, one block, is R145's keystream
form. -/
theorem derivationsComplete : Obligations.DerivationsComplete := by
  intro s cn dn hkey hlen hr hin hcn
  have h32 : s.inBytes.length = 32 := by rw [State.length_inBytes, hlen]; rfl
  have hdn : dn.length = 16 := by
    rw [hin, List.length_append, hcn] at h32
    omega
  obtain ⟨hfst, hsnd⟩ := slices_of_two_blocks hin hcn hdn
  have h34 := Effect.kdf34 s hkey h32
  have h35 := Effect.kdf35 s hkey h32
  rw [hfst, hsnd] at h34 h35
  rw [gcmAE_fst_block (by simp [hcn]) (by simp [hcn, hdn])] at h35
  exact ⟨completes_of_effect_nil h34 rfl hr, completes_of_effect_nil h35 rfl hr⟩

end Sys2Proof.Machine

/-!
PROOFS. AES, PKCS#7 and ECB (spec/41_aes_ecb.md R176 to R182, R190 to R195): decryption undoes encryption round by
round and then block by block, and each command completes or fails as its algorithm answers.
-/

namespace Sys2Proof.Machine

/-! ### AES decryption undoes encryption -/

theorem encRounds_cons {s rk : Bytes} {rest : List Bytes} (h : rest ≠ []) :
    encRounds s (rk :: rest) = encRounds (xorBytes (mixColumns (shiftRows (subBytes s))) rk) rest := by
  cases rest with
  | nil => exact absurd rfl h
  | cons rk' rest => rfl

/-- A decryption round undoes SubBytes and ShiftRows, and adds its round key (R177). -/
theorem decRound_shiftRows_subBytes {s : Bytes} (h : s.length = 16) (rk : Bytes) :
    decRound (shiftRows (subBytes s)) rk = xorBytes s rk := by
  rw [decRound, invShiftRows_shiftRows (by simpa using h), invSubBytes_subBytes]

/-- Decryption begins with the last round key. -/
theorem aesDec_eq {k rk10 : Bytes} {rest : List Bytes} (h : (k :: roundKeys k).reverse = rk10 :: rest) (b : Bytes) :
    aesDec k b = decRounds (xorBytes b rk10) rest := by
  unfold aesDec
  rw [h]

/-- Decryption takes back the rounds of an encryption, the last one first, down to the SubBytes and ShiftRows of its
first round; those wait for the round keys of `tail`, of which AES has one more, the key itself. -/
theorem decRounds_encRounds {s rkn : Bytes} {rks tail rest : List Bytes} (hs : s.length = 16) (hne : rks ≠ [])
    (hk : ∀ rk ∈ rks, rk.length = 16) (ht : tail ≠ []) (hrev : rks.reverse ++ tail = rkn :: rest) :
    decRounds (xorBytes (encRounds s rks) rkn) rest = decRounds (shiftRows (subBytes s)) tail := by
  induction rks generalizing s tail with
  | nil => exact absurd rfl hne
  | cons rk rks ih =>
    have hrk : rk.length = 16 := hk rk List.mem_cons_self
    by_cases hlast : rks = []
    · subst hlast
      obtain ⟨rfl, rfl⟩ : rk = rkn ∧ tail = rest := List.cons.inj hrev
      rw [encRounds, xorBytes_cancel (by simp [hs, hrk])]
    · have hmid : (xorBytes (mixColumns (shiftRows (subBytes s))) rk).length = 16 := by simp [hs, hrk]
      have hrev' : rks.reverse ++ rk :: tail = rkn :: rest := by simpa using hrev
      rw [encRounds_cons hlast,
        ih hmid hlast (fun x hx => hk x (List.mem_cons_of_mem _ hx)) (List.cons_ne_nil _ _) hrev',
        decRounds_cons ht, decRound_shiftRows_subBytes hmid, xorBytes_cancel (by simp [hs, hrk]),
        invMixColumns_mixColumns]

/-- R177: decryption gives back every block. -/
theorem aesDec_aesEnc {k b : Bytes} (hk : k.length = 16) (hb : b.length = 16) : aesDec k (aesEnc k b) = b := by
  have hne : roundKeys k ≠ [] := List.ne_nil_of_length_eq_add_one (length_roundKeys k)
  have hfirst : (xorBytes b k).length = 16 := by simp [hb, hk]
  obtain ⟨rk10, rest, hrev⟩ : ∃ rk10 rest, (roundKeys k).reverse ++ [k] = rk10 :: rest :=
    List.exists_cons_of_ne_nil (by simp)
  calc aesDec k (aesEnc k b)
      = decRounds (xorBytes (encRounds (xorBytes b k) (roundKeys k)) rk10) rest :=
        aesDec_eq (by rwa [List.reverse_cons]) _
    _ = decRound (shiftRows (subBytes (xorBytes b k))) k :=
        decRounds_encRounds hfirst hne (length_of_mem_roundKeys hk) (List.cons_ne_nil _ _) hrev
    _ = xorBytes (xorBytes b k) k := decRound_shiftRows_subBytes hfirst k
    _ = b := xorBytes_cancel (by rw [hb, hk])

/-- Settles O54, by the round-by-round inversion above. -/
theorem aesDecryptsItsEncryption : Obligations.AesDecryptsItsEncryption :=
  fun _ _ hk hb => ⟨length_aesEnc hk hb, aesDec_aesEnc hk hb⟩

/-! ### Padding -/

/-- The padding is never empty, so its byte is the last one (R178). -/
theorem getLast?_pad (m : Bytes) : (pad m).getLast? = some (BitVec.ofNat 8 (16 - m.length % 16)) := by
  have hne : 16 - m.length % 16 ≠ 0 := by omega
  simp [pad, rep, List.getLast?_append, List.getLast?_replicate, hne]

/-- Settles O55: the padded length counts whole blocks, and the number of padding bytes is 1 to 16. -/
theorem paddingLaw : Obligations.PaddingLaw := by
  intro m
  refine ⟨_, rfl, by omega, by omega, rfl, ?_, getLast?_pad m⟩
  rw [length_pad, Nat.mul_mod_right]

/-- Unpadding undoes padding, verified or not (R178, R179). -/
theorem unpad_pad (m : Bytes) (vfy : Bool) : unpad (pad m) vfy = .ok m := by
  have hp : (BitVec.ofNat 8 (16 - m.length % 16)).toNat = 16 - m.length % 16 := by
    rw [BitVec.toNat_ofNat, Nat.mod_eq_of_lt (by omega)]
  have hne : 16 - m.length % 16 ≠ 0 := by omega
  refine unpad_append (by rw [length_rep, hp]) (by omega) (by omega) ?_ fun _ b hb => List.eq_of_mem_replicate hb
  rw [rep, List.getLast?_replicate, if_neg hne]

/-- Unpadding refuses a last byte that counts no padding that is there (R179). -/
theorem unpad_refuses_count {d : Bytes} {p : Byte} {vfy : Bool} (h : d.getLast? = some p)
    (hb : p = 0 ∨ 16 < p.toNat ∨ d.length < p.toNat) : unpad d vfy = .error .badPadding :=
  unpad_refuses h (hb.imp_right (Or.imp_right .inl))

/-- With verification it refuses a counted byte that differs from the last one (R179). -/
theorem unpad_refuses_tail {d m tail : Bytes} {p b : Byte} (hd : d = m ++ tail) (hl : tail.length = p.toNat)
    (hlast : tail.getLast? = some p) (hb : b ∈ tail) (hne : b ≠ p) : unpad d true = .error .badPadding := by
  have hdlast : d.getLast? = some p := by simp [hd, List.getLast?_append, hlast]
  exact unpad_refuses hdlast (.inr (.inr (.inr ⟨rfl, m, tail, b, hd, hl, hb, hne⟩)))

/-! ### ECB, block by block -/

/-- Whole pieces put together fall apart into the same pieces. -/
theorem chunks_flatten {size : Nat} (hs : 0 < size) {l : List Bytes} (h : ∀ c ∈ l, c.length = size) :
    chunks size l.flatten = l := by
  induction l with
  | nil => exact chunks_nil size hs
  | cons c l ih =>
    rw [List.flatten_cons, chunks_append hs (h c List.mem_cons_self),
      ih fun x hx => h x (List.mem_cons_of_mem _ hx)]

/-- Decrypting the encryptions of blocks, one by one, gives the blocks. -/
theorem flatMap_aesDec_map_aesEnc {k : Bytes} (hk : k.length = 16) {l : List Bytes} (h : ∀ b ∈ l, b.length = 16) :
    (l.map (aesEnc k)).flatMap (aesDec k) = l.flatten := by
  induction l with
  | nil => rfl
  | cons b l ih =>
    rw [List.map_cons, List.flatMap_cons, List.flatten_cons, aesDec_aesEnc hk (h b List.mem_cons_self),
      ih fun x hx => h x (List.mem_cons_of_mem _ hx)]

/-- The blockwise decryption of a ciphertext is the padded message (R180, R181). -/
theorem flatMap_aesDec_ecbEnc {k : Bytes} (hk : k.length = 16) (m : Bytes) :
    (chunks 16 (ecbEnc k m)).flatMap (aesDec k) = pad m := by
  have hblocks : ∀ b ∈ chunks 16 (pad m), b.length = 16 :=
    length_of_mem_chunks (by decide) (by rw [length_pad]; exact Nat.dvd_mul_right ..)
  have hcipher : ∀ c ∈ (chunks 16 (pad m)).map (aesEnc k), c.length = 16 := by
    intro c hc
    obtain ⟨b, hb, rfl⟩ := List.mem_map.1 hc
    exact length_aesEnc hk (hblocks b hb)
  have hflat : ecbEnc k m = ((chunks 16 (pad m)).map (aesEnc k)).flatten := List.flatMap_def ..
  rw [hflat, chunks_flatten (by decide) hcipher, flatMap_aesDec_map_aesEnc hk hblocks, flatten_chunks (by decide)]

/-- ECB decryption refuses the empty string (R181). -/
theorem ecbDec_of_length_zero {c : Bytes} (h : c.length = 0) (k : Bytes) (vfy : Bool) :
    ecbDec k c vfy = .error .badPadding := if_pos h

/-- ECB decryption refuses a string that is no number of blocks (R181). -/
theorem ecbDec_of_not_blocks {c : Bytes} (h : c.length % 16 ≠ 0) (k : Bytes) (vfy : Bool) :
    ecbDec k c vfy = .error .operandLen := by
  have h0 : c.length ≠ 0 := fun h0 => h (by rw [h0])
  rw [ecbDec, if_neg h0, if_pos h]

/-- ECB decryption of one or more blocks unpads their decryptions (R181). -/
theorem ecbDec_of_blocks {c : Bytes} (h0 : c.length ≠ 0) (h : c.length % 16 = 0) (k : Bytes) (vfy : Bool) :
    ecbDec k c vfy = unpad ((chunks 16 c).flatMap (aesDec k)) vfy := by
  rw [ecbDec, if_neg h0, if_neg (not_not_intro h)]

/-- R182: ECB decryption gives back every message. -/
theorem ecbDec_ecbEnc {k : Bytes} (hk : k.length = 16) (m : Bytes) (vfy : Bool) :
    ecbDec k (ecbEnc k m) vfy = .ok m := by
  have hlen := length_ecbEnc hk m
  rw [ecbDec_of_blocks (by omega) (by omega), flatMap_aesDec_ecbEnc hk, unpad_pad]

/-- Settles O56: a block of 0x10 bytes is the padding of the empty string. -/
theorem ecbRoundTrip : Obligations.EcbRoundTrip :=
  ⟨fun _ m vfy hk => ecbDec_ecbEnc hk m vfy, unpad_pad []⟩

/-! ### The commands that complete -/

/-- A selection that gives a working key is legal (10_state.md R46; 30_encoding.md R97). -/
theorem legal_of_workingKey {s : State} {ksel : Ksel} {k : Bytes} (h : workingKey s ksel = .ok k) :
    ksel.legal = true := by
  cases ksel with
  | localKey | sessionKey | udpKey => rfl
  | reserved => cases h

/-- What is no longer than IN fits the buffers (10_state.md R39). -/
theorem le_cap_of_le_length_inBytes {s : State} {n : Nat} (h : n ≤ s.inBytes.length)
    (hr : s.ibufLen.toNat ≤ s.cap) : n ≤ s.cap :=
  Nat.le_trans h (by rwa [State.length_inBytes])

/-- Settles O7: a block goes in and at most a block comes out. -/
theorem aesBlocksComplete : Obligations.AesBlocksComplete := by
  intro ksel s k hk hlen hr
  have h16 : s.inBytes.length = 16 := by rw [State.length_inBytes, hlen]; rfl
  have hw := legal_of_workingKey hk
  have henc := le_cap_of_le_length_inBytes (length_aesEnc_le k s.inBytes) hr
  have hdec := le_cap_of_le_length_inBytes (length_aesDec_le k s.inBytes) hr
  exact ⟨completes_of_effect (.aesEncBlock s ksel k hk h16) hw hr henc,
    completes_of_effect (.aesDecBlock s ksel k hk h16) hw hr hdec⟩

/-- Settles O8: the output check passes because the padded length is known. -/
theorem padCompletes : Obligations.PadCompletes := by
  rintro s p hr hcap rfl
  have hfits : (pad s.inBytes).length ≤ s.cap := by rwa [length_pad, State.length_inBytes]
  have hout : pad s.inBytes = s.inBytes ++ List.replicate (16 - s.ibufLen.toNat % 16)
      (BitVec.ofNat 8 (16 - s.ibufLen.toNat % 16)) := by rw [pad, State.length_inBytes, rep]
  exact completes_of_effect' (.pkcs7Pad s hfits) rfl hr hfits rfl hout

/-- Settles O9: IN ends as a padded string does. -/
theorem unpadCompletes : Obligations.UnpadCompletes := by
  intro vfy s m tail p hr hin hl h1 h16 hlast hv
  have hok : unpad s.inBytes vfy = .ok m := hin ▸ unpad_append hl h1 h16 hlast hv
  have hfits : m.length ≤ s.cap := le_cap_of_le_length_inBytes (length_of_unpad hok) hr
  exact completes_of_effect (.pkcs7Unpad s vfy m hok) rfl hr hfits

/-- Settles O10: encryption does not lengthen the padded message. -/
theorem ecbEncCompletes : Obligations.EcbEncCompletes := by
  intro ksel s k hk hr hcap
  have hfits : (ecbEnc k s.inBytes).length ≤ s.cap := by
    have := length_ecbEnc_le k s.inBytes
    rw [State.length_inBytes] at this
    exact Nat.le_trans this hcap
  exact completes_of_effect (.ecbEnc s ksel k hk hfits) (legal_of_workingKey hk) hr hfits

/-- IN is empty exactly if IBUF_LEN is 0 (00_scope.md R12). -/
theorem length_inBytes_eq_zero_iff {s : State} : s.inBytes.length = 0 ↔ s.ibufLen = 0 := by
  rw [State.length_inBytes]
  exact (BitVec.toNat_eq (y := 0)).symm

/-- What ECB_DEC computes of one or more blocks in IN (R195). -/
theorem ecbDec_inBytes {s : State} (h0 : s.ibufLen ≠ 0) (h : s.ibufLen.toNat % 16 = 0) (k : Bytes) (vfy : Bool) :
    ecbDec k s.inBytes vfy = unpad ((chunks 16 s.inBytes).flatMap (aesDec k)) vfy :=
  ecbDec_of_blocks (mt length_inBytes_eq_zero_iff.1 h0) (by rwa [State.length_inBytes]) k vfy

/-- Settles O11: the message is shorter than its ciphertext, so it fits where IN does. -/
theorem ecbDecCompletes : Obligations.EcbDecCompletes := by
  intro ksel vfy s k m hk hr h0 h16 hm
  have hok : ecbDec k s.inBytes vfy = .ok m := (ecbDec_inBytes h0 h16 k vfy).trans hm
  have hfits : m.length ≤ s.cap := le_cap_of_le_length_inBytes (length_of_ecbDec hok) hr
  exact completes_of_effect (.ecbDec s ksel vfy k m hk hok) (legal_of_workingKey hk) hr hfits

/-! ### What the unpadding commands refuse -/

/-- PKCS7_UNPAD raises what unpadding IN raises (R193). -/
theorem raises_pkcs7Unpad {s : State} {vfy : Bool} {e : ErrCode} (hr : s.ibufLen.toNat ≤ s.cap)
    (h : unpad s.inBytes vfy = .error e) : Raises (.pkcs7Unpad vfy) s s.afterIn e := by
  refine raises_of_exec ?_
  unfold exec
  exact commandIn_error rfl hr (by rw [h, error_bind])

/-- ECB_DEC with a working key raises what ECB decryption of IN raises (R195). -/
theorem raises_ecbDec {s : State} {ksel : Ksel} {vfy : Bool} {k : Bytes} {e : ErrCode}
    (hk : workingKey s ksel = .ok k) (hr : s.ibufLen.toNat ≤ s.cap) (h : ecbDec k s.inBytes vfy = .error e) :
    Raises (.ecbDec ksel vfy) s s.afterIn e := by
  refine raises_of_exec ?_
  unfold exec
  exact commandIn_error (legal_of_workingKey hk) hr (by rw [workingKey_afterIn, hk, ok_bind, h, error_bind])

/-- ECB_DEC of one or more blocks raises what unpadding their decryptions raises, which is a padding error. -/
theorem raises_ecbDec_badPadding {s : State} {ksel : Ksel} {vfy : Bool} {k : Bytes} {e : ErrCode}
    (hk : workingKey s ksel = .ok k) (hr : s.ibufLen.toNat ≤ s.cap) (h0 : s.ibufLen ≠ 0)
    (h16 : s.ibufLen.toNat % 16 = 0) (h : unpad ((chunks 16 s.inBytes).flatMap (aesDec k)) vfy = .error e) :
    Raises (.ecbDec ksel vfy) s s.afterIn .badPadding := by
  obtain rfl := unpad_error h
  exact raises_ecbDec hk hr ((ecbDec_inBytes h0 h16 k vfy).trans h)

/-- Settles O29: each clause is a refusal of the algorithm, for PKCS7_UNPAD on IN and for ECB_DEC on the
decryptions of its blocks. -/
theorem paddingErrors : Obligations.PaddingErrors := by
  intro ksel vfy s k hk hr
  refine ⟨fun h0 => ?_, fun h16 => ?_, fun p hlast hp => ?_, fun m tail p b hin hl hlast hb hne => ?_,
    fun d h0 h16 hd => ?_⟩
  · have hnil : s.inBytes.length = 0 := length_inBytes_eq_zero_iff.2 h0
    have hunpad : unpad s.inBytes vfy = .error .badPadding := by rw [List.eq_nil_of_length_eq_zero hnil]; rfl
    exact ⟨raises_pkcs7Unpad hr hunpad, raises_ecbDec hk hr (ecbDec_of_length_zero hnil k vfy)⟩
  · exact raises_ecbDec hk hr (ecbDec_of_not_blocks (by rwa [State.length_inBytes]) k vfy)
  · rw [← State.length_inBytes] at hp
    exact raises_pkcs7Unpad hr (unpad_refuses_count hlast hp)
  · exact raises_pkcs7Unpad hr (unpad_refuses_tail hin hl hlast hb hne)
  · subst hd
    exact ⟨fun p hlast hp => raises_ecbDec_badPadding hk hr h0 h16 (unpad_refuses_count hlast hp),
      fun m tail p b hd hl hlast hb hne =>
        raises_ecbDec_badPadding hk hr h0 h16 (unpad_refuses_tail hd hl hlast hb hne),
      fun e he => raises_ecbDec_badPadding hk hr h0 h16 he⟩

end Sys2Proof.Machine

/-!
PROOFS. GCM (spec/42_gcm.md R224 to R227, R230, R231): decryption takes encryption back and refuses every other tag;
GCM_ENC's output is as long as its operand allows, and GCM_DEC finds in IN the parts it was put together from.
-/

namespace Sys2Proof.Machine

/-! ### The laws of the algorithm -/

/-- R227 (a): a ciphertext with its own tag decrypts to the plaintext. -/
theorem gcmAD_gcmAE {k iv : Bytes} (hk : k.length = 16) (hiv : iv.length = 12) (p a : Bytes) :
    gcmAD k iv (gcmAE k iv p a).1 (gcmAE k iv p a).2 a = some p :=
  calc gcmAD k iv (gcmAE k iv p a).1 (gcmAE k iv p a).2 a
      = some (gctr k (inc32 (gcmJ0 iv)) (gcmAE k iv p a).1) := if_pos rfl
    _ = some p := congrArg some (gctr_gctr hk (length_inc32 (length_gcmJ0 hiv)) p)

/-- R227 (b): a ciphertext with a tag that is not its own decrypts to nothing. -/
theorem gcmAD_gcmAE_of_ne {k iv p a t : Bytes} (h : t ≠ (gcmAE k iv p a).2) :
    gcmAD k iv (gcmAE k iv p a).1 t a = none :=
  gcmAD_of_not_tag h.symm

/-- Settles O57, by GCTR as its own inverse and the comparison of the tags. -/
theorem gcmRoundTrip : Obligations.GcmRoundTrip := fun _ _ p a _ hk hiv =>
  ⟨length_gcmAE_fst hk hiv p a, length_gcmAE_snd hk hiv p a, gcmAD_gcmAE hk hiv p a, gcmAD_gcmAE_of_ne⟩

/-! ### GCM_ENC -/

/-- Whatever the key, the ciphertext is no longer than the plaintext (R224). -/
theorem length_gcmAE_fst_le (k iv p a : Bytes) : (gcmAE k iv p a).1.length ≤ p.length := length_gctr_le ..

/-- Whatever the key, the tag has at most 16 bytes (R224). -/
theorem length_gcmAE_snd_le (k iv p a : Bytes) : (gcmAE k iv p a).2.length ≤ 16 := length_gctr_le ..

/-- The output of GCM_ENC as one concatenation (R230; 30_encoding.md R96). -/
theorem gcmOutput_eq (nx : Bool) (iv : Bytes) (ct : Bytes × Bytes) :
    gcmOutput nx iv ct = (if nx then iv else []) ++ ct.1 ++ ct.2 := by
  cases nx <;> rfl

/-- The output of GCM_ENC is the plaintext's length, a tag and perhaps a nonce at most (R224, R230). -/
theorem length_gcmOutput_le {iv : Bytes} (hiv : iv.length = 12) (nx : Bool) (k p a : Bytes) :
    (gcmOutput nx iv (gcmAE k iv p a)).length ≤ p.length + 16 + (if nx then 12 else 0) := by
  have hct := length_gcmAE_fst_le k iv p a
  have htag := length_gcmAE_snd_le k iv p a
  cases nx with
  | false => simp [gcmOutput]; omega
  | true => simp [gcmOutput, hiv]; omega

/-- The use of NONCE, field by field (10_state.md R44, R50). -/
theorem State.useNonce_eq (s : State) (k : Bytes) :
    s.useNonce k =
      { s with
        nonceValid := false
        nlog := s.nlog.insert (k, s.nonce)
        faults := { s.faults with nonceReuse := s.faults.nonceReuse || decide ((k, s.nonce) ∈ s.nlog) } } := by
  rw [← List.contains_eq_mem]
  rfl

/-- Settles O12: the output check passes because the output's length is known. -/
theorem gcmEncCompletes : Obligations.GcmEncCompletes := by
  intro ksel nx s k hk hin had hn h12 hcap
  have hfits : (gcmOutput nx s.nonce (gcmAE k s.nonce s.inBytes s.afterIn.adBytes)).length ≤ s.cap := by
    have hlen := length_gcmOutput_le h12 nx k s.inBytes s.afterIn.adBytes
    rw [State.length_inBytes] at hlen
    exact Nat.le_trans hlen hcap
  exact completes_of_effect' (.gcmEnc s ksel nx k hk hn hfits) (legal_of_workingKey hk) ⟨hin, had⟩ hfits
    (State.useNonce_eq ..) (gcmOutput_eq ..)

/-! ### GCM_DEC -/

/-- The last part of a concatenation as a slice. -/
theorem slice_suffix {a m : Bytes} {i j : Nat} (hi : i = a.length) (hj : j = a.length + m.length) :
    slice (a ++ m) i j = m := by
  simpa using slice_mid (b := []) hi hj

/-- With NX = 1, the nonce, the ciphertext and the tag are the parts of IN (R231). -/
theorem gcmParts_explicit (s : State) {iv c t : Bytes} (hiv : iv.length = 12) (ht : t.length = 16) :
    gcmParts s true (iv ++ c ++ t) = .ok (iv, c, t) := by
  have hlen : (iv ++ c ++ t).length = 12 + c.length + 16 := by rw [List.length_append, List.length_append, hiv, ht]
  have hnonce : slice (iv ++ c ++ t) 0 12 = iv := by rw [List.append_assoc, slice_prefix hiv.symm]
  have hcipher : slice (iv ++ c ++ t) 12 (12 + c.length) = c := by
    rw [List.append_assoc, slice_mid hiv.symm (by rw [hiv])]
  have htag : slice (iv ++ c ++ t) (12 + c.length) (12 + c.length + 16) = t :=
    slice_suffix (by rw [List.length_append, hiv]) (by rw [List.length_append, hiv, ht])
  simp only [gcmParts, hlen, Nat.add_sub_cancel, if_true, hnonce, hcipher, htag]
  rw [if_neg (by omega)]

/-- With NX = 0, the nonce is NONCE, and IN is the ciphertext and the tag (R231). -/
theorem gcmParts_loaded {s : State} {c t : Bytes} (hv : s.nonceValid = true) (ht : t.length = 16) :
    gcmParts s false (c ++ t) = .ok (s.nonce, c, t) := by
  have hlen : (c ++ t).length = c.length + 16 := by rw [List.length_append, ht]
  have hcipher : slice (c ++ t) 0 c.length = c := slice_prefix rfl
  have htag : slice (c ++ t) c.length (c.length + 16) = t := slice_suffix rfl (by rw [ht])
  simp only [gcmParts, hlen, Nat.add_sub_cancel, hv, Bool.false_eq_true, if_false, Bool.true_eq_false, hcipher, htag]
  rw [if_neg (by omega)]

/-- The parts of GCM_DEC's operands for either form of NX. -/
theorem gcmParts_of_split {s : State} {nx : Bool} {iv c t : Bytes} (hiv : iv.length = 12) (ht : t.length = 16)
    (h : if nx then s.inBytes = iv ++ c ++ t else s.nonceValid = true ∧ iv = s.nonce ∧ s.inBytes = c ++ t) :
    gcmParts s nx s.inBytes = .ok (iv, c, t) := by
  cases nx with
  | true =>
    have hin : s.inBytes = iv ++ c ++ t := h
    rw [hin, gcmParts_explicit s hiv ht]
  | false =>
    obtain ⟨hv, rfl, hin⟩ : s.nonceValid = true ∧ iv = s.nonce ∧ s.inBytes = c ++ t := by simpa using h
    rw [hin, gcmParts_loaded hv ht]

/-- The operand reads leave what GCM_DEC takes its parts from. -/
theorem gcmParts_afterReads (s : State) (nx : Bool) (inp : Bytes) :
    gcmParts s.afterIn.afterAd nx inp = gcmParts s nx inp := rfl

/-- Where GCM_AD answers FAIL the command has ERR_TAG_MISMATCH (R231). -/
theorem gcmOpen_of_none {k iv c t a : Bytes} (h : gcmAD k iv c t a = none) :
    gcmOpen k iv c t a = .error .tagMismatch := by
  rw [gcmOpen, h]

/-- GCM_DEC raises ERR_TAG_MISMATCH where GCM_AD of its parts answers FAIL (R231). -/
theorem raises_gcmDec {s : State} {ksel : Ksel} {nx : Bool} {k iv c t : Bytes} (hk : workingKey s ksel = .ok k)
    (hr : s.ibufLen.toNat ≤ s.cap ∧ s.abufLen.toNat ≤ s.cap) (hp : gcmParts s nx s.inBytes = .ok (iv, c, t))
    (h : gcmAD k iv c t s.afterIn.adBytes = none) :
    Raises (.gcmDec ksel nx) s s.afterIn.afterAd .tagMismatch := by
  refine raises_of_exec ?_
  unfold exec
  refine commandInAd_error (legal_of_workingKey hk) hr ?_
  rw [workingKey_afterAd, workingKey_afterIn, hk, ok_bind, gcmParts_afterReads, hp, ok_bind, gcmOpen_of_none h,
    error_bind]

/-- Settles O13: the comparison of the tags decides what GCM_AD answers, and the command with it. -/
theorem gcmDecDecides : Obligations.GcmDecDecides := by
  intro ksel nx s k iv c t hk hin had hiv ht hsplit
  have hparts := gcmParts_of_split hiv ht hsplit
  refine ⟨fun htag => ?_, fun htag => raises_gcmDec hk ⟨hin, had⟩ hparts (gcmAD_of_not_tag htag)⟩
  have hplain := gcmAD_of_tag hiv htag
  have hfits := le_cap_of_le_length_inBytes (Nat.le_trans (length_of_gcmAD hplain) (gcmParts_ok hparts)) hin
  exact completes_of_effect (.gcmDec s ksel nx k _ (iv, c, t) hk hparts hplain) (legal_of_workingKey hk) ⟨hin, had⟩
    hfits

end Sys2Proof.Machine

/-!
PROOFS. The check commands (spec/43_hmac_crc.md R270 to R272): a CRC and a MAC fit OBUF of every legal size, and
HMAC_VERIFY ends as the comparison of AD with the MAC of IN does.
-/

namespace Sys2Proof.Machine

/-- Under legal parameters an effect completes its command: OBUF has room for its output (00_scope.md R8). -/
theorem completes_of_effect_legal {i : Instr} {s u : State} {f : ResultFlags} {out : Bytes}
    (h : Effect i s u f out) (hw : i.wellFormed = true) (hl : s.params.legal = true) (hr : inRange i s) :
    Completes i s u f out :=
  completes_of_effect h hw hr (h.length_out hl hr)

/-- Settles O14: CRC32 has one effect, and its four bytes fit. -/
theorem crc32Completes : Obligations.Crc32Completes := fun s hl hr =>
  completes_of_effect_legal (.crc32 s) rfl hl hr

/-- Settles O15: with a working key HMAC_SHA256 has one effect, and its 32 bytes fit. -/
theorem hmacCompletes : Obligations.HmacCompletes := fun ksel s k hk hl hr =>
  completes_of_effect_legal (.hmacSha256 s ksel k hk) (legal_of_workingKey hk) hl hr

/-- HMAC_VERIFY with an AD of the length of a MAC raises ERR_HMAC_MISMATCH where AD is not the MAC of IN (R272). -/
theorem raises_hmacVerify {s : State} {ksel : Ksel} {k : Bytes} (hk : workingKey s ksel = .ok k)
    (hr : s.ibufLen.toNat ≤ s.cap ∧ s.abufLen.toNat ≤ s.cap) (hlen : s.afterIn.adBytes.length = 32)
    (h : hmac k s.inBytes ≠ s.afterIn.adBytes) : Raises (.hmacVerify ksel) s s.afterIn.afterAd .hmacMismatch := by
  refine raises_of_exec ?_
  unfold exec
  refine commandInAd_error (legal_of_workingKey hk) hr ?_
  rw [workingKey_afterAd, workingKey_afterIn, hk, ok_bind, require_of hlen, ok_bind, require_of_not h, error_bind]

/-- Settles O16: past the key and the length of AD, which ABUF_LEN gives, only the comparison is left. -/
theorem hmacVerifyDecides : Obligations.HmacVerifyDecides := by
  intro ksel s k hk hin had h32
  have hlen : s.afterIn.adBytes.length = 32 := by
    rw [State.length_adBytes, State.afterIn_abufLen, h32]
    rfl
  refine ⟨fun hmatch => ?_, fun hother => raises_hmacVerify hk ⟨hin, had⟩ hlen hother.symm⟩
  exact completes_of_effect_nil (.hmacVerify s ksel k hk hlen hmatch.symm) (legal_of_workingKey hk) ⟨hin, had⟩

end Sys2Proof.Machine

/-!
PROOFS. The stream scan (spec/44_frame_codec.md R320): the model's walk through the string finds the least index of
a frame tag, or of a partial tag where there is none, and FRAME_SCAN reports what it finds.
-/

namespace Sys2Proof.Machine

/-! ### Tags by their index -/

theorem tagAt_nil (i : Nat) : tagAt [] i = none := by
  simp [tagAt, slice, tagP55, tagP66]

theorem tagAt_cons_succ (v : Byte) (b : Bytes) (i : Nat) : tagAt (v :: b) (i + 1) = tagAt b i := by
  have hslice : slice (v :: b) (i + 1) (i + 1 + 4) = slice b i (i + 4) := by simp [slice]
  rw [tagAt, tagAt, hslice]

/-- A whole tag stands within the string. -/
theorem lt_length_of_tagAt {b : Bytes} {i : Nat} {is66 : Bool} (h : tagAt b i = some is66) : i < b.length := by
  by_contra hge
  have hnil : slice b i (i + 4) = [] := by
    rw [slice, List.drop_eq_nil_of_le (Nat.le_of_not_lt hge), List.take_nil]
  simp [tagAt, hnil, tagP55, tagP66] at h

/-- The walk stops where a tag stands, and else goes on with the rest of the string. -/
theorem findTag_cons (n : Nat) (v : Byte) (b : Bytes) :
    findTag n (v :: b) = ((tagAt (v :: b) 0).map fun is66 => (n, is66)).or (findTag (n + 1) b) := by
  have hslice : slice (v :: b) 0 (0 + 4) = (v :: b).take 4 := rfl
  rw [findTag, tagAt, hslice]
  split_ifs <;> rfl

/-- The walk finds the least index at which a tag stands, and which tag it is. -/
theorem findTag_of_tagAt {b : Bytes} {i : Nat} {is66 : Bool} (h : tagAt b i = some is66)
    (hleast : ∀ j, j < i → tagAt b j = none) (n : Nat) : findTag n b = some (n + i, is66) := by
  induction b generalizing i n with
  | nil => rw [tagAt_nil] at h; cases h
  | cons v b ih =>
    rw [findTag_cons]
    cases i with
    | zero => rw [h]; rfl
    | succ i =>
      have hrest : ∀ j, j < i → tagAt b j = none := fun j hj => by
        rw [← tagAt_cons_succ v]
        exact hleast _ (Nat.succ_lt_succ hj)
      rw [tagAt_cons_succ] at h
      rw [hleast 0 (Nat.succ_pos i), ih h hrest (n + 1), Nat.add_right_comm]
      rfl

/-- Where no tag stands, the walk finds none. -/
theorem findTag_eq_none {b : Bytes} (h : ∀ i, tagAt b i = none) (n : Nat) : findTag n b = none := by
  induction b generalizing n with
  | nil => rfl
  | cons v b ih =>
    have hrest : ∀ i, tagAt b i = none := fun i => by rw [← tagAt_cons_succ v, h]
    rw [findTag_cons, h 0, ih hrest]
    rfl

/-- The least index from which the rest of the string is the start of a tag, cut short; the end is one such. -/
theorem findPartialTag_spec (b : Bytes) (n : Nat) :
    ∃ j, findPartialTag n b = n + j ∧ j ≤ b.length ∧ partialTag (b.drop j) = true ∧
      ∀ j', j' < j → partialTag (b.drop j') = false := by
  induction b generalizing n with
  | nil => exact ⟨0, rfl, Nat.le_refl _, rfl, nofun⟩
  | cons v b ih =>
    rw [findPartialTag]
    split
    · next hp => exact ⟨0, rfl, Nat.zero_le _, hp, nofun⟩
    · next hp =>
      obtain ⟨j, hfind, hle, hpartial, hleast⟩ := ih (n + 1)
      have hindex : findPartialTag (n + 1) b = n + (j + 1) := by rw [hfind, Nat.add_right_comm, Nat.add_assoc]
      refine ⟨j + 1, hindex, Nat.succ_le_succ hle, hpartial, fun j' hj' => ?_⟩
      cases j' with
      | zero => simpa using hp
      | succ j' => exact hleast j' (Nat.lt_of_succ_lt_succ hj')

/-! ### What the scan answers -/

/-- The scan from a tag on (R320). -/
theorem scanFrame_of_tagAt {b : Bytes} {i : Nat} {is66 : Bool} (p : Params) (h : tagAt b i = some is66)
    (hleast : ∀ j, j < i → tagAt b j = none) :
    scanFrame p b =
      if b.length - i < headerSize is66 then .ok { offset := i, frameLen := 0, incomplete := true, is66 := is66 }
      else
        let l := (beWord (slice b (i + headerSize is66 - 4) (i + headerSize is66))).toNat
        if maxLen p < l then .error .tooLong
        else if l < (if is66 then 28 else 4) + suffixOf p is66 then .error .short
        else
          let fl := headerSize is66 + (l - suffixOf p is66) + 4
          .ok { offset := i, frameLen := fl, incomplete := decide (b.length - i < fl), is66 := is66 } := by
  have hfind := findTag_of_tagAt h hleast 0
  rw [Nat.zero_add] at hfind
  rw [scanFrame, hfind]

/-- Settles O18: the walk gives the least index of a tag, and the checks after it are R320's. -/
theorem scanFindsFirstTag : Obligations.ScanFindsFirstTag := by
  intro p b
  refine ⟨fun i is66 htag hleast => ?_, fun hnone => ?_⟩
  · have hi := lt_length_of_tagAt htag
    rw [scanFrame_of_tagAt p htag hleast]
    refine ⟨fun hshort => if_pos (by omega), fun l hheader hl => ?_⟩
    dsimp only
    rw [if_neg (by omega), ← hl]
    refine ⟨fun hmax => if_pos hmax, fun hmax hmin => ?_, fun hmax hmin => ?_⟩
    · rw [if_neg (Nat.not_lt.2 hmax), if_pos hmin]
    · have hframe : headerSize is66 + (l - suffixOf p is66) + 4 = headerSize is66 + l - suffixOf p is66 + 4 := by omega
      have hmissing : b.length - i < headerSize is66 + l - suffixOf p is66 + 4 ↔
          b.length < i + (headerSize is66 + l - suffixOf p is66 + 4) := by omega
      rw [if_neg (Nat.not_lt.2 hmax), if_neg (Nat.not_lt.2 hmin), hframe, decide_eq_decide.2 hmissing]
  · obtain ⟨j, hfind, hle, hpartial, hbefore⟩ := findPartialTag_spec b 0
    refine ⟨j, ?_, hle, hpartial, hbefore⟩
    rw [scanFrame, findTag_eq_none hnone, hfind, Nat.zero_add]

/-- Settles O17: below 2^32 the register holds the frame's length, and no free value is drawn. -/
theorem frameScanCompletes : Obligations.FrameScanCompletes := fun s r hr h =>
  ⟨_, _, fun hfits => ⟨if_pos hfits, if_pos hfits⟩, completes_of_effect_nil (.frameScan s r h) rfl hr⟩

end Sys2Proof.Machine

/-!
PROOFS. The frame parsers (spec/44_frame_codec.md R291 to R305). Both make the same checks down to the suffix, which
`checkFrame` states once for both layouts; past them the region or the tag decides.
-/

namespace Sys2Proof.Machine

/-! ### The checks of both parsers -/

/-- The checks of a parser, with `body` for what it does with a frame whose suffix has been found: `header` bytes
that end with the length field, which counts at least `least` bytes and `counted` bytes of the suffix. -/
def checkFrame (p : Params) (tag suffix : Bytes) (header least counted : Nat) (inp : Bytes)
    (body : Nat → Except ErrCode Parsed) : Except ErrCode Parsed :=
  if prefixOK inp tag = false then .error .noPrefix
  else if inp.length < header then .error .short
  else
    let l := (beWord (slice inp (header - 4) header)).toNat
    if maxLen p < l then .error .tooLong
    else if l < least + counted then .error .short
    else
      let total := header + (l - counted) + 4
      if inp.length < total then .error .short
      else if slice inp (total - 4) total ≠ suffix then .error .badSuffix
      else body total

theorem parse55_eq_checkFrame (p : Params) (inp : Bytes) (tr : Trailer) (rcm : RcMode) :
    parse55 p inp tr rcm =
      checkFrame p tagP55 tagS55 16 tr.size (suffix55 p) inp (parse55Body inp tr rcm) := rfl

theorem parse66_eq_checkFrame (p : Params) (inp k : Bytes) (rcm : RcMode) :
    parse66 p inp k rcm = checkFrame p tagP66 tagS66 18 28 (suffix66 p) inp (parse66Body inp k rcm) := rfl

section
variable {p : Params} {tag suffix inp : Bytes} {header least counted l total : Nat}
  {body : Nat → Except ErrCode Parsed}

/-- A byte that contradicts the tag (R291). -/
theorem checkFrame_noPrefix (h : ∃ j, j < 4 ∧ j < inp.length ∧ inp[j]? ≠ tag[j]?) :
    checkFrame p tag suffix header least counted inp body = .error .noPrefix := by
  obtain ⟨j, h4, hlen, hne⟩ := h
  exact if_pos (Bool.eq_false_iff.2 fun hp => hne (prefixOK_iff.1 hp j h4 hlen))

variable (hp : ∀ j, j < 4 → j < inp.length → inp[j]? = tag[j]?)
include hp

/-- Where no byte contradicts the tag, less than a header. -/
theorem checkFrame_noHeader (h : inp.length < header) :
    checkFrame p tag suffix header least counted inp body = .error .short := by
  rw [checkFrame, if_neg (by simp [prefixOK_iff.2 hp]), if_pos h]

variable (hh : header ≤ inp.length) (hl : l = (beWord (slice inp (header - 4) header)).toNat)
include hh hl

/-- With a header, the length field is checked next. -/
theorem checkFrame_of_header :
    checkFrame p tag suffix header least counted inp body =
      if maxLen p < l then .error .tooLong
      else if l < least + counted then .error .short
      else
        let total := header + (l - counted) + 4
        if inp.length < total then .error .short
        else if slice inp (total - 4) total ≠ suffix then .error .badSuffix
        else body total := by
  rw [checkFrame, if_neg (by simp [prefixOK_iff.2 hp]), if_neg (Nat.not_lt.2 hh), ← hl]

theorem checkFrame_tooLong (hmax : maxLen p < l) :
    checkFrame p tag suffix header least counted inp body = .error .tooLong := by
  rw [checkFrame_of_header hp hh hl, if_pos hmax]

theorem checkFrame_tooShort (hmax : l ≤ maxLen p) (hmin : l < least + counted) :
    checkFrame p tag suffix header least counted inp body = .error .short := by
  rw [checkFrame_of_header hp hh hl, if_neg (Nat.not_lt.2 hmax), if_pos hmin]

variable (hmax : l ≤ maxLen p) (hmin : least + counted ≤ l) (ht : total = header + l - counted + 4)
include hmax hmin ht

/-- With a fitting length field, the declared end of the frame is checked next. -/
theorem checkFrame_of_length :
    checkFrame p tag suffix header least counted inp body =
      if inp.length < total then .error .short
      else if slice inp (total - 4) total ≠ suffix then .error .badSuffix
      else body total := by
  have htotal : header + (l - counted) + 4 = total := by omega
  rw [checkFrame_of_header hp hh hl, if_neg (Nat.not_lt.2 hmax), if_neg (Nat.not_lt.2 hmin)]
  dsimp only
  rw [htotal]

theorem checkFrame_cut (hlen : inp.length < total) :
    checkFrame p tag suffix header least counted inp body = .error .short := by
  rw [checkFrame_of_length hp hh hl hmax hmin ht, if_pos hlen]

theorem checkFrame_badSuffix (hlen : total ≤ inp.length) (hsuf : slice inp (total - 4) total ≠ suffix) :
    checkFrame p tag suffix header least counted inp body = .error .badSuffix := by
  rw [checkFrame_of_length hp hh hl hmax hmin ht, if_neg (Nat.not_lt.2 hlen), if_pos hsuf]

/-- A frame that passes every check goes to the body. -/
theorem checkFrame_body (hlen : total ≤ inp.length) (hsuf : slice inp (total - 4) total = suffix) :
    checkFrame p tag suffix header least counted inp body = body total := by
  rw [checkFrame_of_length hp hh hl hmax hmin ht, if_neg (Nat.not_lt.2 hlen), if_neg (not_not_intro hsuf)]

end

/-! ### Past the suffix check -/

/-- The retcode of a region is its first four bytes (R294, R296). -/
theorem regionRetcode_eq (present : Bool) (r : Bytes) :
    regionRetcode present r = if present then beWord (r.take 4) else 0 := rfl

/-- A trailer, written out for each HM (R292). -/
theorem Trailer.bytes_eq (tr : Trailer) (f : Bytes) :
    tr.bytes f = (match tr with | .crcTrailer => be32 (crc32 f) | .hmacTrailer k => hmac k f) := by
  cases tr <;> rfl

theorem parse55Body_error {inp r : Bytes} {tr : Trailer} {rcm : RcMode} {total : Nat} {e : ErrCode}
    (hr : r = slice inp 16 (total - 4 - tr.size)) (h : detect55 r rcm = .error e) :
    parse55Body inp tr rcm total = .error e := by
  rw [parse55Body, ← hr, h]

/-- What the 55AA parser answers of a frame in which the detection succeeds (R294, R302). -/
theorem parse55Body_of_detect {inp r : Bytes} {tr : Trailer} {rcm : RcMode} {total : Nat} {present : Bool}
    (hr : r = slice inp 16 (total - 4 - tr.size)) (h : detect55 r rcm = .ok present) :
    parse55Body inp tr rcm total =
      .ok { seq := beWord (slice inp 4 8)
            cmd := beWord (slice inp 8 12)
            len := beWord (slice inp 12 16)
            retcode := regionRetcode present r
            present := present
            trailerOk := decide (tr.bytes (inp.take (total - 4 - tr.size)) =
              slice inp (total - 4 - tr.size) (total - 4))
            payload := regionPayload present r
            total := total } := by
  rw [parse55Body, ← hr, h]

/-- A wrong tag is an error of the 6699 parser (R296). -/
theorem parse66Body_tagMismatch {inp k iv c t : Bytes} {rcm : RcMode} {total : Nat} (hiv : iv = slice inp 18 30)
    (hc : c = slice inp 30 (total - 20)) (ht : t = slice inp (total - 20) (total - 4))
    (h : gcmAD k iv c t (slice inp 4 18) = none) : parse66Body inp k rcm total = .error .tagMismatch := by
  rw [parse66Body, ← hiv, ← hc, ← ht, h]

theorem parse66Body_error {inp k iv c t d : Bytes} {rcm : RcMode} {total : Nat} {e : ErrCode}
    (hiv : iv = slice inp 18 30) (hc : c = slice inp 30 (total - 20)) (ht : t = slice inp (total - 20) (total - 4))
    (h : gcmAD k iv c t (slice inp 4 18) = some d) (hd : detect66 d rcm = .error e) :
    parse66Body inp k rcm total = .error e := by
  simp only [parse66Body, ← hiv, ← hc, ← ht, h, hd]

/-- What the 6699 parser answers of a plaintext in which the detection succeeds (R296). -/
theorem parse66Body_of_detect {inp k iv c t d : Bytes} {rcm : RcMode} {total : Nat} {present : Bool}
    (hiv : iv = slice inp 18 30) (hc : c = slice inp 30 (total - 20)) (ht : t = slice inp (total - 20) (total - 4))
    (h : gcmAD k iv c t (slice inp 4 18) = some d) (hd : detect66 d rcm = .ok present) :
    parse66Body inp k rcm total =
      .ok { seq := beWord (slice inp 6 10)
            cmd := beWord (slice inp 10 14)
            len := beWord (slice inp 14 18)
            retcode := regionRetcode present d
            present := present
            trailerOk := true
            payload := regionPayload present d
            total := total } := by
  simp only [parse66Body, ← hiv, ← hc, ← ht, h, hd]

/-- Settles O30: the shared checks in their order; past them the 55AA region, or the 6699 tag and then its
plaintext, decides by the rule of RC. -/
theorem parserChecks : Obligations.ParserChecks := by
  refine ⟨fun p inp tr rcm l total e r present hl ht he hr hpresent => ?_,
    fun p inp k rcm l total iv c t d present hl ht hiv hc htag hd hpresent => ?_⟩
  · rw [parse55_eq_checkFrame]
    refine ⟨checkFrame_noPrefix, fun hp => ⟨checkFrame_noHeader hp, fun hh => ⟨checkFrame_tooLong hp hh hl,
      checkFrame_tooShort hp hh hl, fun hmax hmin => ⟨checkFrame_cut hp hh hl hmax hmin ht,
      checkFrame_badSuffix hp hh hl hmax hmin ht, fun hlen hsuf => ?_⟩⟩⟩⟩
    subst he
    rw [checkFrame_body hp hh hl hmax hmin ht hlen hsuf]
    refine ⟨fun hrc hshort => ?_, fun hrc hregion => ?_⟩
    · subst hrc
      exact parse55Body_error hr (detect55_short hshort)
    · rw [parse55Body_of_detect hr (detect55_eq_ok hrc hregion hpresent), regionRetcode_eq, Trailer.bytes_eq]
      rfl
  · rw [parse66_eq_checkFrame]
    refine ⟨checkFrame_noPrefix, fun hp => ⟨checkFrame_noHeader hp, fun hh => ⟨checkFrame_tooLong hp hh hl,
      checkFrame_tooShort hp hh hl, fun hmax hmin => ⟨checkFrame_cut hp hh hl hmax hmin ht,
      checkFrame_badSuffix hp hh hl hmax hmin ht, fun hlen hsuf => ?_⟩⟩⟩⟩
    rw [checkFrame_body hp hh hl hmax hmin ht hlen hsuf]
    refine ⟨fun hother => parse66Body_tagMismatch hiv hc htag (gcmAD_of_not_tag hother), fun hsame => ?_⟩
    have hiv12 : iv.length = 12 := by rw [hiv, length_slice]; omega
    have hplain := gcmAD_of_tag hiv12 hsame
    rw [← hd] at hplain
    refine ⟨fun hrc hshort => ?_, fun hrc hregion => ?_⟩
    · subst hrc
      exact parse66Body_error hiv hc htag hplain (detect66_short hshort)
    · rw [parse66Body_of_detect hiv hc htag hplain (detect66_eq_ok hrc hregion hpresent), regionRetcode_eq]
      rfl

end Sys2Proof.Machine

/-!
PROOFS. The round trips of the frame codec (spec/44_frame_codec.md R304): a frame laid out field by field parses to
its fields, whatever follows it; the builders lay frames out so, and the detection finds the retcode they put in.
-/

namespace Sys2Proof.Machine

/-! ### The retcode of a built frame -/

/-- The detection on a 55AA region finds the retcode exactly where the builder put one, in the cases of R304. -/
theorem detect55_append {rc pl : Bytes} {rcm : RcMode}
    (h : rcm = .present ∧ rc.length = 4 ∨ rcm = .absent ∧ rc = [] ∨
      rcm = .auto ∧ rc.length = 4 ∧ rc.head? ≠ some 0x7B#8 ∨
      rcm = .auto ∧ rc = [] ∧ (pl = [] ∨ pl.head? = some 0x7B#8 ∨ pl.length < 4)) :
    detect55 (rc ++ pl) rcm = .ok (decide (rc ≠ [])) := by
  rcases h with ⟨rfl, h4⟩ | ⟨rfl, rfl⟩ | ⟨rfl, h4, hfirst⟩ | ⟨rfl, rfl, hpl⟩
  · have hne : rc ≠ [] := List.ne_nil_of_length_eq_add_one h4
    exact detect55_eq_ok (by decide) (by simp [h4]) (by simp [hne])
  · exact detect55_eq_ok (by decide) (by simp) (by simp)
  · have hne : rc ≠ [] := List.ne_nil_of_length_eq_add_one h4
    exact detect55_eq_ok (by decide) (by simp) (by simp [hne, h4, List.head?_append_of_ne_nil _ hne, hfirst])
  · refine detect55_eq_ok (by decide) (by simp) ?_
    rcases hpl with rfl | hfirst | hshort
    · simp
    · simp [hfirst]
    · simp [Nat.not_le.2 hshort]

/-- The detection on a 6699 plaintext finds the retcode exactly where the builder put one, in the cases of R301. -/
theorem detect66_append {rc pl : Bytes} {rcm : RcMode}
    (h : rcm = .present ∧ rc.length = 4 ∨ rcm = .absent ∧ rc = [] ∨
      rcm = .auto ∧ rc.length = 4 ∧
        (pl.take 3 = [0x33, 0x2E, 0x35] ∨ rc.head? ≠ some 0x7B#8 ∧ pl.head? = some 0x7B#8) ∨
      rcm = .auto ∧ rc = [] ∧ slice pl 4 7 ≠ [0x33, 0x2E, 0x35] ∧
        (pl.head? = some 0x7B#8 ∨ pl[4]? ≠ some 0x7B#8)) :
    detect66 (rc ++ pl) rcm = .ok (decide (rc ≠ [])) := by
  rcases h with ⟨rfl, h4⟩ | ⟨rfl, rfl⟩ | ⟨rfl, h4, hpl⟩ | ⟨rfl, rfl, hversion, hbrace⟩
  · have hne : rc ≠ [] := List.ne_nil_of_length_eq_add_one h4
    exact detect66_eq_ok (by decide) (by simp [h4]) (by simp [hne])
  · exact detect66_eq_ok (by decide) (by simp) (by simp)
  · have hne : rc ≠ [] := List.ne_nil_of_length_eq_add_one h4
    refine detect66_eq_ok (by decide) (by simp) ?_
    have hslice : slice (rc ++ pl) 4 7 = pl.take 3 := by
      rw [slice_append_right (Nat.le_of_eq h4), h4]
      rfl
    have hfifth : (rc ++ pl)[4]? = pl.head? := by
      rw [List.getElem?_append_right (Nat.le_of_eq h4), h4, List.head?_eq_getElem?]
    rw [hslice, hfifth, List.head?_append_of_ne_nil _ hne, List.length_append, h4]
    rcases hpl with hversion | ⟨hfirst, hbrace⟩
    · have hlen : 3 ≤ pl.length := by
        have := congrArg List.length hversion
        simp at this
        omega
      simp [hne, hversion]
      omega
    · have hlen : 1 ≤ pl.length := by
        cases pl with
        | nil => cases hbrace
        | cons => simp
      simp [hne, hfirst, hbrace]
      omega
  · refine detect66_eq_ok (by decide) (by simp) ?_
    rcases hbrace with hfirst | hfifth
    · simp only [List.nil_append, hfirst]
      simpa using fun _ => hversion
    · simp only [List.nil_append]
      simpa [hfifth] using fun _ => hversion

/-- Where the builder put a retcode, the region's retcode is that (R294, R296). -/
theorem regionRetcode_append {rc : Bytes} (h : rc = [] ∨ rc.length = 4) (pl : Bytes) :
    regionRetcode (decide (rc ≠ [])) (rc ++ pl) = if rc = [] then 0 else beWord rc := by
  rcases h with rfl | h4
  · rfl
  · have hne : rc ≠ [] := List.ne_nil_of_length_eq_add_one h4
    simp only [regionRetcode, slice_prefix h4.symm, hne, ne_eq, not_false_eq_true, decide_true, if_true, if_false]

/-- The rest of the region is the payload (R294, R296). -/
theorem regionPayload_append {rc : Bytes} (h : rc = [] ∨ rc.length = 4) (pl : Bytes) :
    regionPayload (decide (rc ≠ [])) (rc ++ pl) = pl := by
  rcases h with rfl | h4
  · rfl
  · have hne : rc ≠ [] := List.ne_nil_of_length_eq_add_one h4
    simp only [regionPayload, hne, ne_eq, not_false_eq_true, decide_true, if_true, ← h4, List.drop_left]

/-! ### The 55AA layout -/

/-- The header of a 55AA frame (30_encoding.md R111). -/
def header55 (seq cmd : Word) (l : Nat) : Bytes := tagP55 ++ be32 seq ++ be32 cmd ++ be32Nat l

theorem length_header55 (seq cmd : Word) (l : Nat) : (header55 seq cmd l).length = 16 := rfl

/-- The fields of a string that begins with a 55AA header. -/
theorem header55_fields (seq cmd : Word) (l : Nat) (b : Bytes) :
    beWord (slice (header55 seq cmd l ++ b) 4 8) = seq ∧ beWord (slice (header55 seq cmd l ++ b) 8 12) = cmd ∧
      beWord (slice (header55 seq cmd l ++ b) 12 16) = BitVec.ofNat 32 l :=
  ⟨beWord_be32 seq, beWord_be32 cmd, beWord_be32 _⟩

/-- A length field within MAX_LEN fits its 32 bits. -/
theorem toNat_ofNat_of_le_maxLen {p : Params} {l : Nat} (h : l ≤ maxLen p) : (BitVec.ofNat 32 l).toNat = l := by
  have hmax : maxLen p < 2 ^ 32 := p.maxLen.isLt
  rw [BitVec.toNat_ofNat, Nat.mod_eq_of_lt (by omega)]

/-- A part of a string by its place. -/
theorem slice_eq_of_split {inp a m b : Bytes} {i j : Nat} (h : inp = a ++ (m ++ b)) (hi : i = a.length)
    (hj : j = a.length + m.length) : slice inp i j = m := by
  rw [h, slice_mid hi hj]

/-- A frame of header, region, trailer and suffix parses to its fields (R294). -/
theorem parse55_laidOut {p : Params} {tr : Trailer} {rcm : RcMode} {seq cmd : Word} {inp r t junk : Bytes}
    {l total : Nat} {present : Bool} (hinp : inp = header55 seq cmd l ++ (r ++ (t ++ (tagS55 ++ junk))))
    (ht : t.length = tr.size) (hl : l = r.length + tr.size + suffix55 p) (hmax : l ≤ maxLen p)
    (htotal : total = 20 + r.length + tr.size) (hd : detect55 r rcm = .ok present) :
    parse55 p inp tr rcm =
      .ok { seq := seq
            cmd := cmd
            len := BitVec.ofNat 32 l
            retcode := regionRetcode present r
            present := present
            trailerOk := decide (tr.bytes (header55 seq cmd l ++ r) = t)
            payload := regionPayload present r
            total := total } := by
  obtain ⟨hseq, hcmd, hlen⟩ := header55_fields seq cmd l (r ++ (t ++ (tagS55 ++ junk)))
  rw [← hinp] at hseq hcmd hlen
  have hheader := length_header55 seq cmd l
  have hS : tagS55.length = 4 := rfl
  have hlength : total ≤ inp.length := by simp only [hinp, List.length_append]; omega
  have hfield : l = (beWord (slice inp 12 16)).toNat := by rw [hlen, toNat_ofNat_of_le_maxLen hmax]
  have hprefix : prefixOK inp tagP55 = true := by rw [hinp]; rfl
  have hcovered : (header55 seq cmd l ++ r).length = total - 4 - tr.size := by rw [List.length_append]; omega
  have hregion : slice inp 16 (total - 4 - tr.size) = r := slice_eq_of_split hinp hheader.symm (by omega)
  have htake : inp.take (total - 4 - tr.size) = header55 seq cmd l ++ r := by
    rw [hinp, ← List.append_assoc, ← hcovered, List.take_left]
  have htrailer : slice inp (total - 4 - tr.size) (total - 4) = t :=
    slice_eq_of_split (a := header55 seq cmd l ++ r) (by rw [hinp, List.append_assoc]) hcovered.symm (by omega)
  have hsuffix : slice inp (total - 4) total = tagS55 :=
    slice_eq_of_split (a := header55 seq cmd l ++ (r ++ t)) (by rw [hinp, List.append_assoc, List.append_assoc])
      (by simp only [List.length_append]; omega) (by simp only [List.length_append]; omega)
  rw [parse55_eq_checkFrame, checkFrame_body (prefixOK_iff.1 hprefix) (by omega) hfield hmax (by omega) (by omega)
    hlength hsuffix, parse55Body_of_detect hregion.symm hd, hseq, hcmd, hlen, htake, htrailer]

/-- The 55AA builder puts the trailer of all that precedes it, and the suffix, behind the region (R293). -/
theorem build55_fst {p : Params} {seq cmd : Word} {rc pl f : Bytes} {tr : Trailer}
    (hf : f = tagP55 ++ be32 seq ++ be32 cmd ++ be32Nat (length55 p rc pl tr) ++ rc ++ pl) :
    (build55 p seq cmd rc pl tr).1 = f ++ tr.bytes f ++ tagS55 := by
  rw [hf]
  rfl

/-- A built 55AA frame as `parse55_laidOut` takes it. -/
theorem build55_append (p : Params) (seq cmd : Word) (rc pl junk : Bytes) (tr : Trailer) :
    (build55 p seq cmd rc pl tr).1 ++ junk =
      header55 seq cmd (length55 p rc pl tr) ++ ((rc ++ pl) ++
        (tr.bytes (header55 seq cmd (length55 p rc pl tr) ++ (rc ++ pl)) ++ (tagS55 ++ junk))) := by
  rw [build55_fst (f := header55 seq cmd (length55 p rc pl tr) ++ (rc ++ pl)) (List.append_assoc ..).symm]
  simp only [List.append_assoc]

theorem build55_snd (p : Params) (seq cmd : Word) (rc pl : Bytes) (tr : Trailer) :
    (build55 p seq cmd rc pl tr).2 = length55 p rc pl tr := rfl

/-- Settles O58: the trailer the builder appends is the one the parser computes. -/
theorem frame55RoundTrip : Obligations.Frame55RoundTrip := by
  intro p seq cmd rc pl junk tr rcm hmax hrc
  rw [build55_snd] at hmax ⊢
  have hretcode : rc = [] ∨ rc.length = 4 := by tauto
  have hlength : length55 p rc pl tr = (rc ++ pl).length + tr.size + suffix55 p := by
    rw [length55, List.length_append]
  have htotal : (build55 p seq cmd rc pl tr).1.length = 20 + (rc ++ pl).length + tr.size := by
    rw [length_build55, List.length_append, Nat.add_assoc 20]
  rw [parse55_laidOut (build55_append ..) (tr.length_bytes _) hlength hmax htotal
      (detect55_append hrc),
    regionRetcode_append hretcode, regionPayload_append hretcode, decide_eq_true rfl]

/-! ### The 6699 layout -/

/-- The header of a 6699 frame, with the reserved field 0 (30_encoding.md R113). -/
def header66 (seq cmd : Word) (l : Nat) : Bytes := tagP66 ++ [0, 0] ++ be32 seq ++ be32 cmd ++ be32Nat l

theorem length_header66 (seq cmd : Word) (l : Nat) : (header66 seq cmd l).length = 18 := rfl

/-- The fields of a string that begins with a 6699 header. -/
theorem header66_fields (seq cmd : Word) (l : Nat) (b : Bytes) :
    beWord (slice (header66 seq cmd l ++ b) 6 10) = seq ∧ beWord (slice (header66 seq cmd l ++ b) 10 14) = cmd ∧
      beWord (slice (header66 seq cmd l ++ b) 14 18) = BitVec.ofNat 32 l :=
  ⟨beWord_be32 seq, beWord_be32 cmd, beWord_be32 _⟩

/-- A frame of header, nonce, ciphertext, tag and suffix parses to its fields, where the tag is right (R296). -/
theorem parse66_laidOut {p : Params} {rcm : RcMode} {seq cmd : Word} {inp k iv c t d junk : Bytes} {l total : Nat}
    {present : Bool} (hinp : inp = header66 seq cmd l ++ (iv ++ (c ++ (t ++ (tagS66 ++ junk)))))
    (hiv : iv.length = 12) (ht : t.length = 16) (hl : l = c.length + 28 + suffix66 p) (hmax : l ≤ maxLen p)
    (htotal : total = 50 + c.length) (hplain : gcmAD k iv c t (slice (header66 seq cmd l) 4 18) = some d)
    (hd : detect66 d rcm = .ok present) :
    parse66 p inp k rcm =
      .ok { seq := seq
            cmd := cmd
            len := BitVec.ofNat 32 l
            retcode := regionRetcode present d
            present := present
            trailerOk := true
            payload := regionPayload present d
            total := total } := by
  obtain ⟨hseq, hcmd, hlen⟩ := header66_fields seq cmd l (iv ++ (c ++ (t ++ (tagS66 ++ junk))))
  rw [← hinp] at hseq hcmd hlen
  have hheader := length_header66 seq cmd l
  have hS : tagS66.length = 4 := rfl
  have hlength : total ≤ inp.length := by simp only [hinp, List.length_append]; omega
  have hfield : l = (beWord (slice inp 14 18)).toNat := by rw [hlen, toNat_ofNat_of_le_maxLen hmax]
  have hprefix : prefixOK inp tagP66 = true := by rw [hinp]; rfl
  have haad : slice inp 4 18 = slice (header66 seq cmd l) 4 18 := by
    rw [hinp, slice_append_left (Nat.le_of_eq hheader.symm)]
  have hnonce : slice inp 18 30 = iv := slice_eq_of_split hinp hheader.symm (by omega)
  have hcipher : slice inp 30 (total - 20) = c :=
    slice_eq_of_split (a := header66 seq cmd l ++ iv) (by rw [hinp, List.append_assoc])
      (by simp only [List.length_append]; omega) (by simp only [List.length_append]; omega)
  have htag : slice inp (total - 20) (total - 4) = t :=
    slice_eq_of_split (a := header66 seq cmd l ++ (iv ++ c)) (by rw [hinp, List.append_assoc, List.append_assoc])
      (by simp only [List.length_append]; omega) (by simp only [List.length_append]; omega)
  have hsuffix : slice inp (total - 4) total = tagS66 :=
    slice_eq_of_split (a := header66 seq cmd l ++ (iv ++ (c ++ t)))
      (by rw [hinp, List.append_assoc, List.append_assoc, List.append_assoc])
      (by simp only [List.length_append]; omega) (by simp only [List.length_append]; omega)
  rw [← haad] at hplain
  rw [parse66_eq_checkFrame, checkFrame_body (prefixOK_iff.1 hprefix) (by omega) hfield hmax (by omega) (by omega)
    hlength hsuffix, parse66Body_of_detect hnonce.symm hcipher.symm htag.symm hplain hd, hseq, hcmd, hlen]

/-- The 6699 builder encrypts retcode and payload with bytes 4 to 17 of the header as additional data (R295). -/
theorem build66_fst (p : Params) (seq cmd : Word) (rc pl k iv : Bytes) :
    (build66 p seq cmd rc pl k iv).1 =
      header66 seq cmd (length66 p rc pl) ++ iv ++
        (gcmAE k iv (rc ++ pl) (slice (header66 seq cmd (length66 p rc pl)) 4 18)).1 ++
        (gcmAE k iv (rc ++ pl) (slice (header66 seq cmd (length66 p rc pl)) 4 18)).2 ++ tagS66 := rfl

/-- A built 6699 frame as `parse66_laidOut` takes it. -/
theorem build66_append (p : Params) (seq cmd : Word) (rc pl junk k iv : Bytes) :
    (build66 p seq cmd rc pl k iv).1 ++ junk =
      header66 seq cmd (length66 p rc pl) ++ (iv ++
        ((gcmAE k iv (rc ++ pl) (slice (header66 seq cmd (length66 p rc pl)) 4 18)).1 ++
          ((gcmAE k iv (rc ++ pl) (slice (header66 seq cmd (length66 p rc pl)) 4 18)).2 ++ (tagS66 ++ junk)))) := by
  rw [build66_fst]
  simp only [List.append_assoc]

theorem build66_snd (p : Params) (seq cmd : Word) (rc pl k iv : Bytes) :
    (build66 p seq cmd rc pl k iv).2 = length66 p rc pl := rfl

/-- Settles O59: decryption under the same key and header takes the builder's encryption back. -/
theorem frame66RoundTrip : Obligations.Frame66RoundTrip := by
  intro p seq cmd rc pl junk k iv rcm hk hiv hmax hrc
  rw [build66_snd] at hmax ⊢
  have hretcode : rc = [] ∨ rc.length = 4 := by tauto
  have hcipher := length_gcmAE_fst hk hiv (rc ++ pl) (slice (header66 seq cmd (length66 p rc pl)) 4 18)
  have htag := length_gcmAE_snd hk hiv (rc ++ pl) (slice (header66 seq cmd (length66 p rc pl)) 4 18)
  have hlength : length66 p rc pl = (rc ++ pl).length + 28 + suffix66 p := by
    rw [length66, List.length_append]
    omega
  have htotal : (build66 p seq cmd rc pl k iv).1.length = 50 + (rc ++ pl).length := by
    rw [length_build66 p seq cmd rc pl hk hiv, List.length_append, Nat.add_assoc]
  rw [← hcipher] at hlength htotal
  rw [parse66_laidOut (build66_append ..) hiv htag hlength hmax htotal
      (gcmAD_gcmAE hk hiv (rc ++ pl) _) (detect66_append hrc),
    regionRetcode_append hretcode, regionPayload_append hretcode]

end Sys2Proof.Machine

/-!
PROOFS. The frame commands (spec/44_frame_codec.md R321 to R324): the packers emit their builder's frame, which fits
because its length is known; the unpackers report what their parser answers; and what a parser, the scan or the
pipeline refuses ends the command.
-/

namespace Sys2Proof.Machine

/-! ### Operands of the packers -/

theorem trailerOperand_hmac {s : State} {ksel : Ksel} {k : Bytes} (hk : workingKey s ksel = .ok k) :
    trailerOperand s ksel .hmac = .ok (.hmacTrailer k) := by
  rw [trailerOperand, hk, ok_bind]

/-- HM alone fixes the length of the trailer (R292). -/
theorem size_of_trailerOperand {s : State} {ksel : Ksel} {hm : TrailerKind} {tr : Trailer}
    (h : trailerOperand s ksel hm = .ok tr) : tr.size = trailerLength hm := by
  rcases trailerOperand_ok h with ⟨rfl, rfl⟩ | ⟨rfl, k, -, rfl⟩ <;> rfl

/-- RC alone fixes the length of a packer's retcode (30_encoding.md R95). -/
theorem length_retcodeOperand (s : State) (rc : RcMode) : (retcodeOperand s rc).length = retcodeLength rc := by
  unfold retcodeOperand retcodeLength
  split <;> rfl

/-- A command word's KSEL and RC are all that can make it illegal (30_encoding.md R97). -/
theorem legal_and_legal {ksel : Ksel} {rc : RcMode} (hksel : ksel.legal = true) (hrc : rc ≠ .reserved) :
    (ksel.legal && rc.legal) = true := by
  rw [hksel, RcMode.legal_iff.2 hrc]
  rfl

/-! ### The packers -/

theorem length_build55_operands {s : State} {ksel : Ksel} {hm : TrailerKind} {tr : Trailer}
    (ht : trailerOperand s ksel hm = .ok tr) (rc : RcMode) :
    (build55 s.params s.seqIn s.cmdIn (retcodeOperand s rc) s.inBytes tr).1.length =
      20 + retcodeLength rc + s.ibufLen.toNat + trailerLength hm := by
  rw [length_build55, length_retcodeOperand, State.length_inBytes, size_of_trailerOperand ht]

theorem length55_operands {s : State} {ksel : Ksel} {hm : TrailerKind} {tr : Trailer}
    (ht : trailerOperand s ksel hm = .ok tr) (rc : RcMode) :
    length55 s.params (retcodeOperand s rc) s.inBytes tr =
      retcodeLength rc + s.ibufLen.toNat + trailerLength hm + suffix55 s.params := by
  rw [length55, length_retcodeOperand, State.length_inBytes, size_of_trailerOperand ht]

/-- Settles O19: the builder's frame over the operands is the one written out, and its length is known. -/
theorem pack55Completes : Obligations.Pack55Completes := by
  intro ksel hm rc s tr q f l hksel hrc hr htr hq hcap hl hf
  have ht : trailerOperand s ksel hm = .ok tr := by
    cases hm with
    | crc => exact congrArg Except.ok htr.symm
    | hmac =>
      obtain ⟨k, hk, rfl⟩ := htr
      exact trailerOperand_hmac hk
  have hw := legal_and_legal (Ksel.legal_iff.2 hksel) hrc
  have hlength := length_build55_operands ht rc
  have hfield : (build55 s.params s.seqIn s.cmdIn (retcodeOperand s rc) s.inBytes tr).2 = l := by
    rw [build55_snd, length55_operands ht, hl]
  have hframe : (build55 s.params s.seqIn s.cmdIn (retcodeOperand s rc) s.inBytes tr).1 = f ++ tr.bytes f ++ tagS55 :=
    build55_fst (by rw [hf, hq, ← hfield]; rfl)
  refine completes_of_effect' (.pack55 s ksel hm rc tr ht (by rwa [hlength])) hw hr (by rwa [hlength]) ?_ ?_
  · rw [hlength, hfield]
  · rw [hframe, Trailer.bytes_eq]
    rfl

theorem length66_operands (s : State) (rc : RcMode) :
    length66 s.params (retcodeOperand s rc) s.inBytes =
      s.ibufLen.toNat + 12 + 16 + retcodeLength rc + suffix66 s.params := by
  rw [length66, length_retcodeOperand, State.length_inBytes]

/-- The tag of a 6699 header, and the rest of it, the additional data (30_encoding.md R113, R295). -/
theorem header66_eq (seq cmd : Word) (l : Nat) :
    header66 seq cmd l = tagP66 ++ slice (header66 seq cmd l) 4 18 := rfl

/-- Settles O20: the frame is the builder's under NONCE, which the command then uses up. -/
theorem pack66Completes : Obligations.Pack66Completes := by
  intro ksel rc s k q h l hk hrc hr hn h12 h16 hq hcap hl hh
  have hw := legal_and_legal (legal_of_workingKey hk) hrc
  have hlength : (build66 s.params s.seqIn s.cmdIn (retcodeOperand s rc) s.inBytes k s.nonce).1.length =
      50 + retcodeLength rc + s.ibufLen.toNat := by
    rw [length_build66 _ _ _ _ _ h16 h12, length_retcodeOperand, State.length_inBytes]
  have hfield : length66 s.params (retcodeOperand s rc) s.inBytes = l := by rw [length66_operands, hl]
  have haad : slice (header66 s.seqIn s.cmdIn l) 4 18 = h := by rw [hh]; rfl
  have hheader : header66 s.seqIn s.cmdIn l = tagP66 ++ h := by rw [header66_eq, haad]
  refine completes_of_effect' (.pack66 s ksel rc k hk hn (by rwa [hlength])) hw hr (by rwa [hlength]) ?_ ?_
  · rw [hlength, build66_snd, hfield, State.useNonce_eq]
    rfl
  · rw [build66_fst, hfield, haad, hheader, hq]
    rfl

/-! ### The unpackers -/

/-- UNPACK55 completes with what its parser accepts (R322). -/
theorem completes_unpack55 {s : State} {ksel : Ksel} {hm : TrailerKind} {rc : RcMode} {tr : Trailer} {f : Parsed}
    (hksel : ksel ≠ .reserved) (hrc : rc ≠ .reserved) (hr : s.ibufLen.toNat ≤ s.cap)
    (ht : trailerOperand s ksel hm = .ok tr) (h : parse55 s.params s.inBytes tr rc = .ok f) :
    Completes (.unpack55 ksel hm rc) s
      { s.afterIn with
        rSeq := f.seq, rCmd := f.cmd, rLen := f.len, rRetcode := f.retcode
        rFramelen := BitVec.ofNat 32 f.total }
      { trailerOk := f.trailerOk, rcPresent := f.present } f.payload :=
  completes_of_effect (.unpack55 s ksel hm rc tr f ht h) (legal_and_legal (Ksel.legal_iff.2 hksel) hrc) hr
    (le_cap_of_le_length_inBytes (parse55_bounds h).1 hr)

/-- The 6699 parser accepts no frame with a wrong tag (R296). -/
theorem trailerOk_of_parse66 {p : Params} {inp k : Bytes} {rcm : RcMode} {f : Parsed}
    (h : parse66 p inp k rcm = .ok f) : f.trailerOk = true := by
  obtain ⟨-, -, l, -, -, -, -, -, hbody⟩ := parse66_ok h
  obtain ⟨pt, present, -, -, rfl⟩ := parse66Body_ok hbody
  rfl

/-- Settles O21: a payload is no longer than IN, so it fits wherever IN does. -/
theorem unpackersComplete : Obligations.UnpackersComplete := by
  intro ksel rc s f hksel hrc hr
  refine ⟨fun h => completes_unpack55 hksel hrc hr rfl h,
    fun k hk h => completes_unpack55 hksel hrc hr (trailerOperand_hmac hk) h, fun k hk h => ?_⟩
  have hfits := le_cap_of_le_length_inBytes (parse66_bounds h).1 hr
  have hw := legal_and_legal (Ksel.legal_iff.2 hksel) hrc
  have hdone := completes_of_effect (.unpack66 s ksel rc k f hk h) hw hr hfits
  rwa [trailerOk_of_parse66 h] at hdone

/-! ### What the unpackers refuse -/

/-- UNPACK55 raises what its parser raises (R322). -/
theorem raises_unpack55 {s : State} {ksel : Ksel} {hm : TrailerKind} {rc : RcMode} {tr : Trailer} {e : ErrCode}
    (hksel : ksel ≠ .reserved) (hrc : rc ≠ .reserved) (hr : s.ibufLen.toNat ≤ s.cap)
    (ht : trailerOperand s ksel hm = .ok tr) (h : parse55 s.params s.inBytes tr rc = .error e) :
    Raises (.unpack55 ksel hm rc) s s.afterIn e := by
  refine raises_of_exec ?_
  unfold exec
  refine commandIn_error (legal_and_legal (Ksel.legal_iff.2 hksel) hrc) hr ?_
  rw [trailerOperand_afterIn, ht, ok_bind, State.afterIn_params, h, error_bind]

/-- UNPACK66 raises what its parser raises (R324). -/
theorem raises_unpack66 {s : State} {ksel : Ksel} {rc : RcMode} {k : Bytes} {e : ErrCode} (hrc : rc ≠ .reserved)
    (hr : s.ibufLen.toNat ≤ s.cap) (hk : workingKey s ksel = .ok k)
    (h : parse66 s.params s.inBytes k rc = .error e) : Raises (.unpack66 ksel rc) s s.afterIn e := by
  refine raises_of_exec ?_
  unfold exec
  refine commandIn_error (legal_and_legal (legal_of_workingKey hk) hrc) hr ?_
  rw [workingKey_afterIn, hk, ok_bind, State.afterIn_params, h, error_bind]

/-- FRAME_SCAN raises what the scan raises (R320). -/
theorem raises_frameScan {s : State} {e : ErrCode} (hr : s.ibufLen.toNat ≤ s.cap)
    (h : scanFrame s.params s.inBytes = .error e) : Raises .frameScan s s.afterIn e := by
  refine raises_of_exec ?_
  unfold exec
  exact commandIn_error rfl hr (by rw [State.afterIn_params, h, error_bind])

/-- The pipelines are told apart by their VER (45_message_pipeline.md R350). -/
theorem pipeVersion_code (v : PipeVersion) : pipeVersion v.code = some v := by
  cases v <;> rfl

/-- MSG_DECODE raises what the pipeline raises, past the configuration and key checks (45_message_pipeline.md R371). -/
theorem raises_msgDecode {s : State} {vfy : Bool} {rc : RcMode} {v : PipeVersion} {k : Bytes} {e : ErrCode}
    (hrc : rc ≠ .reserved) (hr : s.ibufLen.toNat ≤ s.cap) (hv : s.version = v.code)
    (hc : ¬(s.keyValid = true ∧ s.keySrclen.toNat < 16)) (hk : workingKey s .sessionKey = .ok k)
    (h : decodeMessage s.params v s.inBytes k rc vfy = .error e) : Raises (.msgDecode vfy rc) s s.afterIn e := by
  refine raises_of_exec ?_
  unfold exec
  refine commandIn_error (RcMode.legal_iff.2 hrc) hr ?_
  have hpipe : pipeOperand s.afterIn = .ok v := pipeOperand_ok.2 (by rw [State.afterIn_version, hv, pipeVersion_code])
  have hcheck : keyLengthCheck s.afterIn = .ok () := require_of hc
  rw [hpipe, ok_bind, hcheck, ok_bind, workingKey_afterIn, hk, ok_bind, State.afterIn_params, h, error_bind]

/-- Settles O31, command by command: the refusal is the first error of the command's rule. -/
theorem parserErrorsEndCommands : Obligations.ParserErrorsEndCommands := by
  intro ksel rc vfy s e hksel hrc hr
  exact ⟨raises_unpack55 hksel hrc hr rfl, raises_frameScan hr,
    fun k hk => ⟨raises_unpack55 hksel hrc hr (trailerOperand_hmac hk), raises_unpack66 hrc hr hk⟩,
    fun k v hk hv hc => raises_msgDecode hrc hr hv hc hk⟩

end Sys2Proof.Machine

/-!
PROOFS. The message pipeline (45_message_pipeline.md R350 to R371): its configuration error; MSG_ENCODE, whose output
check passes because the frame's length is known; what MSG_DECODE reports of a frame; and that its function takes
back what MSG_ENCODE's function made.
-/

namespace Sys2Proof.Machine

/-! ### The configuration checks -/

/-- No pipeline is at a VERSION other than the codes of 3.3, 3.4 and 3.5 (R350). -/
theorem pipeVersion_eq_none {ver : BitVec 8} (h : ver ≠ 0x33 ∧ ver ≠ 0x34 ∧ ver ≠ 0x35) : pipeVersion ver = none := by
  obtain ⟨h33, h34, h35⟩ := h
  rw [pipeVersion, if_neg h33, if_neg h34, if_neg h35]

/-- A rule that starts with the configuration checks stops at the first that fails (R350, R353). -/
theorem pipeline_config {s : State}
    (h : pipeVersion s.version = none ∨ s.keyValid = true ∧ s.keySrclen.toNat < 16)
    (g : PipeVersion → Except ErrCode Done) :
    (do
      let v ← pipeOperand s.afterIn
      keyLengthCheck s.afterIn
      g v) = .error .config := by
  cases hv : pipeOperand s.afterIn with
  | error e =>
    obtain ⟨rfl, -⟩ := pipeOperand_error hv
    exact error_bind ..
  | ok v =>
    have hsome : pipeVersion s.version = some v := pipeOperand_ok.1 hv
    have hshort : s.keyValid = true ∧ s.keySrclen.toNat < 16 := h.resolve_left (by simp [hsome])
    have hcheck : keyLengthCheck s.afterIn = .error .config := require_of_not (not_not_intro hshort)
    rw [ok_bind, hcheck, error_bind]

/-- Settles O26: both rules of the pipeline start with the two checks. -/
theorem configError : Obligations.ConfigError := by
  intro i s hi hw hr hbad
  refine raises_of_exec ?_
  have hfails := pipeline_config (hbad.imp_left pipeVersion_eq_none)
  cases i with
  | msgEncode | msgDecode =>
    unfold exec
    exact commandIn_error hw hr (hfails _)
  | _ => cases hi

/-! ### The version header -/

/-- The payload behind its header in the terms of R115 and R117. -/
theorem withHeader_eq (v : PipeVersion) (cmd : Word) (q : Bytes) :
    withHeader v cmd q =
      (if cmd ∈ [3, 4, 5, 9, 10, 16, 18, 64] then [] else [0x33, 0x2E, v.code] ++ List.replicate 12 0) ++ q := by
  simp only [withHeader, exempt_iff]
  split
  · rfl
  · cases v <;> rfl

/-- A string that begins as a version header does loses 15 bytes (R355). -/
theorem stripHeader_append {v : PipeVersion} {h : Bytes} (hl : h.length = 15) (hs : h.take 3 = v.string) (q : Bytes) :
    stripHeader v (h ++ q) = (q, true) := by
  have hslice : slice (h ++ q) 0 3 = v.string := by
    rw [slice_append_left (by omega), ← hs, slice, List.drop_zero, Nat.sub_zero]
  rw [stripHeader, if_pos ⟨by simp [hl], hslice⟩, List.drop_left' hl]

/-- The strip as the statements write it out is the model's (R355). -/
theorem stripHeader_of_strips {v : PipeVersion} {d q : Bytes} {vh : Bool} (h : Strips v.string d q vh) :
    stripHeader v d = (q, vh) := by
  rcases h with ⟨rfl, ⟨head, rfl, hl, hs⟩⟩ | ⟨rfl, rfl, hnot⟩
  · exact stripHeader_append hl hs q
  · exact stripHeader_of_not hnot

/-- The strip takes back what R351 puts before a payload, where an exempt command's payload does not itself begin
as a header does. -/
theorem stripHeader_withHeader {v : PipeVersion} {cmd : Word} {q : Bytes}
    (h : cmd ∈ [3, 4, 5, 9, 10, 16, 18, 64] → q.length < 15 ∨ q.take 3 ≠ v.string) :
    stripHeader v (withHeader v cmd q) = (q, decide (cmd ∉ [3, 4, 5, 9, 10, 16, 18, 64])) := by
  simp only [withHeader, exempt_iff]
  split
  · next hex => rw [stripHeader_of_not (h hex), decide_eq_false (not_not_intro hex)]
  · next hex => rw [stripHeader_header, decide_eq_true hex]

/-! ### MSG_ENCODE -/

/-- The 55AA frame of MSG_ENCODE carries no retcode (R356). -/
theorem length55_message (p : Params) (pl : Bytes) (tr : Trailer) :
    length55 p [] pl tr = pl.length + tr.size + suffix55 p := by
  rw [length55, List.length_nil, Nat.zero_add]

/-- Nor does its 6699 frame (R356). -/
theorem length66_message (p : Params) (pl : Bytes) : length66 p [] pl = pl.length + 28 + suffix66 p := by
  rw [length66, List.length_nil]

/-- MSG_ENCODE at a version whose message is a 55AA frame. -/
theorem completes_msgEncode55 {s : State} {v : PipeVersion} {k pl : Bytes} {tr : Trailer} (hv : s.version = v.code)
    (h35 : v ≠ .v35) (hk : workingKey s .sessionKey = .ok k) (hc : ¬(s.keyValid = true ∧ s.keySrclen.toNat < 16))
    (hr : s.ibufLen.toNat ≤ s.cap) (hcap : 20 + pl.length + tr.size ≤ s.cap)
    (hf : encodeMessage s.params v s.seqIn s.cmdIn s.inBytes k s.nonce =
      build55 s.params s.seqIn s.cmdIn [] pl tr) :
    Completes .msgEncode s
      { s.afterIn with
        rLen := BitVec.ofNat 32 (pl.length + tr.size + suffix55 s.params)
        rFramelen := BitVec.ofNat 32 (20 + pl.length + tr.size) } {}
      (build55 s.params s.seqIn s.cmdIn [] pl tr).1 := by
  have hlength : (build55 s.params s.seqIn s.cmdIn [] pl tr).1.length = 20 + pl.length + tr.size := length_build55 ..
  have hfits : (encodeMessage s.params v s.seqIn s.cmdIn s.inBytes k s.nonce).1.length ≤ s.cap := by
    rwa [hf, hlength]
  have hpipe : pipeVersion s.version = some v := by rw [hv, pipeVersion_code]
  refine completes_of_effect' (.msgEncode55 s v k hpipe h35 hc hk hfits) rfl hr hfits ?_ (by rw [hf])
  rw [hf, hlength, build55_snd, length55_message]

/-- Settles O22: the payload is the builder's, header before the ciphertext at 3.3 and inside it at 3.4. -/
theorem msgEncode55Completes : Obligations.MsgEncode55Completes := by
  intro s k pl tr vh hk hc hr hvh hversion hcap
  rcases hversion with ⟨hv, rfl, rfl⟩ | ⟨hv, rfl, rfl⟩
  · refine completes_msgEncode55 (v := .v33) hv (by decide) hk hc hr hcap ?_
    rw [encodeMessage, withHeader_eq, hvh, hv]
    rfl
  · refine completes_msgEncode55 (v := .v34) hv (by decide) hk hc hr hcap ?_
    rw [encodeMessage, withHeader_eq, hvh, hv]
    rfl

/-- Settles O23: the frame is the builder's under NONCE, which the command then uses up. -/
theorem msgEncode66Completes : Obligations.MsgEncode66Completes := by
  intro s k pl hk hc hr hv hn h12 h16 hpl hcap
  have hpipe : pipeVersion s.version = some .v35 := by rw [hv]; rfl
  have hf : encodeMessage s.params .v35 s.seqIn s.cmdIn s.inBytes k s.nonce =
      build66 s.params s.seqIn s.cmdIn [] pl k s.nonce := by
    rw [encodeMessage, withHeader_eq, hpl]
    rfl
  have hlength : (build66 s.params s.seqIn s.cmdIn [] pl k s.nonce).1.length = 50 + pl.length :=
    length_build66 _ _ _ _ _ h16 h12
  have hfits : (encodeMessage s.params .v35 s.seqIn s.cmdIn s.inBytes k s.nonce).1.length ≤ s.cap := by
    rwa [hf, hlength]
  refine completes_of_effect' (.msgEncode66 s k hpipe hc hk hn hfits) rfl hr hfits ?_ (by rw [hf])
  rw [hf, hlength, build66_snd, length66_message, State.useNonce_eq]
  rfl

/-! ### Decoding in two stages -/

/-- The parser of a version's pipeline (R357). -/
def PipeVersion.parse (v : PipeVersion) (p : Params) (inp k : Bytes) (rc : RcMode) : Except ErrCode Parsed :=
  match v with
  | .v33 => parse55 p inp .crcTrailer rc
  | .v34 => parse55 p inp (.hmacTrailer k) rc
  | .v35 => parse66 p inp k rc

/-- What a version's pipeline does with a parsed frame (R357). -/
def PipeVersion.decodeFrame (v : PipeVersion) (k : Bytes) (vfy : Bool) (f : Parsed) : Except ErrCode Decoded :=
  match v with
  | .v33 => decode33 k vfy f
  | .v34 => decode34 k vfy f
  | .v35 => decode35 f

/-- The pipeline parses, and decodes the frame its parser accepts (R357). -/
theorem decodeMessage_eq_bind (p : Params) (v : PipeVersion) (inp k : Bytes) (rc : RcMode) (vfy : Bool) :
    decodeMessage p v inp k rc vfy = (v.parse p inp k rc).bind (v.decodeFrame k vfy) := by
  cases v <;> rfl

theorem decodeMessage_of_parse {p : Params} {v : PipeVersion} {inp k : Bytes} {rc : RcMode} {f : Parsed}
    (h : v.parse p inp k rc = .ok f) (vfy : Bool) : decodeMessage p v inp k rc vfy = v.decodeFrame k vfy f := by
  rw [decodeMessage_eq_bind, h]
  rfl

theorem decodeMessage_of_parse_error {p : Params} {v : PipeVersion} {inp k : Bytes} {rc : RcMode} {e : ErrCode}
    (h : v.parse p inp k rc = .error e) (vfy : Bool) : decodeMessage p v inp k rc vfy = .error e := by
  rw [decodeMessage_eq_bind, h]
  rfl

section
variable {k q : Bytes} {vfy vh : Bool} {f : Parsed}

/-- An empty payload is EMPTY at every version (R354, R357). -/
theorem decodeFrame_of_empty (h : isEmptyPayload f.payload = true) (v : PipeVersion) :
    v.decodeFrame k vfy f = .ok ⟨f, [], false, true⟩ := by
  cases v with
  | v33 => exact if_pos h
  | v34 => exact if_pos h
  | v35 => exact if_pos h

/-- At 3.3 a payload that is a header and nothing else is EMPTY (R357). -/
theorem decode33_of_rest_nil (h : isEmptyPayload f.payload = false) (hs : stripHeader .v33 f.payload = ([], vh)) :
    decode33 k vfy f = .ok ⟨f, [], vh, true⟩ := by
  simp [decode33, h, hs]

/-- At 3.3 the decryption of what the strip leaves is the data (R357). -/
theorem decode33_of_rest (h : isEmptyPayload f.payload = false) (hs : stripHeader .v33 f.payload = (q, vh))
    (hq : q ≠ []) : decode33 k vfy f = (ecbDec k q vfy).map fun m => ⟨f, m, vh, false⟩ := by
  have hlen : q.length ≠ 0 := mt List.length_eq_zero_iff.1 hq
  simp only [decode33, h, hs, hlen, if_false, Bool.false_eq_true]
  cases ecbDec k q vfy <;> rfl

/-- At 3.4 what the strip leaves of the decryption is the data (R357). -/
theorem decode34_of_payload (h : isEmptyPayload f.payload = false) :
    decode34 k vfy f =
      (ecbDec k f.payload vfy).map fun d => ⟨f, (stripHeader .v34 d).1, (stripHeader .v34 d).2, false⟩ := by
  simp only [decode34, h, if_false, Bool.false_eq_true]
  cases ecbDec k f.payload vfy <;> rfl

/-- At 3.5 what the strip leaves of the plaintext is the data (R357). -/
theorem decode35_of_payload (h : isEmptyPayload f.payload = false) (hs : stripHeader .v35 f.payload = (q, vh)) :
    decode35 f = .ok ⟨f, q, vh, false⟩ := by
  simp [decode35, h, hs]

end

/-! ### MSG_DECODE -/

/-- MSG_DECODE completes with what its pipeline decodes, which is no longer than IN (R371). -/
theorem completes_msgDecode {s : State} {vfy : Bool} {rc : RcMode} {v : PipeVersion} {k : Bytes} {d : Decoded}
    (hrc : rc ≠ .reserved) (hv : s.version = v.code) (hc : ¬(s.keyValid = true ∧ s.keySrclen.toNat < 16))
    (hk : workingKey s .sessionKey = .ok k) (hr : s.ibufLen.toNat ≤ s.cap)
    (h : decodeMessage s.params v s.inBytes k rc vfy = .ok d) :
    Completes (.msgDecode vfy rc) s
      { s.afterIn with
        rSeq := d.frame.seq, rCmd := d.frame.cmd, rLen := d.frame.len, rRetcode := d.frame.retcode
        rFramelen := BitVec.ofNat 32 d.frame.total }
      { trailerOk := d.frame.trailerOk
        rcPresent := d.frame.present
        vhPresent := d.vh
        is6699 := decide (s.version = 0x35)
        empty := d.empty } d.data := by
  have hpipe : pipeVersion s.version = some v := by rw [hv, pipeVersion_code]
  have his66 : decide (s.version = 0x35) = decide (v = .v35) := by rw [hv]; cases v <;> rfl
  rw [his66]
  exact completes_of_effect (.msgDecode s vfy rc v k d hpipe hc hk h) (RcMode.legal_iff.2 hrc) hr
    (le_cap_of_le_length_inBytes (decodeMessage_bounds h) hr)

theorem isEmptyPayload_eq_false_iff {q : Bytes} : isEmptyPayload q = false ↔ ∃ b ∈ q, b ≠ 0 := by
  simp [isEmptyPayload]

/-- Settles O24: the command by the length of its data; the pipeline by its parser, and of an accepted frame by
the payload and the version. -/
theorem msgDecodeCompletes : Obligations.MsgDecodeCompletes := by
  refine ⟨fun vfy rc s v k d => completes_msgDecode, fun p v inp k rc vfy r hparse => ?_⟩
  have hr : v.parse p inp k rc = r := Eq.trans (by cases v <;> rfl) hparse
  refine ⟨fun e he => decodeMessage_of_parse_error (hr.trans he) vfy, fun f hf => ?_⟩
  rw [decodeMessage_of_parse (hr.trans hf) vfy]
  refine ⟨fun hzero => decodeFrame_of_empty (isEmptyPayload_iff.2 hzero) v, fun hne q vh => ?_⟩
  have hne := isEmptyPayload_eq_false_iff.2 hne
  refine ⟨?_, ?_, ?_⟩
  · rintro rfl hs
    have hs := stripHeader_of_strips (v := .v33) hs
    refine ⟨?_, fun hq => ?_⟩
    · rintro rfl
      exact decode33_of_rest_nil hne hs
    · have hdecode := decode33_of_rest (k := k) (vfy := vfy) hne hs hq
      exact ⟨fun m hm => by rw [hm] at hdecode; exact hdecode, fun e he => by rw [he] at hdecode; exact hdecode⟩
  · rintro rfl
    have hdecode := decode34_of_payload (k := k) (vfy := vfy) hne
    refine ⟨fun d hd hs => ?_, fun e he => by rw [he] at hdecode; exact hdecode⟩
    rw [hd, Except.map, stripHeader_of_strips (v := .v34) hs] at hdecode
    exact hdecode
  · rintro rfl hs
    exact decode35_of_payload hne (stripHeader_of_strips (v := .v35) hs)

/-! ### The round trip -/

/-- The payload region of a message (R356). -/
def PipeVersion.region (v : PipeVersion) (cmd : Word) (pt k : Bytes) : Bytes :=
  match v with
  | .v33 => withHeader v cmd (ecbEnc k pt)
  | .v34 => ecbEnc k (withHeader v cmd pt)
  | .v35 => withHeader v cmd pt

/-- The frame `f` says what a message was encoded from. -/
structure Carries (f : Parsed) (seq cmd : Word) (region : Bytes) (total : Nat) : Prop where
  seq : f.seq = seq
  cmd : f.cmd = cmd
  trailerOk : f.trailerOk = true
  present : f.present = false
  payload : f.payload = region
  total : f.total = total

/-- The 55AA parser takes back a frame built without a retcode. -/
theorem parse55_build55 {p : Params} {seq cmd : Word} {pl : Bytes} {tr : Trailer}
    (hmax : (build55 p seq cmd [] pl tr).2 ≤ maxLen p) :
    ∃ f, parse55 p (build55 p seq cmd [] pl tr).1 tr .absent = .ok f ∧
      Carries f seq cmd pl (build55 p seq cmd [] pl tr).1.length := by
  have h := frame55RoundTrip p seq cmd [] pl [] tr .absent hmax (.inr (.inl ⟨rfl, rfl⟩))
  rw [List.append_nil] at h
  exact ⟨_, h, rfl, rfl, rfl, rfl, rfl, rfl⟩

/-- So does the 6699 parser under the same key. -/
theorem parse66_build66 {p : Params} {seq cmd : Word} {pl k iv : Bytes} (hk : k.length = 16) (hiv : iv.length = 12)
    (hmax : (build66 p seq cmd [] pl k iv).2 ≤ maxLen p) :
    ∃ f, parse66 p (build66 p seq cmd [] pl k iv).1 k .absent = .ok f ∧
      Carries f seq cmd pl (build66 p seq cmd [] pl k iv).1.length := by
  have h := frame66RoundTrip p seq cmd [] pl [] k iv .absent hk hiv hmax (.inr (.inl ⟨rfl, rfl⟩))
  rw [List.append_nil] at h
  exact ⟨_, h, rfl, rfl, rfl, rfl, rfl, rfl⟩

/-- A version's parser takes back the frame of an encoded message. -/
theorem parse_encodeMessage {p : Params} {v : PipeVersion} {seq cmd : Word} {pt k nonce : Bytes} (hk : k.length = 16)
    (hn : nonce.length = 12) (hmax : (encodeMessage p v seq cmd pt k nonce).2 ≤ maxLen p) :
    ∃ f, v.parse p (encodeMessage p v seq cmd pt k nonce).1 k .absent = .ok f ∧
      Carries f seq cmd (v.region cmd pt k) (encodeMessage p v seq cmd pt k nonce).1.length := by
  cases v with
  | v33 => exact parse55_build55 hmax
  | v34 => exact parse55_build55 hmax
  | v35 => exact parse66_build66 hk hn hmax

theorem ecbEnc_ne_nil {k : Bytes} (hk : k.length = 16) (m : Bytes) : ecbEnc k m ≠ [] := by
  rw [← List.length_pos_iff, length_ecbEnc hk]
  omega

/-- The decoding of a frame with a message's payload region gives the message back, where the stripped string of an
exempt command does not itself begin as a header does. -/
theorem decodeFrame_region {v : PipeVersion} {cmd : Word} {pt k : Bytes} {f : Parsed} (hk : k.length = 16)
    (hf : f.payload = v.region cmd pt k) (hne : isEmptyPayload f.payload = false)
    (hex : cmd ∈ [3, 4, 5, 9, 10, 16, 18, 64] →
      (if v = .v33 then ecbEnc k pt else pt).length < 15 ∨
        (if v = .v33 then ecbEnc k pt else pt).take 3 ≠ v.string) (vfy : Bool) :
    v.decodeFrame k vfy f = .ok ⟨f, pt, decide (cmd ∉ [3, 4, 5, 9, 10, 16, 18, 64]), false⟩ := by
  have hstrip := stripHeader_withHeader hex
  cases v with
  | v33 =>
    rw [if_pos rfl] at hstrip
    have hrest := (congrArg (stripHeader .v33) hf).trans hstrip
    exact (decode33_of_rest hne hrest (ecbEnc_ne_nil hk pt)).trans (by rw [ecbDec_ecbEnc hk, Except.map])
  | v34 =>
    have hplain := (congrArg (ecbDec k · vfy) hf).trans (ecbDec_ecbEnc hk _ vfy)
    rw [if_neg (by decide)] at hstrip
    exact (decode34_of_payload hne).trans (by rw [hplain, Except.map, hstrip])
  | v35 =>
    exact decode35_of_payload hne ((congrArg (stripHeader .v35) hf).trans hstrip)

/-- Settles O60: the parser takes the frame back, and its payload is the region the message was made into. -/
theorem messageRoundTrip : Obligations.MessageRoundTrip := by
  intro p v seq cmd pt k nonce region vfy hk hn hmax hregion hne hex
  have hregion : v.region cmd pt k = region := Eq.trans (by cases v <;> rfl) hregion.symm
  obtain ⟨f, hparse, hf⟩ := parse_encodeMessage hk hn hmax
  refine ⟨f, ?_, hf.seq, hf.cmd, hf.trailerOk, hf.present, hf.total⟩
  rw [decodeMessage_of_parse hparse]
  exact decodeFrame_region hk hf.payload (by rw [hf.payload, hregion, hne]) hex vfy

end Sys2Proof.Machine

/-!
PROOFS. The errors by their priority (60_exceptions.md R402, R403): what every error leaves; past the checks of legality,
range, configuration and key, the missing nonce and the bad operand length; and last of all the output that does not
fit.
-/

namespace Sys2Proof.Machine

/-! ### What an error leaves -/

/-- Settles O33: an error ends the command on the state before its operand reads or on the one after them, and the
reads record an unmarked byte at most. -/
theorem errorCommitsNothing : Obligations.ErrorCommitsNothing := by
  intro i s t h herr
  rcases exec_next_cases h with ⟨v, e, hok, -, rfl, ⟨rfl, -⟩ | rfl⟩ | ⟨-, -, u, f, out, -, rfl⟩
  · exact ⟨e, v.draws, v.faults.unwrittenRead, hok, .inl rfl, v.endsWith_fail e⟩
  · obtain ⟨n, heq⟩ := afterReads_eq i s
    refine ⟨e, n, s.faults.unwrittenRead || !operandsMarked i s, hok, ?_, heq ▸ (afterReads i s).endsWith_fail e⟩
    cases hm : operandsMarked i s with
    | true => exact .inl (by simp)
    | false => exact .inr ⟨by simp, fun hw => by simp [(operandsMarked_iff i s).2 hw] at hm⟩
  · exact absurd (errorField_ok ..) herr

/-! ### Past the key check -/

section
variable {i : Instr} {s : State}

/-- The working key of a command that passes the key check. -/
theorem PassesKey.workingKey_ok (h : PassesKey i s) {ksel : Ksel} (hk : keyOf i = some ksel) :
    ∃ k, workingKey s ksel = .ok k := by
  have hsome := h.key ksel hk
  cases hw : workingKey s ksel with
  | ok k => exact ⟨k, rfl⟩
  | error e =>
    rw [hw] at hsome
    cases hsome

/-- The pipeline of a command that passes the configuration checks. -/
theorem PassesKey.pipeVersion_some (h : PassesKey i s) (hi : isMessage i = true) :
    ∃ v, pipeVersion s.version = some v := Option.isSome_iff_exists.1 (h.config hi).1

/-- The trailer of PACK55 needs a key only with HM = 1, and then the key check finds it. -/
theorem PassesKey.trailer_ok {ksel : Ksel} {hm : TrailerKind} {rc : RcMode} (h : PassesKey (.pack55 ksel hm rc) s) :
    ∃ tr, trailerOperand s ksel hm = .ok tr := by
  cases hm with
  | crc => exact ⟨.crcTrailer, rfl⟩
  | hmac =>
    obtain ⟨k, hk⟩ := h.workingKey_ok rfl
    exact ⟨.hmacTrailer k, trailerOperand_hmac hk⟩

end

theorem keyValid_of_workingKey {s : State} {k : Bytes} (h : workingKey s .localKey = .ok k) : s.keyValid = true := by
  cases hv : s.keyValid with
  | true => rfl
  | false =>
    rw [workingKey_unset hv (.inl rfl)] at h
    cases h

section
variable {s : State} {ksel : Ksel} {k : Bytes}

/-- A rule that starts with a working key there is, goes on with it. -/
theorem key_bind (h : workingKey s ksel = .ok k) (g : Bytes → Except ErrCode Done) :
    (workingKey s.afterIn ksel >>= g) = g k := by
  rw [workingKey_afterIn, h, ok_bind]

theorem key_bind_inAd (h : workingKey s ksel = .ok k) (g : Bytes → Except ErrCode Done) :
    (workingKey s.afterIn.afterAd ksel >>= g) = g k := by
  rw [workingKey_afterAd, key_bind h]

/-- The rule of a pipeline command past its configuration and key checks (45_message_pipeline.md R350, R353). -/
theorem pipeline_bind {v : PipeVersion} (hv : pipeVersion s.version = some v)
    (hc : ¬(s.keyValid = true ∧ s.keySrclen.toNat < 16)) (hk : workingKey s .sessionKey = .ok k)
    (g : PipeVersion → Bytes → Except ErrCode Done) :
    (do
      let v ← pipeOperand s.afterIn
      keyLengthCheck s.afterIn
      let k ← workingKey s.afterIn .sessionKey
      g v k) = g v k := by
  have hpipe : pipeOperand s.afterIn = .ok v := pipeOperand_ok.2 hv
  have hcheck : keyLengthCheck s.afterIn = .ok () := require_of hc
  rw [hpipe, ok_bind, hcheck, ok_bind, key_bind hk]

end

/-- A rule that starts with a check that fails. -/
theorem require_bind_of_not {c : Prop} [Decidable c] {e : ErrCode} (h : ¬c) (g : Unit → Except ErrCode Done) :
    (require c e >>= g) = .error e := by
  rw [require_of_not h, error_bind]

/-- A rule that starts with a check that passes, and raises an error after it. -/
theorem require_bind_error {c : Prop} [Decidable c] {e e' : ErrCode} {g : Unit → Except ErrCode Done} (h : c)
    (hg : g () = .error e) : (require c e' >>= g) = .error e := by
  rw [require_of h, ok_bind, hg]

/-! ### The missing nonce -/

theorem gcmParts_nonceUnset {s : State} (h : s.nonceValid = false) (inp : Bytes) :
    gcmParts s false inp = .error .nonceUnset := by
  simp [gcmParts, h]

/-- Past the key check a command that needs a nonce asks for it first (60_exceptions.md R403, step 5). -/
theorem exec_nonceUnset {i : Instr} {s : State} (h : PassesKey i s) (hneeds : needsNonce i s = true)
    (hn : s.nonceValid = false) : exec i s = .next ((afterReads i s).fail .nonceUnset) := by
  have hnot : ¬s.nonceValid = true := by simp [hn]
  cases i with
  | gcmEnc ksel nx =>
    obtain ⟨k, hk⟩ := h.workingKey_ok rfl
    unfold exec
    exact commandInAd_error h.legal h.range (by rw [key_bind_inAd hk]; exact require_bind_of_not hnot _)
  | gcmDec ksel nx =>
    obtain ⟨k, hk⟩ := h.workingKey_ok rfl
    obtain rfl : nx = false := by simpa [needsNonce] using hneeds
    unfold exec
    refine commandInAd_error h.legal h.range ?_
    rw [key_bind_inAd hk, gcmParts_afterReads, gcmParts_nonceUnset hn, error_bind]
  | pack66 ksel rc =>
    obtain ⟨k, hk⟩ := h.workingKey_ok rfl
    unfold exec
    exact commandIn_error h.legal h.range (by rw [key_bind hk]; exact require_bind_of_not hnot _)
  | msgEncode =>
    obtain ⟨k, hk⟩ := h.workingKey_ok rfl
    have hv : pipeVersion s.version = some .v35 := pipeVersion_eq_v35.2 (eq_of_beq hneeds)
    unfold exec
    refine commandIn_error h.legal h.range ?_
    rw [pipeline_bind hv (h.config rfl).2 hk]
    exact require_bind_of_not (not_not_intro ⟨rfl, hn⟩) _
  | nop | keyLoad | nonceLoad | sessionReset | kdf34 | kdf35 | aesEncBlock | aesDecBlock | pkcs7Pad | pkcs7Unpad | ecbEnc
  | ecbDec | crc32 | hmacSha256 | hmacVerify | frameScan | pack55 | unpack55 | unpack66 | msgDecode => cases hneeds

/-! ### The operand lengths -/

/-- IN has as many bytes as IBUF_LEN says, and no other number. -/
theorem length_inBytes_ne {s : State} {n : Word} (h : (s.ibufLen != n) = true) : s.inBytes.length ≠ n.toNat := by
  rw [State.length_inBytes]
  exact mt BitVec.eq_of_toNat_eq (bne_iff_ne.1 h)

/-- So has AD, for ABUF_LEN. -/
theorem length_adBytes_ne {s : State} {n : Word} (h : (s.abufLen != n) = true) : s.adBytes.length ≠ n.toNat := by
  rw [State.length_adBytes]
  exact mt BitVec.eq_of_toNat_eq (bne_iff_ne.1 h)

/-- The derivations check the length of IN past the key (40_control.md R144, R145). -/
theorem derive_operandLen {s : State} {inp : Bytes} (hv : s.keyValid = true) (hl : inp.length ≠ 32)
    (d : Bytes → Bytes → Bytes) : deriveSession inp s d = .error .operandLen :=
  require_bind_error hv (require_bind_of_not hl _)

/-- IN too short for a tag, and with NX = 1 for a nonce before it (42_gcm.md R231). -/
theorem gcmParts_operandLen {s : State} {nx : Bool} {inp : Bytes} (hn : nx = false → s.nonceValid = true)
    (hl : inp.length < if nx then 28 else 16) : gcmParts s nx inp = .error .operandLen := by
  cases nx with
  | true => exact if_pos hl
  | false =>
    have hl : inp.length < 16 := hl
    simp [gcmParts, hn rfl, hl]

/-- Past the nonce check a command asks next for the length of its operand (60_exceptions.md R403, step 6). -/
theorem exec_operandLen {i : Instr} {s : State} (h : PassesKey i s) (hn : needsNonce i s = true → s.nonceValid = true)
    (hbad : badLength i s = true) : exec i s = .next ((afterReads i s).fail .operandLen) := by
  cases i with
  | nonceLoad =>
    unfold exec
    exact commandIn_error h.legal h.range (require_bind_of_not (length_inBytes_ne hbad) _)
  | kdf34 | kdf35 =>
    obtain ⟨k, hk⟩ := h.workingKey_ok rfl
    unfold exec
    exact commandIn_error h.legal h.range
      (derive_operandLen (s := s.afterIn) (keyValid_of_workingKey hk) (length_inBytes_ne hbad) _)
  | aesEncBlock ksel | aesDecBlock ksel =>
    obtain ⟨k, hk⟩ := h.workingKey_ok rfl
    unfold exec
    refine commandIn_error h.legal h.range ?_
    rw [blockCommand, key_bind hk]
    exact require_bind_of_not (length_inBytes_ne hbad) _
  | gcmDec ksel nx =>
    obtain ⟨k, hk⟩ := h.workingKey_ok rfl
    have hlen : s.inBytes.length < if nx then 28 else 16 := by
      rw [State.length_inBytes]
      exact of_decide_eq_true hbad
    have hnonce : nx = false → s.nonceValid = true := fun hnx => hn (by rw [needsNonce, hnx]; rfl)
    unfold exec
    refine commandInAd_error h.legal h.range ?_
    rw [key_bind_inAd hk, gcmParts_afterReads, gcmParts_operandLen hnonce hlen, error_bind]
  | hmacVerify ksel =>
    obtain ⟨k, hk⟩ := h.workingKey_ok rfl
    unfold exec
    refine commandInAd_error h.legal h.range ?_
    rw [key_bind_inAd hk]
    exact require_bind_of_not (length_adBytes_ne (s := s.afterIn) hbad) _
  | nop | keyLoad | sessionReset | pkcs7Pad | pkcs7Unpad | ecbEnc | ecbDec | gcmEnc | crc32 | hmacSha256 | frameScan
  | pack55 | unpack55 | pack66 | unpack66 | msgEncode | msgDecode => cases hbad

/-- Settles O28, by the two checks in their order. -/
theorem nonceAndLengthErrors : Obligations.NonceAndLengthErrors := fun _ _ h =>
  ⟨fun hneeds hn => raises_of_exec (exec_nonceUnset h hneeds hn),
    fun hn hbad => raises_of_exec (exec_operandLen h hn hbad)⟩

/-! ### The output check -/

/-- The output of PKCS7_PAD (41_aes_ecb.md R178). -/
theorem outputLength_pkcs7Pad (s : State) : outputLength .pkcs7Pad s = some (pad s.inBytes).length := by
  rw [length_pad, State.length_inBytes]
  rfl

/-- The output of ECB_ENC (41_aes_ecb.md R180). -/
theorem outputLength_ecbEnc (s : State) (ksel : Ksel) {k : Bytes} (hk : k.length = 16) :
    outputLength (.ecbEnc ksel) s = some (ecbEnc k s.inBytes).length := by
  rw [length_ecbEnc hk, State.length_inBytes]
  rfl

/-- The output of GCM_ENC is the ciphertext, the tag and with NX = 1 the nonce (42_gcm.md R224, R230). -/
theorem outputLength_gcmEnc (s : State) (ksel : Ksel) (nx : Bool) {k : Bytes} (hk : k.length = 16)
    (hiv : s.nonce.length = 12) (a : Bytes) :
    outputLength (.gcmEnc ksel nx) s = some (gcmOutput nx s.nonce (gcmAE k s.nonce s.inBytes a)).length := by
  rw [gcmOutput_eq, List.length_append, List.length_append, length_gcmAE_fst hk hiv, length_gcmAE_snd hk hiv,
    State.length_inBytes]
  cases nx with
  | false => simp [outputLength]
  | true =>
    simp [outputLength, hiv]
    omega

/-- The frame of PACK55 (44_frame_codec.md R293). -/
theorem outputLength_pack55 {s : State} {ksel : Ksel} {hm : TrailerKind} {tr : Trailer}
    (ht : trailerOperand s ksel hm = .ok tr) (rc : RcMode) :
    outputLength (.pack55 ksel hm rc) s =
      some (build55 s.params s.seqIn s.cmdIn (retcodeOperand s rc) s.inBytes tr).1.length := by
  rw [length_build55_operands ht]
  rfl

/-- The frame of PACK66 (44_frame_codec.md R295). -/
theorem outputLength_pack66 (s : State) (ksel : Ksel) (rc : RcMode) {k : Bytes} (hk : k.length = 16)
    (hiv : s.nonce.length = 12) :
    outputLength (.pack66 ksel rc) s =
      some (build66 s.params s.seqIn s.cmdIn (retcodeOperand s rc) s.inBytes k s.nonce).1.length := by
  rw [length_build66 _ _ _ _ _ hk hiv, length_retcodeOperand, State.length_inBytes]
  rfl

/-- The frame of MSG_ENCODE, version by version (45_message_pipeline.md R356). -/
theorem outputLength_msgEncode {s : State} {v : PipeVersion} {k : Bytes} (hv : pipeVersion s.version = some v)
    (hk : k.length = 16) (hiv : s.nonce.length = 12) :
    outputLength .msgEncode s =
      some (encodeMessage s.params v s.seqIn s.cmdIn s.inBytes k s.nonce).1.length := by
  rw [outputLength, hv]
  cases v with
  | v33 =>
    simp [encodeMessage, length_build55, length_withHeader, length_ecbEnc hk, headerLength, paddedLength, Trailer.size]
    omega
  | v34 =>
    simp [encodeMessage, length_build55, length_withHeader, length_ecbEnc hk, headerLength, paddedLength, Trailer.size]
  | v35 =>
    simp [encodeMessage, length_build66 _ _ _ _ _ hk hiv, length_withHeader, headerLength]
    omega

/-- The output a command would emit is too long if the length computed for it is. -/
theorem not_le_cap_of_outputLength {i : Instr} {s : State} {n m : Nat} (hout : outputLength i s = some n)
    (hn : s.cap < n) (h : outputLength i s = some m) : ¬m ≤ s.cap :=
  Nat.not_le_of_lt (Option.some.inj (hout.symm.trans h) ▸ hn)

/-- A command that makes the output check and passes all others raises ERR_BUF_RANGE where its output does not fit,
given the widths of the keys and of the nonce. -/
theorem exec_output_bufRange {i : Instr} {s : State} {n : Nat} (hkeys : KeysInv s) (h : PassesChecks i s)
    (hout : outputLength i s = some n) (hn : s.cap < n) : exec i s = .next ((afterReads i s).fail .bufRange) := by
  have hlong {m : Nat} := not_le_cap_of_outputLength (m := m) hout hn
  have hpass := h.toPassesKey
  cases i with
  | pkcs7Pad =>
    unfold exec
    exact commandIn_error h.legal h.range (require_bind_of_not (hlong (outputLength_pkcs7Pad s)) _)
  | ecbEnc ksel =>
    obtain ⟨k, hk⟩ := hpass.workingKey_ok rfl
    unfold exec
    refine commandIn_error h.legal h.range ?_
    rw [key_bind hk]
    exact require_bind_of_not (hlong (outputLength_ecbEnc s ksel (hkeys.length_key hk))) _
  | gcmEnc ksel nx =>
    obtain ⟨k, hk⟩ := hpass.workingKey_ok rfl
    have hlength := outputLength_gcmEnc s ksel nx (hkeys.length_key hk) hkeys.nonceSize s.afterIn.adBytes
    unfold exec
    refine commandInAd_error h.legal h.range ?_
    rw [key_bind_inAd hk]
    exact require_bind_error (h.nonce rfl) (require_bind_of_not (hlong hlength) _)
  | pack55 ksel hm rc =>
    obtain ⟨tr, ht⟩ := hpass.trailer_ok
    unfold exec
    refine commandIn_error h.legal h.range ?_
    rw [trailerOperand_afterIn, ht, ok_bind]
    exact require_bind_of_not (hlong (outputLength_pack55 ht rc)) _
  | pack66 ksel rc =>
    obtain ⟨k, hk⟩ := hpass.workingKey_ok rfl
    have hlength := outputLength_pack66 s ksel rc (hkeys.length_key hk) hkeys.nonceSize
    unfold exec
    refine commandIn_error h.legal h.range ?_
    rw [key_bind hk]
    exact require_bind_error (h.nonce rfl) (require_bind_of_not (hlong hlength) _)
  | msgEncode =>
    obtain ⟨k, hk⟩ := hpass.workingKey_ok rfl
    obtain ⟨v, hv⟩ := hpass.pipeVersion_some rfl
    have hlength := outputLength_msgEncode hv (hkeys.length_key hk) hkeys.nonceSize
    have hnonce : ¬(v = .v35 ∧ s.nonceValid = false) := by
      rintro ⟨rfl, hvalid⟩
      exact absurd (h.nonce (beq_iff_eq.2 (pipeVersion_eq_v35.1 hv))) (by simp [hvalid])
    unfold exec
    refine commandIn_error h.legal h.range ?_
    rw [pipeline_bind hv (h.config rfl).2 hk]
    exact require_bind_error hnonce (require_bind_of_not (hlong hlength) _)
  | nop | keyLoad | nonceLoad | sessionReset | kdf34 | kdf35 | aesEncBlock | aesDecBlock | pkcs7Unpad | ecbDec | gcmDec
  | crc32 | hmacSha256 | hmacVerify | frameScan | unpack55 | unpack66 | msgDecode => cases hout

/-- Settles O32: the invariant gives the widths of key and nonce, and with them the output's length. -/
theorem outputRangeError : Obligations.OutputRangeError := fun _ _ _ hinv h hout hn =>
  raises_of_exec (exec_output_bufRange hinv.keys h hout hn)

end Sys2Proof.Machine

/-!
PROOFS. The ghost sets NLOG and FAULTS are invisible (60_exceptions.md R411): whatever a step does, it does with both
sets emptied.
-/

namespace Sys2Proof.Machine

/-! ### States, answers and outcomes with the ghost sets emptied -/

/-- The state with NLOG and FAULTS emptied. -/
def State.eraseGhost (s : State) : State :=
  { s with nlog := [], faults := { nonceReuse := false, unwrittenRead := false } }

/-- What a rule has staged, with the ghost sets emptied. -/
def Done.eraseGhost (d : Done) : Done := { d with state := d.state.eraseGhost }

/-- A step's outcome, with the ghost sets of the next state emptied. -/
def eraseGhost : Result → Result
  | .next t => .next t.eraseGhost
  | .fault r => .fault r
  | .refused r => .refused r

/-- Two states agree but for the ghost sets exactly if they are one state with the sets emptied. -/
theorem sameButGhost_iff {s s' : State} : SameButGhost s s' ↔ s'.eraseGhost = s.eraseGhost := by
  refine ⟨fun h => ?_, fun h => ?_⟩
  · rw [h]
    rfl
  · exact congrArg (fun u : State => { u with nlog := s'.nlog, faults := s'.faults }) h

theorem next_of_eraseGhost_eq {r : Result} {t : State} (h : eraseGhost r = .next t) :
    ∃ t', r = .next t' ∧ t'.eraseGhost = t := by
  cases r with
  | next t' => exact ⟨t', rfl, Host.Outcome.next.inj h⟩
  | fault => cases h
  | refused => cases h

theorem eraseGhost_fail (s : State) (e : ErrCode) : (s.eraseGhost.fail e).eraseGhost = (s.fail e).eraseGhost := rfl

/-- The end of a command shows nothing of the ghost sets before it, nor of those its rule has staged. -/
theorem eraseGhost_finish (s : State) (r : Except ErrCode Done) :
    (s.finish r).eraseGhost = (s.eraseGhost.finish (Done.eraseGhost <$> r)).eraseGhost := by
  cases r <;> rfl

/-! ### The commands -/

section
variable {s : State} {i : Instr}

/-- A rule that does not look at the ghost sets ends alike on two states that differ in them alone. -/
theorem finish_eraseGhost (u v : State) (h : u.eraseGhost = v.eraseGhost) {body : State → Except ErrCode Done}
    (hb : ∀ w, Done.eraseGhost <$> body w.eraseGhost = Done.eraseGhost <$> body w) :
    (u.finish (body u)).eraseGhost = (v.finish (body v)).eraseGhost := by
  rw [eraseGhost_finish u, eraseGhost_finish v, ← hb u, ← hb v, h]

theorem command_eraseGhost {body : State → Except ErrCode Done}
    (hb : ∀ u, Done.eraseGhost <$> body u.eraseGhost = Done.eraseGhost <$> body u) :
    eraseGhost (command i s.eraseGhost body) = eraseGhost (command i s body) := by
  cases hw : i.wellFormed with
  | false => rw [command_illegal hw, command_illegal hw, eraseGhost, eraseGhost, eraseGhost_fail]
  | true =>
    rw [command_run hw, command_run hw]
    exact congrArg Host.Outcome.next (finish_eraseGhost s.eraseGhost s rfl hb)

theorem commandIn_eraseGhost {body : Bytes → State → Except ErrCode Done}
    (hb : ∀ inp u, Done.eraseGhost <$> body inp u.eraseGhost = Done.eraseGhost <$> body inp u) :
    eraseGhost (commandIn i s.eraseGhost body) = eraseGhost (commandIn i s body) := by
  cases hw : i.wellFormed with
  | false => rw [commandIn_illegal hw, commandIn_illegal hw, eraseGhost, eraseGhost, eraseGhost_fail]
  | true =>
    by_cases hr : s.ibufLen.toNat ≤ s.cap
    · rw [commandIn_run hw hr, commandIn_run (s := s.eraseGhost) hw hr]
      exact congrArg Host.Outcome.next (finish_eraseGhost s.eraseGhost.afterIn s.afterIn rfl (hb s.inBytes))
    · have hr := Nat.lt_of_not_le hr
      rw [commandIn_range hw hr, commandIn_range (s := s.eraseGhost) hw hr, eraseGhost, eraseGhost, eraseGhost_fail]

theorem commandInAd_eraseGhost {body : Bytes → Bytes → State → Except ErrCode Done}
    (hb : ∀ inp ad u, Done.eraseGhost <$> body inp ad u.eraseGhost = Done.eraseGhost <$> body inp ad u) :
    eraseGhost (commandInAd i s.eraseGhost body) = eraseGhost (commandInAd i s body) := by
  cases hw : i.wellFormed with
  | false => rw [commandInAd_illegal hw, commandInAd_illegal hw, eraseGhost, eraseGhost, eraseGhost_fail]
  | true =>
    by_cases hr : s.ibufLen.toNat ≤ s.cap ∧ s.abufLen.toNat ≤ s.cap
    · rw [commandInAd_run hw hr, commandInAd_run (s := s.eraseGhost) hw hr]
      exact congrArg Host.Outcome.next
        (finish_eraseGhost s.eraseGhost.afterIn.afterAd s.afterIn.afterAd rfl (hb s.inBytes s.afterIn.adBytes))
    · have hr : s.cap < s.ibufLen.toNat ∨ s.cap < s.abufLen.toNat := by omega
      rw [commandInAd_range hw hr, commandInAd_range (s := s.eraseGhost) hw hr, eraseGhost, eraseGhost,
        eraseGhost_fail]

end

/-- A rule whose first part does not look at the ghost sets, and whose rest does the same without them. -/
theorem bind_eraseGhost {α : Type} {x x' : Except ErrCode α} {g g' : α → Except ErrCode Done} (hx : x' = x)
    (h : ∀ a, Done.eraseGhost <$> g' a = Done.eraseGhost <$> g a) :
    Done.eraseGhost <$> (x' >>= g') = Done.eraseGhost <$> (x >>= g) := by
  rw [hx, map_bind, map_bind, funext h]

/-- No command looks at the ghost sets, by the number of its rule's parts: each part is the same without them, and
the writes at the end differ in them alone. -/
theorem exec_eraseGhost (i : Instr) (s : State) : eraseGhost (exec i s.eraseGhost) = eraseGhost (exec i s) := by
  cases i with
  | nop | sessionReset =>
    unfold exec
    exact command_eraseGhost fun u => rfl
  | keyLoad | crc32 =>
    unfold exec
    exact commandIn_eraseGhost fun inp u => rfl
  | nonceLoad | frameScan | pkcs7Pad | pkcs7Unpad | hmacSha256 =>
    unfold exec
    exact commandIn_eraseGhost fun inp u => bind_eraseGhost rfl fun _ => rfl
  | kdf34 | kdf35 | aesEncBlock | aesDecBlock | ecbEnc | ecbDec | pack55 | unpack55 | unpack66 =>
    unfold exec
    exact commandIn_eraseGhost fun inp u => bind_eraseGhost rfl fun _ => bind_eraseGhost rfl fun _ => rfl
  | pack66 =>
    unfold exec
    exact commandIn_eraseGhost fun inp u =>
      bind_eraseGhost rfl fun _ => bind_eraseGhost rfl fun _ => bind_eraseGhost rfl fun _ => rfl
  | gcmEnc | gcmDec | hmacVerify =>
    unfold exec
    exact commandInAd_eraseGhost fun inp ad u =>
      bind_eraseGhost rfl fun _ => bind_eraseGhost rfl fun _ => bind_eraseGhost rfl fun _ => rfl
  | msgDecode =>
    unfold exec
    exact commandIn_eraseGhost fun inp u => bind_eraseGhost rfl fun _ => bind_eraseGhost rfl fun _ =>
      bind_eraseGhost rfl fun _ => bind_eraseGhost rfl fun _ => rfl
  | msgEncode =>
    unfold exec
    refine commandIn_eraseGhost fun inp u => bind_eraseGhost rfl fun v => bind_eraseGhost rfl fun _ =>
      bind_eraseGhost rfl fun _ => bind_eraseGhost rfl fun _ => bind_eraseGhost rfl fun _ => ?_
    cases v <;> rfl

/-! ### The host's accesses and the step -/

/-- A host access does the same, and reads the same, with the ghost sets emptied. -/
theorem serve_eraseGhost (s : State) (a : Access) : (serve s.eraseGhost a).eraseGhost = (serve s a).eraseGhost := by
  cases a with
  | regRead | bufRead | reset => rfl
  | regWrite n v =>
    show (regWrite s.eraseGhost n v).eraseGhost = (regWrite s n v).eraseGhost
    unfold regWrite
    split <;> rfl
  | bufWrite a v =>
    show (bufWrite s.eraseGhost a v).eraseGhost = (bufWrite s a v).eraseGhost
    by_cases ha : inOperands s.cap a.toNat
    · rw [bufWrite_operand v ha, bufWrite_operand (s := s.eraseGhost) v ha]
      rfl
    · rw [bufWrite_elsewhere v ha, bufWrite_elsewhere (s := s.eraseGhost) v ha]
      rfl

/-- No step looks at the ghost sets. -/
theorem step_eraseGhost (s : State) : eraseGhost (step s.eraseGhost) = eraseGhost (step s) := by
  rcases step_cases s with ⟨hi, hs⟩ | ⟨a, rest, hi, hc, hs⟩ | ⟨w, rest, hi, ⟨i, hd, hs⟩ | ⟨e, hd, hs⟩⟩
  · rw [hs, step_idle (s := s.eraseGhost) hi]
    rfl
  · rw [hs, step_served (s := s.eraseGhost) hi hc]
    exact congrArg Host.Outcome.next (serve_eraseGhost { s with inputs := rest } a)
  · rw [hs, step_command (s := s.eraseGhost) hd hi]
    exact exec_eraseGhost i { s with inputs := rest, cmd := w }
  · rw [hs, step_illegal (s := s.eraseGhost) hd hi]
    rfl

/-- Settles O47: both steps are the step of the one state they are with the ghost sets emptied. -/
theorem ghostStateIsInvisible : Obligations.GhostStateIsInvisible := by
  intro s s' t h hstep
  have hsame : eraseGhost (step s') = .next t.eraseGhost := by
    rw [← step_eraseGhost, sameButGhost_iff.1 h, step_eraseGhost, hstep, eraseGhost]
  obtain ⟨t', ht', heq⟩ := next_of_eraseGhost_eq hsame
  exact ⟨t', ht', sameButGhost_iff.2 heq⟩

end Sys2Proof.Machine

/-!
PROOFS. Reset (70_reset_and_hazards.md R440, R441): what holds of the machine right after it, and what reads back.
-/

namespace Sys2Proof.Machine

/-! ### The reset state and the platform's reset -/

/-- Settles O45: each clause of the invariant, at the values of R441. -/
theorem invHoldsAtReset : Obligations.InvHoldsAtReset := fun _ hp => inv_resetOf hp

/-- Registers 0x00 to 0x0F read 0 (R441); ID, the first of the constants, stands at 0x10. -/
theorem regRead_platformReset (s : State) {n : BitVec 8} (hn : n.toNat < 0x10) :
    regRead (platformReset s) n = 0 := by
  unfold regRead
  split
  any_goals rfl
  all_goals omega

/-- The buffers hold no specified value (R441). -/
@[simp] theorem platformReset_mem (s : State) : (platformReset s).mem = [] := rfl

/-- WMAP_I and WMAP_A are empty (R441). -/
theorem written_platformReset (s : State) (b : Buffer) (i : Nat) : (platformReset s).written b i = false := by
  rw [State.written, platformReset_mem, Memory.read_nil, Option.isSome_none]

/-- Settles O52: the reset is served by the step, the registers and the buffers read back as above, and the key, nonce
and ghost fields are those of the reset state. -/
theorem resetPutsEverythingBack : Obligations.ResetPutsEverythingBack := by
  intro s rest hi
  refine ⟨platformReset { s with inputs := rest }, step_served hi rfl, fun _ => regRead_platformReset _, ?id,
    platformReset_params _, ?keyLocal, ?keySrclen, ?keyValid, ?keySession, ?negotiated, ?nonce, ?nonceValid,
    Memory.read_nil, written_platformReset _, ?nlog, ?faults, platformReset_inputs _, platformReset_replies _⟩
  all_goals rfl

end Sys2Proof.Machine
